-- ==== Sys2Proof/Word.lean ====
section
/-! DEFINITION. Word.lean: the machine words of the Sinosaur modulation core (spec/00_scope.md, section 5 "Notation").
`uN` is an unsigned integer of N bits with wrapping arithmetic; levels, envelope values and the FM position are exact
rationals, the spec's type `Q` (rule R8), for which Lean's `Rat` is used unchanged. -/

namespace Sys2Proof

/-- `u8`: a byte of the settings structure, of the flash pool, of the status register. -/
abbrev Byte := BitVec 8

/-- `u32`: the tick counter, the phase accumulators, the millisecond stamps, the clock interval. -/
abbrev Word32 := BitVec 32

/-- `u16`: one raw analog sample of the scan buffer. -/
abbrev Sample := BitVec 16

/-- `u12`: one output code of a DAC or LED PWM register. -/
abbrev Code := BitVec 12

end Sys2Proof
end

