-- ==== Sys2Proof/Config.lean ====
section
/-! DEFINITION. Config.lean: the configuration record of spec/00_scope.md rule R5, and the free values.

Parameters the source document gives a value for are constants here (normative). Parameters the document leaves OPEN are
the fields of `Params`; State holds one such record, so every statement about every state is a statement about every
configuration. The reference values REF of rule R5 are `Params.ref`. The two draws and the trigonometric primitive are
opaque constants with no body: nothing in Lean can evaluate them or prove a value of them. -/

namespace Sys2Proof.Config

/-- Number of oscillators, `NLFO` (R5). -/
abbrev nLfo : Nat := 3

/-- Full-scale raw control value, `ADC_MAX` (R5). -/
abbrev adcMax : Nat := 4095

/-- Samples per scan, `ADC_N` (R5). -/
abbrev adcN : Nat := 10

/-- Full-scale output code, `DAC_MAX` (R5). -/
abbrev dacMax : Nat := 4095

/-- Button debounce window in milliseconds, `DEBOUNCE_MS` (R5). -/
abbrev debounceMs : Nat := 100

/-- Hysteresis noise margin in raw units, `HYST_MARGIN` (R5). -/
abbrev hystMargin : Rat := 20

/-- Ladder thresholds, `THRESH[0..4]` (R5). -/
abbrev thresholds : List Rat := [682, 1365, 2048, 2731, 3413]

/-- FM offset scale 2^18, `FM_SCALE` (R5). -/
abbrev fmScale : Rat := 262144

/-- Output level factor one half, `LEVEL_HALF` (R5). -/
abbrev levelHalf : Rat := 1 / 2

/-- Flash pages in the pool, `NPAGES` (R5). -/
abbrev nPages : Nat := 20

/-- Bytes of one flash page, `PAGE_SIZE` (R5). -/
abbrev pageSize : Nat := 2048

/-- Block size alignment, `CFG_ALIGN` (R5). -/
abbrev cfgAlign : Nat := 16

/-- Save debounce window in milliseconds, `SAVE_DEBOUNCE_MS` (R5). -/
abbrev saveDebounceMs : Nat := 60000

/-- Total bytes of all saver blobs, `SETTINGS_SIZE` (R5). -/
abbrev settingsSize : Nat := 6

/-- Header bytes of a block: four of magic and one of index, `HDR_SIZE` (R9). -/
abbrev hdrSize : Nat := 5

/-- Bytes of one block, `BLK` (R9): header and blobs rounded up to a multiple of `CFG_ALIGN`. -/
abbrev blk : Nat := cfgAlign * ((hdrSize + settingsSize + (cfgAlign - 1)) / cfgAlign)

/-- Blocks in one page, `BLOCKS_PER_PAGE` (R9). -/
abbrev blocksPerPage : Nat := pageSize / blk

/-- Bytes of the whole pool, `POOL_BYTES` (R9). -/
abbrev poolBytes : Nat := nPages * pageSize

/-- What an erased flash byte reads as (R27, spec's general knowledge G1). -/
abbrev erasedByte : Byte := 0xFF

/-- The page index that means "no valid config header found at this page's start" (R24, R68). -/
abbrev noIndex : Byte := 255

/-- The six multipliers every ladder is an ordering of (R6). -/
abbrev multipliers : List Rat := [8, 4, 2, 1, ⟨1, 2, by decide, by decide⟩, ⟨1, 4, by decide, by decide⟩]

/-- The OPEN parameters of rule R5 and the one decided parameter the spec keeps variable (`SWELL_FALL`). -/
structure Params where
  /-- `RAMP_INC`: ramp increment per tick at full rate and level. -/
  rampInc : Rat
  /-- `SWELL_INC`: swell increment per tick at full rate and level. -/
  swellInc : Rat
  /-- `RELEASE_INC`: release decrement per tick. -/
  releaseInc : Rat
  /-- `SWELL_FALL`: magnitude of the swell falling direction. -/
  swellFall : Rat
  /-- `K_FREE`: the free-running increment is the floor of `K_FREE` times the squared rate. -/
  kFree : Rat
  /-- `SECOND_TICKS`: ticks in the one-second validity window. -/
  secondTicks : Nat
  /-- `LADDER[0..5]`: multiplier of each band, band 0 the lowest input. -/
  ladder : Vector Rat 6
  /-- `FLASH_WBLK`: bytes of one program operation. -/
  wblk : Nat
  /-- `CFG_VERSION`: the fourth byte of the magic. -/
  cfgVersion : Byte
  /-- `CFG_BASE`: flash address of pool page 0, byte 0. -/
  cfgBase : Nat
  /-- The platform's number of the page at pool position 0, the "unspecified constant" of rules R24 and R41. -/
  firstPage : Nat
  deriving DecidableEq, Repr

/-- The reference configuration REF of rule R5 (the spec's own test values, no claim about the hardware). `CFG_BASE` and
the platform's first page number have no REF value; no rule depends on them and 0 stands for each here. DESIGN CHOICE,
notes/assumptions/1.md. -/
def Params.ref : Params where
  rampInc := ⟨1, 512, by decide, by decide⟩
  swellInc := ⟨1, 256, by decide, by decide⟩
  releaseInc := ⟨1, 1024, by decide, by decide⟩
  swellFall := ⟨1, 2, by decide, by decide⟩
  kFree := 1
  secondTicks := 40000
  ladder := #v[8, 4, 2, 1, ⟨1, 2, by decide, by decide⟩, ⟨1, 4, by decide, by decide⟩]
  wblk := 8
  cfgVersion := 0x01
  cfgBase := 0
  firstPage := 0

/-- FREE VALUE. What the trigonometric unit answers before its range is applied (rule R7: a pure, total function of the
phase; its values are given by no source). `Sys2Proof.Machine.sin` brings it into [-1, 1]. -/
opaque sinRaw : Word32 → Rat

/-- FREE VALUE. The n-th boolean draw of a run, where the environment's tape has none left: whether a program or erase
operation reports an error (rules R203, R204). -/
opaque freeError : Nat → Bool

/-- FREE VALUE. The n-th byte draw of a run, where the environment's tape has none left: padding bytes (R69) and the bytes
a failed or cut flash operation leaves (R203, R204, R254). -/
opaque freeByte : Nat → Byte

end Sys2Proof.Config
end

