-- ==== Sys2Proof/Syntax.lean ====
section
/-! DEFINITION. Syntax.lean: the ten operations of spec/opcode_table.json and the enumerations they speak of.
Five are words of the 4-bit command port (rule R61), five are words of the 3-bit flash-operation port (rule R65). -/

namespace Sys2Proof

/-- One constructor per row of spec/opcode_table.json. A command carries no operand bits but SAVE_CONFIG's force flag `F`
(rule R60); every other operand is on an input port (rules R63, R65) and stands in State. -/
inductive Instr where
  /-- TICK, rule R150. -/
  | tick
  /-- RESTORE_CONFIG, rule R160. -/
  | restoreConfig
  /-- SCHEDULE_SAVE, rule R170. -/
  | scheduleSave
  /-- SAVE_CONFIG with its force flag `F`, rule R171. -/
  | saveConfig (force : Bool)
  /-- ERASE_CONFIG, rule R178. -/
  | eraseConfig
  /-- FL_UNLOCK, rule R201. -/
  | flUnlock
  /-- FL_CLRERR, rule R202. -/
  | flClrerr
  /-- FL_PROG, rule R203. Its location and data are on the flash-operation port. -/
  | flProg
  /-- FL_ERASE, rule R204. Its page position is on the flash-operation port. -/
  | flErase
  /-- FL_LOCK, rule R205. -/
  | flLock
  deriving DecidableEq, Repr

/-- A routing mode (rules R14, R66): which envelope, if any, modulates one axis of one oscillator. -/
inductive Mode where
  | none
  | ramp
  | swell
  deriving DecidableEq, Repr

/-- The input ports a command samples once when it is issued (rules R21, R63). Active-low pins are `true` when the pin
reads 1, that is when the gate is inactive, the clock line idle, the button released. -/
structure Inputs where
  /-- `adc[0..9]`: rate and level of the three oscillators, then of the ramp, then of the swell (R70). -/
  adc : Vector Sample 10
  /-- `gate_n`. -/
  gateN : Bool
  /-- `clk_n`. -/
  clkN : Bool
  /-- `btn_n[0..5]`: rate and level button of each oscillator (R70). -/
  btnN : Vector Bool 6
  /-- `ms_now`: the platform's millisecond counter. -/
  msNow : Word32
  deriving DecidableEq, Repr

/-- The idle value of every operand (rule R72: `adc` all 0, `gate_n=1`, `clk_n=1`, `btn_n` all 1), at time `ms`. -/
def Inputs.idle (ms : Word32) : Inputs where
  adc := Vector.replicate 10 0
  gateN := true
  clkN := true
  btnN := Vector.replicate 6 true
  msNow := ms

end Sys2Proof
end

