-- ==== Sys2Proof/WellFormed.lean ====
section
/-! DEFINITION. WellFormed.lean: which configurations and which sampled inputs the spec gives a meaning to. -/

namespace Sys2Proof

/-- Every instruction the encoding admits is well formed: the only operand field, `F` of SAVE_CONFIG, is one bit and both
its values are meaningful (rules R60, R61). One arm per constructor, so that a new one must answer. -/
def Instr.wellFormed : Instr → Bool
  | .tick => true
  | .restoreConfig => true
  | .scheduleSave => true
  | .saveConfig _ => true
  | .eraseConfig => true
  | .flUnlock => true
  | .flClrerr => true
  | .flProg => true
  | .flErase => true
  | .flLock => true

/-- The legal range of an analog sample, 0 .. ADC_MAX (rule R70). -/
def sampleLegal (a : Sample) : Bool := a.toNat ≤ Config.adcMax

/-- Every sample of a scan is in its legal range (rule R70). -/
def Inputs.wellFormed (i : Inputs) : Bool := i.adc.toList.all sampleLegal

namespace Config

/-- "`RAMP_INC`, `SWELL_INC`, `RELEASE_INC` are rationals greater than 0" (rule R6). -/
def Params.incrementsPositive (p : Params) : Bool :=
  decide (0 < p.rampInc) && decide (0 < p.swellInc) && decide (0 < p.releaseInc)

/-- "`0 < SWELL_FALL < 1`" (rule R6). -/
def Params.fallInRange (p : Params) : Bool := decide (0 < p.swellFall) && decide (p.swellFall < 1)

/-- "`K_FREE > 0` and `K_FREE × ADC_MAX² < 2^32`" (rule R6), the product written over numerator and denominator. -/
def Params.freeScaleInRange (p : Params) : Bool :=
  decide (0 < p.kFree) && decide (p.kFree.num * (adcMax : Int) ^ 2 < 2 ^ 32 * (p.kFree.den : Int))

/-- "`SECOND_TICKS >= 1`" (rule R6). -/
def Params.secondPositive (p : Params) : Bool := decide (1 ≤ p.secondTicks)

/-- "`CFG_ALIGN` is a multiple of `FLASH_WBLK`" (rule R6). -/
def Params.wblkDivides (p : Params) : Bool := decide (0 < p.wblk) && decide (cfgAlign % p.wblk = 0)

/-- "`LADDER` is a permutation of {8, 4, 2, 1, 1/2, 1/4}" (rule R6). -/
def Params.ladderPermutes (p : Params) : Bool := p.ladder.toList.isPerm multipliers

/-- The constraints of rule R6 on the OPEN parameters. The others (`NPAGES <= 254`, `PAGE_SIZE` a multiple of `BLK`) hold
of the constants of Config by computation. -/
def Params.wellFormed (p : Params) : Bool :=
  p.incrementsPositive && p.fallInRange && p.freeScaleInRange && p.secondPositive && p.wblkDivides && p.ladderPermutes

end Config

end Sys2Proof
end

