-- ==== Sys2Proof/Decode.lean ====
section
/-! DEFINITION. Decode.lean: the two word formats of spec/30_encoding.md, CMD (rules R60, R61) and FOP (rule R65), the
reserved encodings (rule R64), and the encoder written from the same tables. -/

namespace Sys2Proof

/-- A word on one of the block's two request ports. There are no prefixes and no variable-length forms, and no mode
changes decoding (rule R71): the port alone says which format a word has. -/
inductive PortWord where
  /-- `cmd[3:0]` on the command port. -/
  | cmd (w : BitVec 4)
  /-- `fop[2:0]` on the flash-operation port. -/
  | fop (w : BitVec 3)
  deriving DecidableEq, Repr

/-- Why a word is rejected (rule R64). -/
inductive DecodeError where
  /-- `OP` = 101, 110 or 111. -/
  | reservedOperation
  /-- `F = 1` with an `OP` other than 011. -/
  | forceNotAdmitted
  /-- `fop` = 101, 110 or 111. -/
  | reservedFlashOperation
  deriving DecidableEq, Repr

/-- `cmd[2:0]`, the operation select (rule R60). -/
def opField (w : BitVec 4) : BitVec 3 := w.extractLsb' 0 3

/-- `cmd[3]`, the force flag (rule R60). -/
def forceField (w : BitVec 4) : Bool := w.getLsbD 3

/-- An operation that must have `F = 0` (rule R60). -/
def withoutForce (w : BitVec 4) (i : Instr) : Except DecodeError Instr :=
  if forceField w then .error .forceNotAdmitted else .ok i

/-- The command table (rule R61). -/
def decodeCommand (w : BitVec 4) : Except DecodeError Instr :=
  match (opField w).toNat with
  | 0 => withoutForce w .tick
  | 1 => withoutForce w .restoreConfig
  | 2 => withoutForce w .scheduleSave
  | 3 => .ok (.saveConfig (forceField w))
  | 4 => withoutForce w .eraseConfig
  | _ => .error .reservedOperation

/-- The flash-operation table (rule R65). -/
def decodeFlashOperation (w : BitVec 3) : Except DecodeError Instr :=
  match w.toNat with
  | 0 => .ok .flUnlock
  | 1 => .ok .flClrerr
  | 2 => .ok .flProg
  | 3 => .ok .flErase
  | 4 => .ok .flLock
  | _ => .error .reservedFlashOperation

/-- Decoding is total: every word of either port is an instruction or is rejected by name. -/
def decode : PortWord → Except DecodeError Instr
  | .cmd w => decodeCommand w
  | .fop w => decodeFlashOperation w

/-- The word of an instruction, from the tables of rules R61 and R65. -/
def encode : Instr → PortWord
  | .tick => .cmd 0b0000#4
  | .restoreConfig => .cmd 0b0001#4
  | .scheduleSave => .cmd 0b0010#4
  | .saveConfig force => .cmd (if force then 0b1011#4 else 0b0011#4)
  | .eraseConfig => .cmd 0b0100#4
  | .flUnlock => .fop 0b000#3
  | .flClrerr => .fop 0b001#3
  | .flProg => .fop 0b010#3
  | .flErase => .fop 0b011#3
  | .flLock => .fop 0b100#3

/-- The port a table row of `nbits` bits is on: the 3-bit rows are words of the flash-operation port (rule R65), all others
of the command port (rule R60). A row given in whole bytes (8 bits) does not say its port; it is then read as a command.
DESIGN CHOICE, notes/assumptions/2.md. -/
def portWord (nbits w : Nat) : PortWord :=
  if nbits ≤ 3 then .fop (BitVec.ofNat 3 w) else .cmd (BitVec.ofNat 4 w)

/-- The instruction the decoder reads from a word of the opcode table; a number with bits above the port's word is none. -/
def decodeTableWord (nbits w : Nat) : Option Instr :=
  if w < (if nbits ≤ 3 then 8 else 16) then
    match decode (portWord nbits w) with
    | .ok i => some i
    | .error _ => none
  else none

end Sys2Proof
end

