-- ==== Sys2Proof/Machine/State.lean ====
section
/-! DEFINITION. State.lean: the state of the Sinosaur modulation core as plain data (spec/10_state.md), the ways a step can
stop, and the state after reset (rule R30).

Three parts of `State` are not registers of the block. `params` is the configuration record of rule R5. `inputs` is what
the commands sampled of the input ports (rules R21, R63). `env` is the environment of rule R235: what it will do next and
the draws it has already chosen. -/

namespace Sys2Proof.Machine

open Sys2Proof.Config

/-- The datapath registers of one oscillator (rule R13). -/
structure Lfo where
  /-- Phase accumulator. -/
  phase : Word32
  /-- Current sine output. -/
  sine : Rat
  /-- Current FM-chain output; never written for oscillator 0. -/
  fm : Rat
  /-- Current envelope-modulated output level. -/
  outLevel : Rat
  deriving DecidableEq, Repr

/-- One debounced button (rule R15). -/
structure Button where
  /-- Time of the confirmed press, 0 when not pressed. -/
  down : Word32
  /-- Time of the last confirmed release. -/
  up : Word32
  deriving DecidableEq, Repr

/-- The two envelopes (rule R16). -/
structure Envelopes where
  rampOut : Rat
  swellOut : Rat
  /-- `swell.dir`: +1 rising, `-SWELL_FALL` falling. -/
  swellDir : Rat
  deriving DecidableEq, Repr

/-- Clock-period detector (rule R17) and hysteresis ladder (rule R18). -/
structure ClockSync where
  /-- `clkPrev`: the `clk_n` level of the previous tick. -/
  prev : Bool
  /-- `clkLastEdge`. -/
  lastEdge : Word32
  /-- `clkInterval`. -/
  interval : Word32
  /-- `clkValid`. -/
  valid : Bool
  /-- `clkHyst`: the last adopted candidate. -/
  hyst : Rat
  /-- `clkMult`: the multiplier in force. -/
  mult : Rat
  deriving DecidableEq, Repr

/-- The output registers (rule R19): the twelve that the rule names. The rule, and rules R30, R153 and R232, count
thirteen and name no other. DESIGN CHOICE, notes/assumptions/23.md. -/
structure Outputs where
  /-- `DAC[k]`. -/
  dac : Vector Code 3
  /-- `LED[k]`. -/
  led : Vector Code 3
  /-- `FMDAC[1]`. -/
  fmDac1 : Code
  /-- `FMDAC[2]`. -/
  fmDac2 : Code
  rampDac : Code
  rampLed : Code
  swellDac : Code
  swellLed : Code
  deriving DecidableEq, Repr

/-- One page descriptor (rule R24). The page number is a constant of the position and is not state: `platformPage` adds the
unspecified first page number of rules R24 and R41 to the position. DESIGN CHOICE, notes/assumptions/24.md. -/
structure PageDesc where
  dirty : Bool
  /-- The page's rotating index, 255 for none. -/
  index : Byte
  deriving DecidableEq, Repr

/-- How far `EraseSeq` has got (rule R209). -/
inductive EraseStep where
  | unlock
  | clearErr
  | erase
  | poll
  | lock (ok : Bool)
  | done (ok : Bool)
  deriving DecidableEq, Repr

/-- How far `ProgramSeq` has got (rule R208); a unit is `FLASH_WBLK` bytes. -/
inductive ProgStep where
  | unlock
  | clearErr
  | prog (unit : Nat)
  | poll (unit : Nat)
  | lock (ok : Bool)
  | done (ok : Bool)
  deriving DecidableEq, Repr

/-- `cfg.op` (rule R29): which store command is in flight and how far it has got. `ok` says that no erase of this command
has failed so far, `found` that rule R163 found a page with a header. -/
inductive StoreOp where
  /-- No store command in flight. -/
  | idle
  /-- RESTORE_CONFIG before rule R163. -/
  | restoreFind
  /-- RESTORE_CONFIG in rule R165, about to consider page `page`. -/
  | restoreReclaim (page : Nat) (ok found : Bool)
  /-- RESTORE_CONFIG in rule R165, erasing page `page`. -/
  | restoreErase (page : Nat) (step : EraseStep) (ok found : Bool)
  /-- RESTORE_CONFIG before rule R166. -/
  | restoreSnapshot (ok found : Bool)
  /-- RESTORE_CONFIG in rule R168, about to copy byte `byte` of the snapshot. -/
  | restoreCopy (snapshot byte : Nat) (ok : Bool)
  /-- RESTORE_CONFIG before the validator, rule R169. -/
  | restoreValidate (ok : Bool)
  /-- RESTORE_CONFIG before its completion, rule R160. -/
  | restoreFinish (ok : Bool)
  /-- SAVE_CONFIG before rule R173. -/
  | savePlace
  /-- SAVE_CONFIG before the header of rule R174. -/
  | saveHeader
  /-- SAVE_CONFIG in rule R174, about to read settings byte `byte`. -/
  | saveRead (byte : Nat)
  /-- SAVE_CONFIG before the padding of rule R174. -/
  | savePad
  /-- SAVE_CONFIG in rule R175. -/
  | saveProgram (step : ProgStep)
  /-- ERASE_CONFIG erasing page `page`, rule R178. -/
  | eraseAll (page : Nat) (step : EraseStep) (ok : Bool)
  /-- ERASE_CONFIG before its metadata reset, rule R178. -/
  | eraseFinish (ok : Bool)
  deriving DecidableEq, Repr

/-- The configuration store's volatile state (rules R22 to R24, R26, R29). -/
structure Store where
  /-- `cfg.pending`. -/
  pending : Bool
  /-- `cfg.anchor`. -/
  anchor : Word32
  /-- `cfg.metaValid`. -/
  metaValid : Bool
  /-- `cfg.curPage`. -/
  curPage : Fin nPages
  /-- `cfg.curIndex`. -/
  curIndex : Fin nPages
  /-- `cfg.nextOffset`. -/
  nextOffset : Nat
  /-- `cfg.page[i]`. -/
  pages : Vector PageDesc nPages
  /-- `CFG_STATUS`. -/
  status : Byte
  /-- `cfg.op`. -/
  op : StoreOp
  /-- `cfg.buf`: absent but from a save's assembly to its end; the bytes assembled so far. -/
  buf : Option (List Byte)
  deriving DecidableEq, Repr

/-- The flash pool's contents: the bytes that are not erased, by pool offset `pos × PAGE_SIZE + off` (rule R41). An
unlisted offset reads as an erased byte (rules R27, R30: "a factory-fresh part is all 0xFF"). -/
abbrev Memory := List Host.Cell

/-- The operation the flash controller is carrying out while it is busy (rules R203, R204). -/
inductive FlashJob where
  | prog (pos off : Nat) (data : List Byte)
  | erase (pos : Nat)
  deriving DecidableEq, Repr

/-- The flash controller and its memory (rules R27, R28). -/
structure Flash where
  mem : Memory
  /-- `flash.locked`. -/
  locked : Bool
  /-- `flash.err`. -/
  err : Bool
  /-- `flash.busy` and what the controller is busy with: busy exactly while a job is here. -/
  job : Option FlashJob
  deriving DecidableEq, Repr

/-- `flash.busy` (rule R28). -/
abbrev Flash.busy (f : Flash) : Bool := f.job.isSome

/-- The command port toward the issuer (rule R60): `cmd_valid` and `cmd` are presented by the environment's schedule. The
rule counts five signals and names these four and no other. DESIGN CHOICE, notes/assumptions/27.md. -/
structure CommandPort where
  /-- `cmd_done`. -/
  done : Bool
  /-- `cmd_result`. -/
  result : Bool
  deriving DecidableEq, Repr

/-- The flash-operation port, driven by the store (rule R65). `fop_busy` and `fop_err` are `Flash.busy` and `Flash.err`.
While `fop_valid` is 0 the other lines keep what was driven last. DESIGN CHOICE, notes/assumptions/28.md. -/
structure FlashPort where
  /-- `fop_valid`. -/
  valid : Bool
  /-- `fop[2:0]`. -/
  word : BitVec 3
  /-- The page position of `fop_addr`. -/
  pos : Nat
  /-- The page offset of `fop_addr`. -/
  off : Nat
  /-- `fop_data`: the bytes last driven, the first at the lowest address; the lines above them are at 0, see `portData`.
  DESIGN CHOICE, notes/assumptions/25.md. -/
  data : List Byte
  deriving DecidableEq, Repr

/-- What the environment of rule R235 can do next. -/
inductive Event where
  /-- Present a word on the command port with these inputs (rule R60). -/
  | command (word : BitVec 4) (inputs : Inputs)
  /-- Let the store command in flight take its next step (rule R226). -/
  | storeStep
  /-- Let the flash controller finish what it is busy with (rule R206). -/
  | flashReady
  /-- The reset event (rule R250). -/
  | reset
  deriving DecidableEq, Repr

/-- The environment (rule R235): its schedule and its draws. When the schedule is empty the flash controller, then the store
command in flight, go on by themselves, and an idle block waits. A draw takes the next value of its tape; when the tape is
empty it is the opaque free value numbered `drawn`, which then counts on. -/
structure Env where
  events : List Event
  errors : List Bool
  bytes : List Byte
  drawn : Nat
  deriving DecidableEq, Repr

structure State where
  /-- `tickCounter` (R12). -/
  tickCounter : Word32
  /-- `lfo[0..2]` (R13). -/
  lfo : Vector Lfo 3
  /-- `lfo[k].btn[rate]` at `2k`, `lfo[k].btn[level]` at `2k+1` (R15). -/
  buttons : Vector Button 6
  /-- `ramp.out`, `swell.out`, `swell.dir` (R16). -/
  envelopes : Envelopes
  /-- Clock detector and ladder (R17, R18). -/
  clock : ClockSync
  /-- Output registers (R19). -/
  out : Outputs
  /-- `settings[0..5]`, which are also the six routing modes (R14, R25). -/
  settings : Vector Byte 6
  /-- Store metadata (R22 to R24, R26, R29). -/
  store : Store
  /-- Flash memory and controller (R27, R28). -/
  flash : Flash
  /-- `cmd_done`, `cmd_result` (R60). -/
  cmd : CommandPort
  /-- Flash-operation port (R65). -/
  fop : FlashPort
  /-- Input ports as the latest commands sampled them (R21, R63). -/
  inputs : Inputs
  /-- Configuration record (R5). -/
  params : Params
  /-- The environment's schedule and draws (R235). -/
  env : Env
  deriving DecidableEq, Repr

/-- Why a machine stops with a fault. The block has no traps (rule R220); the faults are flash reads that break the
precondition of rule R42. No state that a run from reset reaches raises one. -/
inductive Fault where
  /-- A flash read of bytes outside a page of the pool; raised by the snapshot copy of RESTORE_CONFIG. Safe. -/
  | flashReadOutsidePool
  /-- A flash read while `flash.busy`; raised by RESTORE_CONFIG's scan, block search and copy. Safe. -/
  | flashReadWhileBusy
  deriving DecidableEq, Repr

/-- Where the spec says `refuse`: the situation has no meaning and a model must not step. All are safe: the machine stops
where the hardware may go on. -/
inductive Refusal where
  /-- An instruction with no meaning in this model; raised by no meaning. -/
  | notModelled (mnemonic : String)
  /-- A configuration that breaks rule R6; raised before anything is executed. -/
  | badConfiguration
  /-- A reserved command word (rule R64); raised when it is presented. -/
  | reservedCommandWord
  /-- A reserved flash-operation word (rule R64); raised when it is presented. -/
  | reservedFlashWord
  /-- TICK or SAVE_CONFIG before the store metadata exists (rule R252). -/
  | beforeMetadata
  /-- TICK while a RESTORE_CONFIG is in flight (rules R155, R252). -/
  | tickDuringRestore
  /-- RESTORE_CONFIG, SAVE_CONFIG or ERASE_CONFIG while a store command is in flight (rule R262). -/
  | storeCommandInFlight
  /-- TICK with an analog sample above `ADC_MAX` (rule R70). -/
  | sampleOutOfRange
  /-- TICK with a settings byte that is no mode code (rule R68); no run from reset reaches it (rule R31 e). -/
  | illegalModeCode
  /-- A flash operation while `flash.busy` (rule R207). -/
  | flashBusy
  /-- FL_PROG or FL_ERASE while `flash.locked` (rule R207). -/
  | flashLocked
  /-- FL_PROG or FL_ERASE outside the pool, or FL_PROG past the end of its page (rule R207). -/
  | flashOutOfPool
  /-- FL_PROG at an offset that is no multiple of `FLASH_WBLK` (rule R207). -/
  | flashMisaligned
  deriving DecidableEq, Repr

/-- The outcome of a step of this machine. -/
abbrev Result := Host.Outcome State Fault Refusal

/-- Every volatile element at its value of rule R30, over a configuration, the inputs that stand at the ports, an
environment and the flash contents, which survive. The outputs, the store position and the page descriptors have no value
in rule R30: they are given zero, "clean, no index" for the descriptors. DESIGN CHOICE, notes/assumptions/3.md. -/
def State.resetWith (p : Params) (inputs : Inputs) (env : Env) (mem : Memory) : State where
  tickCounter := 0
  lfo := Vector.replicate 3 ⟨0, 0, 0, 0⟩
  buttons := Vector.replicate 6 ⟨0, 0⟩
  envelopes := ⟨0, 0, 1⟩
  clock := ⟨true, 0, 0, false, 0, p.ladder[0]⟩
  out := ⟨Vector.replicate 3 0, Vector.replicate 3 0, 0, 0, 0, 0, 0, 0⟩
  settings := Vector.replicate 6 0
  store := ⟨false, 0, false, 0, 0, 0, Vector.replicate nPages ⟨false, noIndex⟩, 0, .idle, none⟩
  flash := ⟨mem, true, false, none⟩
  cmd := ⟨false, false⟩
  fop := ⟨false, 0, 0, 0, []⟩
  inputs := inputs
  params := p
  env := env

/-- The machine right after reset: factory-fresh flash (rule R30), the reference configuration (rule R5), idle inputs, an
environment that has scheduled and drawn nothing. -/
def State.reset : State :=
  State.resetWith Params.ref (Inputs.idle 0) ⟨[], [], [], 0⟩ []

end Sys2Proof.Machine
end

