-- ==== Sys2Proof/Machine/Ops.lean ====
section
/-! DEFINITION. Ops.lean: the shared operations over memory, flash, registers and the environment: reading and writing bytes
of the pool, the draws, raising an error (rule R220, which is all the block has for an exception; there is no return from
one), completing a command, presenting a flash operation, and the reset event. -/

namespace Sys2Proof.Machine

open Sys2Proof.Config

/-! ### Bytes of the flash pool -/

/-- The byte at a pool offset; an unlisted offset is erased (rule R27). -/
def readByte : Memory → Nat → Byte
  | [], _ => erasedByte
  | c :: m, a => if c.1 = a then c.2 else readByte m a

/-- Put a byte at a pool offset, keeping addresses strictly rising and no erased byte listed. -/
def writeByte : Memory → Nat → Byte → Memory
  | [], a, v => if v = erasedByte then [] else [(a, v)]
  | c :: m, a, v =>
    if a < c.1 then (if v = erasedByte then c :: m else (a, v) :: c :: m)
    else if a = c.1 then (if v = erasedByte then m else (a, v) :: m)
    else c :: writeByte m a v

/-- Put bytes at consecutive pool offsets, lowest first. -/
def writeBytes : Memory → Nat → List Byte → Memory
  | m, _, [] => m
  | m, a, v :: vs => writeBytes (writeByte m a v) (a + 1) vs

/-- The bytes at `n` consecutive pool offsets, lowest first. -/
def readBytes (m : Memory) (a : Nat) : Nat → List Byte
  | 0 => []
  | n + 1 => readByte m a :: readBytes m (a + 1) n

/-- The page a pool offset lies in (rule R49). -/
def pageOf (a : Nat) : Nat := a / pageSize

/-- The pool offset of a pool location `(pos, off)` (rule R41). -/
def poolOffset (pos off : Nat) : Nat := pos * pageSize + off

/-- The flash address of a pool location (rule R41). No rule depends on it. -/
def flashAddress (p : Params) (pos off : Nat) : Nat := p.cfgBase + poolOffset pos off

/-- The platform page number of a pool position (rules R24, R41). No rule depends on it. -/
def platformPage (p : Params) (pos : Nat) : Nat := p.firstPage + pos

/-- Every byte of a page becomes erased (rule R204). -/
def erasePage (m : Memory) (pos : Nat) : Memory := m.filter (fun c => decide (pageOf c.1 ≠ pos))

/-- "dirty flag (contains any non-erased word)", tested byte by byte (rule R162). -/
def pageDirty (m : Memory) (pos : Nat) : Bool :=
  m.any (fun c => decide (pageOf c.1 = pos) && decide (readByte m c.1 ≠ erasedByte))

/-- The canonical form: addresses strictly rising, all of them in the pool, no erased byte listed. -/
abbrev Memory.wf (m : Memory) : Prop :=
  m.Pairwise (fun c d => c.1 < d.1) ∧ ∀ c ∈ m, c.1 < poolBytes ∧ c.2 ≠ erasedByte

/-- Programming clears bits only: old contents AND data, byte by byte from the target's first byte (rule R203). -/
def programmed (m : Memory) (a : Nat) : List Byte → List Byte
  | [] => []
  | d :: ds => (readByte m a &&& d) :: programmed m (a + 1) ds

/-- `FlashRead(pos, off, n)` with its preconditions (rule R42). -/
def flashRead (f : Flash) (pos off n : Nat) : Except Fault (List Byte) :=
  if f.busy then .error .flashReadWhileBusy
  else if nPages ≤ pos ∨ pageSize < off + n then .error .flashReadOutsidePool
  else .ok (readBytes f.mem (poolOffset pos off) n)

/-! ### Draws (00_scope.md, section 5; rule R235) -/

/-- `draw bool`: the next value of the environment's tape, or the opaque free value of this draw's number. -/
def drawError (e : Env) : Bool × Env :=
  match e.errors with
  | b :: bs => (b, { e with errors := bs })
  | [] => (freeError e.drawn, { e with drawn := e.drawn + 1 })

/-- `draw u8`. -/
def drawByte (e : Env) : Byte × Env :=
  match e.bytes with
  | b :: bs => (b, { e with bytes := bs })
  | [] => (freeByte e.drawn, { e with drawn := e.drawn + 1 })

/-- `n` draws of a byte, in order. -/
def drawBytes : Nat → Env → List Byte × Env
  | 0, e => ([], e)
  | n + 1, e =>
    let b := drawByte e
    let bs := drawBytes n b.2
    (b.1 :: bs.1, bs.2)

/-- A draw for every byte of a page. -/
def drawPage (e : Env) : List Byte × Env := drawBytes pageSize e

/-! ### Errors and completion -/

/-- The three causes of rule R220's table that have a status bit. -/
inductive ErrorCause where
  | flashError
  | noFreePage
  | corrupt
  deriving DecidableEq, Repr

/-- The bit of a cause in `CFG_STATUS` (rules R26, R220). -/
def statusMask : ErrorCause → Byte
  | .flashError => 0x01
  | .noFreePage => 0x02
  | .corrupt => 0x04

/-- `raise E`: set the sticky bit of `E` in `CFG_STATUS`, and nothing else (rule R220). -/
def raiseError (e : ErrorCause) (s : State) : State :=
  { s with store := { s.store with status := s.store.status ||| statusMask e } }

/-- Move the store command in flight to another place. -/
def setOp (op : StoreOp) (s : State) : State :=
  { s with store := { s.store with op := op } }

/-- The last step of a multi-step command: no command is in flight, the block buffer is gone (rule R29), `cmd_done` pulses
with the result (rule R62). -/
def complete (result : Bool) (s : State) : State :=
  { s with
    store := { s.store with op := .idle, buf := none }
    cmd := ⟨true, result⟩ }

/-- The start of every step: the `cmd_done` pulse of the step before is over (rule R62). -/
def endPulse (s : State) : State := { s with cmd := { s.cmd with done := false } }

/-- The store drives the flash-operation port (rule R65). -/
def present (word : BitVec 3) (pos off : Nat) (data : List Byte) (s : State) : State :=
  { s with fop := ⟨true, word, pos, off, data⟩ }

/-- The store command in flight is a RESTORE_CONFIG. -/
def StoreOp.isRestore : StoreOp → Bool
  | .restoreFind => true
  | .restoreReclaim _ _ _ => true
  | .restoreErase _ _ _ _ => true
  | .restoreSnapshot _ _ => true
  | .restoreCopy _ _ _ => true
  | .restoreValidate _ => true
  | .restoreFinish _ => true
  | .idle => false
  | .savePlace => false
  | .saveHeader => false
  | .saveRead _ => false
  | .savePad => false
  | .saveProgram _ => false
  | .eraseAll _ _ _ => false
  | .eraseFinish _ => false

/-- Change one page descriptor (rule R24); a position outside the pool has none. -/
def updatePage (i : Nat) (f : PageDesc → PageDesc) (pages : Vector PageDesc nPages) : Vector PageDesc nPages :=
  if h : i < nPages then pages.set i (f pages[i]) else pages

/-! ### Reset -/

/-- The bytes of a flash operation cut by a reset become a draw: the target bytes of a program, the whole page of an erase;
every other byte is as it was (rule R254). -/
def cutFlashJob (f : Flash) (e : Env) : Memory × Env :=
  match f.job with
  | none => (f.mem, e)
  | some (.prog pos off data) =>
    let bs := drawBytes data.length e
    (writeBytes f.mem (poolOffset pos off) bs.1, bs.2)
  | some (.erase pos) =>
    let bs := drawPage e
    (writeBytes f.mem (poolOffset pos 0) bs.1, bs.2)

/-- The reset event: every volatile element takes its reset value, the flash keeps its contents (rules R250, R251). -/
def resetMachine (s : State) : State :=
  let cut := cutFlashJob s.flash s.env
  State.resetWith s.params s.inputs cut.2 cut.1

end Sys2Proof.Machine
end

