-- ==== Sys2Proof/Machine/Operands.lean ====
section
/-! DEFINITION. Operands.lean: how the rules read their operands: the ports of a command (rules R63, R70, R90), the routing
modes in the settings bytes (rules R14, R66), the envelope a mode selects (rule R122), and the bytes of a block (rule R67). -/

namespace Sys2Proof.Machine

open Sys2Proof.Config

/-! ### Port operands -/

/-- The raw rate control of oscillator `k`, `adc[2k]`, as a rational (rule R70). -/
def rateSample (k : Fin 3) (i : Inputs) : Rat := (i.adc[2 * k.val].toNat : Rat)

/-- The raw level control of oscillator `k`, `adc[2k+1]` (rule R70). -/
def levelSample (k : Fin 3) (i : Inputs) : Rat := (i.adc[2 * k.val + 1].toNat : Rat)

/-- A sample divided by `ADC_MAX`, the normalised form of the envelope rules (rule R90). -/
def normalised (a : Sample) : Rat := (a.toNat : Rat) / (adcMax : Rat)

/-- `ρr = adc[6] / ADC_MAX` (rule R90). -/
def rampRate (i : Inputs) : Rat := normalised i.adc[6]

/-- `ℓr = adc[7] / ADC_MAX` (rule R90). -/
def rampLevel (i : Inputs) : Rat := normalised i.adc[7]

/-- `ρs = adc[8] / ADC_MAX` (rule R90). -/
def swellRate (i : Inputs) : Rat := normalised i.adc[8]

/-- `ℓs = adc[9] / ADC_MAX` (rule R90). -/
def swellLevel (i : Inputs) : Rat := normalised i.adc[9]

/-- `g = (gate_n = 0)` (rule R90). -/
def gateActive (i : Inputs) : Bool := !i.gateN

/-- What a command samples of the input ports when it is issued (rule R63): TICK all of them, SCHEDULE_SAVE and SAVE_CONFIG
the millisecond counter, the others nothing. `held` is what the command before it sampled. -/
def sampleInputs (i : Instr) (port held : Inputs) : Inputs :=
  match i with
  | .tick => port
  | .restoreConfig => held
  | .scheduleSave => { held with msNow := port.msNow }
  | .saveConfig _ => { held with msNow := port.msNow }
  | .eraseConfig => held
  | .flUnlock => held
  | .flClrerr => held
  | .flProg => held
  | .flErase => held
  | .flLock => held

/-- The `FLASH_WBLK` bytes that stand on `fop_data` (rule R65): those the store drove, then 0 on the lines it did not drive.
DESIGN CHOICE, notes/assumptions/25.md. -/
def portData (p : Params) (port : FlashPort) : List Byte := (List.range p.wblk).map (fun n => port.data[n]?.getD 0)

/-! ### Routing modes -/

/-- The code of a mode in its settings byte (rule R66). -/
def modeCode : Mode → Byte
  | .none => 0
  | .ramp => 1
  | .swell => 2

/-- The mode of a settings byte; 3 .. 255 are illegal (rule R68). -/
def modeOfCode (b : Byte) : Option Mode :=
  if b = 0 then some .none
  else if b = 1 then some .ramp
  else if b = 2 then some .swell
  else none

/-- `next(m) = (m + 1) mod 3`: NONE, RAMP, SWELL, NONE (rules R66, R141). -/
def nextMode : Mode → Mode
  | .none => .ramp
  | .ramp => .swell
  | .swell => .none

/-- A settings byte the validator of rule R169 accepts. -/
def codeLegal (b : Byte) : Bool := decide (b.toNat ≤ 2)

/-- All six settings bytes are mode codes (rules R31 e, R169). -/
def settingsLegal (v : Vector Byte 6) : Bool := v.toList.all codeLegal

/-- The settings byte of the rate mode of oscillator `k`, `settings[2k]` (rules R14, R25). -/
def rateModeByte (k : Fin 3) (s : State) : Byte := s.settings[2 * k.val]

/-- The settings byte of the level mode of oscillator `k`, `settings[2k+1]` (rules R14, R25). -/
def levelModeByte (k : Fin 3) (s : State) : Byte := s.settings[2 * k.val + 1]

/-- `EnvSel(m)` (rule R122). -/
def envSel (e : Envelopes) : Mode → Rat
  | .none => 1
  | .ramp => e.rampOut
  | .swell => e.swellOut

/-- `EnvSel` of a settings byte. A TICK is refused where the byte is no mode code, so the value 1 given to such a byte here
is used by no executed instruction. -/
def envSelByte (e : Envelopes) (b : Byte) : Rat := envSel e ((modeOfCode b).getD .none)

/-! ### The persisted block -/

/-- `MAGIC`, lowest address first (rules R9, R46). -/
def magic (p : Params) : List Byte := [0x43, 0x46, 0x47, p.cfgVersion]

/-- Four bytes at a pool location equal `MAGIC`, compared in address order (rules R46, R166). -/
def magicAt (p : Params) (m : Memory) (pos off : Nat) : Bool :=
  decide (readBytes m (poolOffset pos off) 4 = magic p)

/-- The data bytes of program unit `unit` of a block buffer (rule R208). -/
def unitBytes (wblk unit : Nat) (buf : List Byte) : List Byte := (buf.drop (unit * wblk)).take wblk

end Sys2Proof.Machine
end

