-- ==== Sys2Proof/Machine/Flags.lean ====
section
/-! DEFINITION. Flags.lean: the conditions and flags of the rules: elapsed times, the clock edge and validity (rules R106,
R107), the pending flag (rules R170, R172), the mode indicators (rule R20). -/

namespace Sys2Proof.Machine

open Sys2Proof.Config

/-- Time from `before` to `now`, modulo 2^32 (rules R82, R107, R172). -/
def elapsed (now before : Word32) : Nat := (now - before).toNat

/-- An edge is a sample of 0 after a sample of 1 (rule R106). -/
def clockEdge (prev clkN : Bool) : Bool := prev && !clkN

/-- More than `SECOND_TICKS` ticks have passed since the last edge (rule R107). -/
def clockTimedOut (p : Params) (tick lastEdge : Word32) : Bool := decide (p.secondTicks < elapsed tick lastEdge)

/-- `ScheduleSave(now)`: set the pending flag and move the anchor (rule R170). -/
def scheduleSave (now : Word32) (s : State) : State :=
  { s with store := { s.store with pending := true, anchor := now } }

/-- The trigger condition of SAVE_CONFIG (rule R172). -/
def saveDue (force : Bool) (now : Word32) (st : Store) : Bool :=
  force || (st.pending && decide (saveDebounceMs ≤ elapsed now st.anchor))

/-- A TICK may run: the metadata exists, no RESTORE_CONFIG is in flight (rules R155, R252), every sample is in range (R70),
every settings byte is a mode code (R31 e). -/
def tickAdmitted (s : State) : Bool :=
  s.store.metaValid && !s.store.op.isRestore && s.inputs.wellFormed && settingsLegal s.settings

/-- The two mode indicator outputs of one axis (rules R20, R142). -/
structure ModeLed where
  rampN : Bool
  swellN : Bool
  deriving DecidableEq, Repr

/-- `ramp_n = 0` iff the mode is RAMP, `swell_n = 0` iff the mode is SWELL (rule R20). -/
def modeLed (code : Byte) : ModeLed :=
  ⟨decide (code ≠ modeCode .ramp), decide (code ≠ modeCode .swell)⟩

/-- `MLED[k][rate]`: a function of the mode at every instant (rule R20). -/
def rateLed (k : Fin 3) (s : State) : ModeLed := modeLed (rateModeByte k s)

/-- `MLED[k][level]` (rule R20). -/
def levelLed (k : Fin 3) (s : State) : ModeLed := modeLed (levelModeByte k s)

end Sys2Proof.Machine
end

