-- ==== Sys2Proof/Machine/FlashController.lean ====
section
/-! DEFINITION. FlashController.lean: the five flash operations (spec/47_flash_controller.md). FL_PROG and FL_ERASE make the
controller busy with a job (`flash.busy <- true`); the job's effect on the pool, its error draw and the fall of
`flash.busy` are `flashSettle`, which happens after a finite, unspecified time (rule R206) and before which TICKs and a
reset may fall (rules R200, R254). -/

namespace Sys2Proof.Machine

open Sys2Proof.Config

/-- Replace the controller's state and memory. -/
def setFlash (f : Flash) (s : State) : State := { s with flash := f }

/-- A program operation ends: it draws whether it failed. Without error each target byte becomes the AND of its old value
and the data byte; with error the target bytes are a draw and `flash.err` is set. `flash.busy` falls (rule R203). -/
def settleProgram (pos off : Nat) (data : List Byte) (s : State) : State :=
  let failed := drawError s.env
  let a := poolOffset pos off
  if failed.1 then
    let bs := drawBytes data.length failed.2
    { s with flash := ⟨writeBytes s.flash.mem a bs.1, s.flash.locked, true, none⟩, env := bs.2 }
  else
    { s with
      flash := ⟨writeBytes s.flash.mem a (programmed s.flash.mem a data), s.flash.locked, s.flash.err, none⟩
      env := failed.2 }

/-- An erase operation ends: it draws whether it failed. Without error every byte of the page is erased; with error every
byte of the page is a draw and `flash.err` is set. `flash.busy` falls (rule R204). -/
def settleErase (pos : Nat) (s : State) : State :=
  let failed := drawError s.env
  if failed.1 then
    let bs := drawPage failed.2
    { s with flash := ⟨writeBytes s.flash.mem (poolOffset pos 0) bs.1, s.flash.locked, true, none⟩, env := bs.2 }
  else
    { s with flash := ⟨erasePage s.flash.mem pos, s.flash.locked, s.flash.err, none⟩, env := failed.2 }

/-- The controller finishes the job it is busy with (rules R203, R204, R206). A controller that is not busy does nothing. -/
def flashSettle (s : State) : State :=
  match s.flash.job with
  | none => s
  | some (.prog pos off data) => settleProgram pos off data s
  | some (.erase pos) => settleErase pos s

/-- FL_UNLOCK (rule R201): `flash.locked <- false`. Refused while busy (rule R207). -/
def execFlUnlock (s : State) : Result :=
  if s.flash.busy then .refused .flashBusy
  else .next (setFlash { s.flash with locked := false } s)

/-- FL_CLRERR (rule R202): `flash.err <- false`. Refused while busy (rule R207). -/
def execFlClrerr (s : State) : Result :=
  if s.flash.busy then .refused .flashBusy
  else .next (setFlash { s.flash with err := false } s)

/-- FL_PROG (rules R203, R207): the controller becomes busy programming the port's data at the port's location. -/
def execFlProg (s : State) : Result :=
  if s.flash.busy then .refused .flashBusy
  else if s.flash.locked then .refused .flashLocked
  else if s.fop.off % s.params.wblk ≠ 0 then .refused .flashMisaligned
  else if nPages ≤ s.fop.pos ∨ pageSize < s.fop.off + s.params.wblk then .refused .flashOutOfPool
  else .next (setFlash { s.flash with job := some (.prog s.fop.pos s.fop.off (portData s.params s.fop)) } s)

/-- FL_ERASE (rules R204, R207): the controller becomes busy erasing the port's page; the port's offset is ignored. -/
def execFlErase (s : State) : Result :=
  if s.flash.busy then .refused .flashBusy
  else if s.flash.locked then .refused .flashLocked
  else if nPages ≤ s.fop.pos then .refused .flashOutOfPool
  else .next (setFlash { s.flash with job := some (.erase s.fop.pos) } s)

/-- FL_LOCK (rule R205): `flash.locked <- true`; the error flag stays. Refused while busy (rule R207). -/
def execFlLock (s : State) : Result :=
  if s.flash.busy then .refused .flashBusy
  else .next (setFlash { s.flash with locked := true } s)

end Sys2Proof.Machine
end

