-- ==== Sys2Proof/Machine/FlashSequence.lean ====
section
/-! DEFINITION. FlashSequence.lean: `EraseSeq` (rule R209) and `ProgramSeq` (rule R208) as the store walks them, one flash
operation or one poll a step. A step that issues an operation drives the flash-operation port; the machine then executes
that word before anything else happens. The last place, `done`, is the command's own book-keeping. -/

namespace Sys2Proof.Machine

open Sys2Proof.Config

/-- The word the store presents for a flash operation (rule R65). A command has no word on this port; 111 is reserved. -/
def flashWord (i : Instr) : BitVec 3 :=
  match encode i with
  | .fop w => w
  | .cmd _ => 0b111#3

/-- One step of `EraseSeq(pos)`; `at_` says where in the store command the sequence stands. An operation without operands is
issued at location (0, 0) with all data lines 0, FL_ERASE at offset 0 likewise: rule R65 leaves these operands open and no
operation reads them. DESIGN CHOICE, notes/assumptions/25.md. -/
def eraseSeqStep (pos : Nat) (at_ : EraseStep → StoreOp) : EraseStep → State → State
  | .unlock, s => present (flashWord .flUnlock) 0 0 [] (setOp (at_ .clearErr) s)
  | .clearErr, s => present (flashWord .flClrerr) 0 0 [] (setOp (at_ .erase) s)
  | .erase, s => present (flashWord .flErase) pos 0 [] (setOp (at_ .poll) s)
  | .poll, s => if s.flash.busy then s else setOp (at_ (.lock (!s.flash.err))) s
  | .lock ok, s => present (flashWord .flLock) 0 0 [] (setOp (at_ (.done ok)) s)
  | .done _, s => s

/-- Program operations of one block, `BLK / FLASH_WBLK` (rule R208). -/
def unitCount (p : Params) : Nat := blk / p.wblk

/-- One step of `ProgramSeq(pos, off, buf)`. The operations without operands are issued as in `eraseSeqStep`. DESIGN CHOICE,
notes/assumptions/25.md. -/
def programSeqStep (pos off : Nat) (buf : List Byte) (at_ : ProgStep → StoreOp) : ProgStep → State → State
  | .unlock, s => present (flashWord .flUnlock) 0 0 [] (setOp (at_ .clearErr) s)
  | .clearErr, s => present (flashWord .flClrerr) 0 0 [] (setOp (at_ (.prog 0)) s)
  | .prog u, s =>
    present (flashWord .flProg) pos (off + u * s.params.wblk) (unitBytes s.params.wblk u buf) (setOp (at_ (.poll u)) s)
  | .poll u, s =>
    if s.flash.busy then s
    else if s.flash.err then setOp (at_ (.lock false)) s
    else if u + 1 < unitCount s.params then setOp (at_ (.prog (u + 1))) s
    else setOp (at_ (.lock true)) s
  | .lock ok, s => present (flashWord .flLock) 0 0 [] (setOp (at_ (.done ok)) s)
  | .done _, s => s

end Sys2Proof.Machine
end

