-- ==== Sys2Proof/Machine/EraseConfig.lean ====
section
/-! DEFINITION. EraseConfig.lean: ERASE_CONFIG (spec/46_config_store.md, rule R178). -/

namespace Sys2Proof.Machine

open Sys2Proof.Config

/-- ERASE_CONFIG (rule R178): the step that takes it puts the store at the erase of pool position 0. -/
def execEraseConfig (s : State) : Result :=
  if s.store.op ≠ .idle then .refused .storeCommandInFlight
  else .next (setOp (.eraseAll 0 .unlock true) s)

/-- After the erase of one page: a failure raises FlashError and the remaining pages are still erased (rule R178). -/
def pageErased (i : Nat) (erased ok : Bool) (s : State) : State :=
  let s1 := setOp (if i + 1 < nPages then .eraseAll (i + 1) .unlock (ok && erased) else .eraseFinish (ok && erased)) s
  if erased then s1 else raiseError .flashError s1

/-- The metadata reset and the completion (rule R178). -/
def eraseFinishStep (ok : Bool) (s : State) : State :=
  complete ok { s with
    store := { s.store with
      pages := Vector.replicate nPages ⟨false, noIndex⟩
      curPage := 0
      curIndex := 0
      nextOffset := 0
      metaValid := true } }

end Sys2Proof.Machine
end

