-- ==== Sys2Proof/Machine/Restore.lean ====
section
/-! DEFINITION. Restore.lean: RESTORE_CONFIG (spec/46_config_store.md, rules R160 to R169). -/

namespace Sys2Proof.Machine

open Sys2Proof.Config

/-- The descriptor step 1 gives a page (rule R162): an index byte of `NPAGES` or more counts as no header (rule R68). -/
def scanPage (p : Params) (m : Memory) (pos : Nat) : PageDesc where
  dirty := pageDirty m pos
  index :=
    let x := readByte m (poolOffset pos 4)
    if magicAt p m pos 0 ∧ x.toNat < nPages then x else noIndex

/-- Step 1: scan every page of the pool (rule R162). -/
def scanPages (p : Params) (m : Memory) : Vector PageDesc nPages := Vector.ofFn (fun i => scanPage p m i.val)

/-- Some page has this rotating index (rule R163). -/
def indexPresent (pages : Vector PageDesc nPages) (e : Nat) : Bool :=
  pages.toList.any (fun d => decide (d.index ≠ noIndex) && decide (d.index.toNat = e))

/-- Follow the run of consecutive present indices upward from `e` (rule R163). -/
def runEnd (pages : Vector PageDesc nPages) : Nat → Nat → Nat
  | 0, e => e
  | fuel + 1, e => if e + 1 < nPages ∧ indexPresent pages (e + 1) then runEnd pages fuel (e + 1) else e

/-- The end of the run from the smallest index present; none when no page has a header (rule R163). -/
def currentIndex (pages : Vector PageDesc nPages) : Option Nat :=
  ((List.range nPages).find? (indexPresent pages)).map (runEnd pages nPages)

/-- The lowest position whose page has index `e` (rule R163). -/
def pageWithIndex (pages : Vector PageDesc nPages) (e : Nat) : Option (Fin nPages) :=
  (List.finRange nPages).find? (fun i => decide (pages[i].index.toNat = e))

/-- Step 2: find the current page (rule R163). -/
def restoreFindStep (s : State) : State :=
  match currentIndex s.store.pages with
  | none =>
    { s with store := { s.store with curPage := 0, curIndex := 0, op := .restoreReclaim 0 true false } }
  | some e =>
    { s with
      store := { s.store with
        curPage := (pageWithIndex s.store.pages e).getD 0
        curIndex := Fin.ofNat nPages e
        op := .restoreReclaim 0 true true } }

/-- The page is erased by step 3: dirty, and not the current page or without a header (rule R165). -/
def reclaimable (st : Store) (i : Fin nPages) : Bool :=
  st.pages[i].dirty && (decide (i ≠ st.curPage) || decide (st.pages[i].index = noIndex))

/-- Step 3, one turn of its loop (rule R165). -/
def restoreReclaimStep (i : Nat) (ok found : Bool) (s : State) : State :=
  if h : i < nPages then
    if reclaimable s.store ⟨i, h⟩ then setOp (.restoreErase i .unlock ok found) s
    else setOp (.restoreReclaim (i + 1) ok found) s
  else setOp (.restoreSnapshot ok found) s

/-- After one erase of step 3: the page has no index; it is clean, or it stays dirty and FlashError is raised (R165). -/
def reclaimed (i : Nat) (erased ok found : Bool) (s : State) : State :=
  let s1 := { s with
    store := { s.store with
      pages := updatePage i (fun d => ⟨if erased then false else d.dirty, noIndex⟩) s.store.pages
      op := .restoreReclaim (i + 1) (ok && erased) found } }
  if erased then s1 else raiseError .flashError s1

/-- Step 4's scan: advance while the next block of the page has the magic (rule R166). -/
def lastBlock (p : Params) (m : Memory) (pos : Nat) : Nat → Nat → Nat
  | 0, o => o
  | fuel + 1, o =>
    if o + 2 * blk ≤ pageSize ∧ magicAt p m pos (o + blk) then lastBlock p m pos fuel (o + blk) else o

/-- Step 4: find the active snapshot and the next write offset (rule R166). -/
def restoreSnapshotStep (ok found : Bool) (s : State) : State :=
  if found then
    let o := lastBlock s.params s.flash.mem s.store.curPage.val blocksPerPage 0
    { s with store := { s.store with nextOffset := o + blk, op := .restoreCopy o 0 ok } }
  else { s with store := { s.store with nextOffset := 0, op := .restoreFinish ok } }

/-- Step 5, one byte: `MemWrite(n, 1, flash.mem[cfg.curPage][snapshot + 5 + n])` (rules R44, R168). -/
def restoreCopyStep (snapshot n : Nat) (ok : Bool) (s : State) : Result :=
  if h : n < 6 then
    match flashRead s.flash s.store.curPage.val (snapshot + hdrSize + n) 1 with
    | .ok bs =>
      .next (setOp (if n + 1 < 6 then .restoreCopy snapshot (n + 1) ok else .restoreValidate ok)
        { s with settings := s.settings.set n (bs.headD erasedByte) })
    | .error f => .fault f
  else .next (setOp (.restoreValidate ok) s)

/-- `Validate()`: reject the whole structure when any byte is no mode code (rule R169). -/
def validate (s : State) : State :=
  if settingsLegal s.settings then s
  else raiseError .corrupt { s with settings := Vector.replicate 6 0 }

/-- The end: the metadata exists; the result says whether every erase succeeded (rule R160). -/
def restoreFinishStep (ok : Bool) (s : State) : State :=
  complete ok { s with store := { s.store with metaValid := true } }

/-- RESTORE_CONFIG (rule R160): the step that takes it is step 1, the scan (rule R162). -/
def execRestoreConfig (s : State) : Result :=
  if s.store.op ≠ .idle then .refused .storeCommandInFlight
  else if s.flash.busy then .fault .flashReadWhileBusy
  else .next { s with store := { s.store with pages := scanPages s.params s.flash.mem, op := .restoreFind } }

end Sys2Proof.Machine
end

