-- ==== Sys2Proof/Machine/Save.lean ====
section
/-! DEFINITION. Save.lean: SCHEDULE_SAVE (rule R170) and SAVE_CONFIG (rules R171 to R175) of spec/46_config_store.md. -/

namespace Sys2Proof.Machine

open Sys2Proof.Config

/-- SCHEDULE_SAVE (rule R170): one step, allowed at any time; `cmd_result` reads 1 (rule R62). -/
def execScheduleSave (s : State) : Result :=
  let t := scheduleSave s.inputs.msNow s
  .next { t with cmd := { t.cmd with result := true } }

/-- SAVE_CONFIG (rule R171): the step that takes it is step 1 (rule R172). Not due, it completes at once with result 1 and
changes nothing; due, the pending flag falls and the save begins. -/
def execSaveConfig (force : Bool) (s : State) : Result :=
  if s.store.op ≠ .idle then .refused .storeCommandInFlight
  else if ¬s.store.metaValid then .refused .beforeMetadata
  else if saveDue force s.inputs.msNow s.store then
    .next { s with store := { s.store with pending := false, op := .savePlace } }
  else .next (complete true s)

/-- The pool positions after the current one, cyclically (rule R173). -/
def searchOrder (cur : Fin nPages) : List (Fin nPages) :=
  (List.range (nPages - 1)).map (fun n => Fin.ofNat nPages (cur.val + 1 + n))

/-- The first page after the current one that is not dirty (rule R173). -/
def freePage (st : Store) : Option (Fin nPages) := (searchOrder st.curPage).find? (fun j => !st.pages[j].dirty)

/-- Step 2: place and rotation (rule R173). -/
def savePlaceStep (s : State) : State :=
  if pageSize < s.store.nextOffset + blk then
    match freePage s.store with
    | none => complete false (raiseError .noFreePage s)
    | some j =>
      { s with
        store := { s.store with
          curPage := j
          curIndex := Fin.ofNat nPages (s.store.curIndex.val + 1)
          nextOffset := 0
          op := .saveHeader } }
  else setOp .saveHeader s

/-- Step 3, the magic and the index (rule R174). -/
def saveHeaderStep (s : State) : State :=
  { s with
    store := { s.store with
      buf := some (magic s.params ++ [BitVec.ofNat 8 s.store.curIndex.val])
      op := .saveRead 0 } }

/-- Append bytes to the block buffer. -/
def appendBuf (bs : List Byte) (st : Store) : Store := { st with buf := some (st.buf.getD [] ++ bs) }

/-- Step 3, one read of the live settings: `cfg.buf[5 + n] <- MemRead(n, 1)` (rules R44, R174, R256). -/
def saveReadStep (n : Nat) (s : State) : State :=
  if h : n < 6 then
    setOp (if n + 1 < 6 then .saveRead (n + 1) else .savePad) { s with store := appendBuf [s.settings[n]] s.store }
  else setOp .savePad s

/-- Step 3, the padding: a draw for every byte up to `BLK` (rules R69, R174). -/
def savePadStep (s : State) : State :=
  let bs := drawBytes (blk - (hdrSize + settingsSize)) s.env
  { s with store := { appendBuf bs.1 s.store with op := .saveProgram .unlock }, env := bs.2 }

/-- Step 4's book-keeping: the page is dirty whether or not the sequence succeeded; on success it carries the current index
and the offset advances; on failure FlashError is raised and the offset stays (rule R175). -/
def saveProgramDone (ok : Bool) (s : State) : State :=
  if ok then
    complete true { s with
      store := { s.store with
        pages := s.store.pages.set s.store.curPage ⟨true, BitVec.ofNat 8 s.store.curIndex.val⟩
        nextOffset := s.store.nextOffset + blk } }
  else
    complete false (raiseError .flashError { s with
      store := { s.store with pages := s.store.pages.set s.store.curPage ⟨true, s.store.pages[s.store.curPage].index⟩ } })

end Sys2Proof.Machine
end

