-- ==== Sys2Proof/Machine/Sequencer.lean ====
section
/-! DEFINITION. Sequencer.lean: one step of the store command in flight (rules R29, R226, R229, R235). -/

namespace Sys2Proof.Machine

open Sys2Proof.Config

/-- The store sequencer takes its next step: one numbered step of spec/46_config_store.md, one flash operation, one poll, or
one settings byte (rule R226). With no command in flight it does nothing. -/
def storeStep (s : State) : Result :=
  match s.store.op with
  | .idle => .next s
  | .restoreFind => .next (restoreFindStep s)
  | .restoreReclaim i ok found => .next (restoreReclaimStep i ok found s)
  | .restoreErase i (.done erased) ok found => .next (reclaimed i erased ok found s)
  | .restoreErase i p ok found => .next (eraseSeqStep i (fun q => .restoreErase i q ok found) p s)
  | .restoreSnapshot ok found =>
    if s.flash.busy then .fault .flashReadWhileBusy else .next (restoreSnapshotStep ok found s)
  | .restoreCopy snapshot n ok => restoreCopyStep snapshot n ok s
  | .restoreValidate ok => .next (setOp (.restoreFinish ok) (validate s))
  | .restoreFinish ok => .next (restoreFinishStep ok s)
  | .savePlace => .next (savePlaceStep s)
  | .saveHeader => .next (saveHeaderStep s)
  | .saveRead n => .next (saveReadStep n s)
  | .savePad => .next (savePadStep s)
  | .saveProgram (.done ok) => .next (saveProgramDone ok s)
  | .saveProgram p =>
    .next (programSeqStep s.store.curPage.val s.store.nextOffset (s.store.buf.getD []) .saveProgram p s)
  | .eraseAll i (.done erased) ok => .next (pageErased i erased ok s)
  | .eraseAll i p ok => .next (eraseSeqStep i (fun q => .eraseAll i q ok) p s)
  | .eraseFinish ok => .next (eraseFinishStep ok s)

end Sys2Proof.Machine
end

