-- ==== Sys2Proof/Machine/Buttons.lean ====
section
/-! DEFINITION. Buttons.lean: the debounced buttons (spec/40_buttons.md) and the routing-mode state machine they drive
(spec/44_routing.md). Button `2k` is the rate button of oscillator `k`, `2k+1` its level button (rules R70, R80), and the
settings byte of the same number is the mode it cycles (rule R25). -/

namespace Sys2Proof.Machine

open Sys2Proof.Config

/-- `Pressed(b, pin_n, now)`: the button's new state and whether a press is reported (rule R82). -/
def pressed (b : Button) (pinN : Bool) (now : Word32) : Button × Bool :=
  if pinN ∧ b.down ≠ 0 ∧ debounceMs < elapsed now b.down then (⟨0, now⟩, false)
  else if ¬pinN ∧ b.down = 0 ∧ debounceMs < elapsed now b.up then (⟨now, b.up⟩, true)
  else (b, false)

/-- The settings byte after one transition of its mode (rules R66, R141). A byte that is no mode code is left alone; a TICK
is refused where there is one. -/
def nextCode (b : Byte) : Byte :=
  match modeOfCode b with
  | some m => modeCode (nextMode m)
  | none => b

/-- `RouteStep(k, a, p, now)` for the axis with settings byte `j` (rule R141). -/
def routeStep (j : Fin 6) (p : Bool) (now : Word32) (s : State) : State :=
  if p then scheduleSave now { s with settings := s.settings.set j (nextCode s.settings[j]) } else s

/-- One turn of the polling loop of rule R151: the button's `Pressed`, then its `RouteStep`. -/
def pollButton (j : Fin 6) (s : State) : State :=
  let r := pressed s.buttons[j] s.inputs.btnN[j] s.inputs.msNow
  routeStep j r.2 s.inputs.msNow { s with buttons := s.buttons.set j r.1 }

/-- Phase 1 of a tick: all six buttons, oscillator by oscillator, rate before level (rule R151). -/
def pollButtons (s : State) : State :=
  pollButton 5 (pollButton 4 (pollButton 3 (pollButton 2 (pollButton 1 (pollButton 0 s)))))

end Sys2Proof.Machine
end

