-- ==== Sys2Proof/Machine/ClockLadder.lean ====
section
/-! DEFINITION. ClockLadder.lean: the clock-period detector and the hysteresis multiplier ladder (spec/42_clock_sync.md). -/

namespace Sys2Proof.Machine

open Sys2Proof.Config

/-- `ClockDetect(clk_n)` and `Timeout()` at tick `tick` (rules R106, R107). -/
def clockDetect (p : Params) (tick : Word32) (clkN : Bool) (c : ClockSync) : ClockSync :=
  if clockEdge c.prev clkN then
    { c with
      prev := clkN
      interval := tick - c.lastEdge
      lastEdge := tick
      valid := decide (tick - c.lastEdge ≠ 0) }
  else
    { c with prev := clkN, valid := c.valid && !clockTimedOut p tick c.lastEdge }

/-- Phase 2 of a tick (rule R151). -/
def clockPhase (s : State) : State :=
  { s with clock := clockDetect s.params s.tickCounter s.inputs.clkN s.clock }

/-- `Band(v)`: the number of thresholds `T` with `v >= T` (rule R110). -/
def band (v : Rat) : Nat := thresholds.countP (fun t => decide (t ≤ v))

/-- `LADDER[b]` (rule R110); a band is 0 .. 5. -/
def ladderAt (p : Params) (b : Nat) : Rat := p.ladder[b]?.getD 0

/-- `LadderUpdate(V)`: adopt a candidate that differs by more than the margin (rule R111). -/
def ladderUpdate (p : Params) (v : Rat) (c : ClockSync) : ClockSync :=
  if hystMargin < |v - c.hyst| then { c with hyst := v, mult := ladderAt p (band v) } else c

/-- The clock-synchronised increment, `floor(clkMult × 2^32 / clkInterval) mod 2^32` (rule R112). -/
def clockIncrement (c : ClockSync) : Word32 := BitVec.ofInt 32 ⌊c.mult * 2 ^ 32 / (c.interval.toNat : Rat)⌋

/-- The free-running increment, `floor(K_FREE × r × r) mod 2^32` (rule R124). -/
def freeIncrement (p : Params) (r : Rat) : Word32 := BitVec.ofInt 32 ⌊p.kFree * r * r⌋

end Sys2Proof.Machine
end

