-- ==== Sys2Proof/Machine/Envelope.lean ====
section
/-! DEFINITION. Envelope.lean: the ramp and swell integrators and their outputs (spec/41_envelopes.md). -/

namespace Sys2Proof.Machine

open Sys2Proof.Config

/-- An output code: the floor of the exact value, on 12 bits (rules R96, R129, R130). Rules R97 and R131 keep the value in
0 .. 4095; a value outside is reduced modulo 2^12. DESIGN CHOICE, notes/assumptions/9.md. -/
def outputCode (q : Rat) : Code := BitVec.ofInt 12 ⌊q⌋

/-- The common release: `max(out - RELEASE_INC, 0)` (rule R95). -/
def release (p : Params) (out : Rat) : Rat := max (out - p.releaseInc) 0

/-- `RampStep(g, ρr, ℓr)` (rule R91). -/
def rampStep (p : Params) (g : Bool) (rate level out : Rat) : Rat :=
  if g then min (out + p.rampInc * level * rate) level else release p out

/-- `SwellStep(g, ρs, ℓs)`: the new output and direction (rule R93). -/
def swellStep (p : Params) (g : Bool) (rate level out dir : Rat) : Rat × Rat :=
  if g then
    if 0 < dir then
      if level ≤ out + p.swellInc * level * rate * dir then (level, -p.swellFall)
      else (out + p.swellInc * level * rate * dir, dir)
    else (max (out + p.swellInc * level * rate * dir) 0, dir)
  else (release p out, 1)

/-- Both envelopes of one tick, the ramp first (rule R151). -/
def stepEnvelopes (p : Params) (i : Inputs) (e : Envelopes) : Envelopes :=
  let w := swellStep p (gateActive i) (swellRate i) (swellLevel i) e.swellOut e.swellDir
  ⟨rampStep p (gateActive i) (rampRate i) (rampLevel i) e.rampOut, w.1, w.2⟩

/-- `EnvOutputs()`: the ramp LED squared, the others linear (rule R96). -/
def envOutputs (e : Envelopes) (o : Outputs) : Outputs :=
  { o with
    rampDac := outputCode (e.rampOut * dacMax)
    rampLed := outputCode (e.rampOut * e.rampOut * dacMax)
    swellDac := outputCode (e.swellOut * dacMax)
    swellLed := outputCode (e.swellOut * dacMax) }

/-- Phase 3 of a tick (rule R151). -/
def envelopePhase (s : State) : State :=
  let e := stepEnvelopes s.params s.inputs s.envelopes
  { s with envelopes := e, out := envOutputs e s.out }

end Sys2Proof.Machine
end

