-- ==== Sys2Proof/Machine/Oscillator.lean ====
section
/-! DEFINITION. Oscillator.lean: the LFO step with FM chaining and envelope-scaled output (spec/43_lfo.md). `lfoStep` is
`LfoStep(k)` of rule R120, its six numbered steps in the spec's order, each a definition of its own. -/

namespace Sys2Proof.Machine

open Sys2Proof.Config

/-- `SIN`: total, a function of the phase alone, with values in [-1, 1] (rule R7). The unit's raw answer is unknown; its
range is imposed here. -/
def sin (phase : Word32) : Rat := max (-1) (min 1 (sinRaw phase))

/-- Replace the registers of one oscillator. -/
def updateLfo (k : Fin 3) (f : Lfo → Lfo) (s : State) : State :=
  { s with lfo := s.lfo.set k (f s.lfo[k]) }

/-- The output level, `level × 1/2 × EnvSel(levelMode)` (rule R122). -/
def outputLevel (k : Fin 3) (s : State) : Rat :=
  levelSample k s.inputs * levelHalf * envSelByte s.envelopes (levelModeByte k s)

/-- The effective rate, `rate × EnvSel(rateMode)`, which is also the ladder's candidate (rules R109, R123). -/
def effectiveRate (k : Fin 3) (s : State) : Rat :=
  rateSample k s.inputs * envSelByte s.envelopes (rateModeByte k s)

/-- Oscillator 0 takes the clock-synchronised branch exactly when the clock is valid; the others never do (rule R123). -/
def clockBranch (k : Fin 3) (s : State) : Bool := decide (k = 0) && s.clock.valid

/-- The ladder update that precedes the increment in the clock-synchronised branch (rule R125). -/
def ladderPhase (k : Fin 3) (s : State) : State :=
  if clockBranch k s then { s with clock := ladderUpdate s.params (effectiveRate k s) s.clock } else s

/-- The phase increment (rules R112, R123, R124). -/
def phaseIncrement (k : Fin 3) (s : State) : Word32 :=
  if clockBranch k s then clockIncrement s.clock else freeIncrement s.params (effectiveRate k s)

/-- The FM source of oscillator 1 is oscillator 0's sine, of oscillator 2 oscillator 1's FM output (rule R128). -/
def fmSource (k : Fin 3) (s : State) : Rat := if k = 1 then s.lfo[0].sine else s.lfo[1].fm

/-- The output level of the upstream oscillator `k - 1` (rule R128). -/
def upstreamLevel (k : Fin 3) (s : State) : Rat := if k = 1 then s.lfo[0].outLevel else s.lfo[1].outLevel

/-- The FM offset, source × upstream level × 2^18 (rule R128). -/
def fmOffset (k : Fin 3) (s : State) : Rat := fmSource k s * upstreamLevel k s * fmScale

/-- One correction by 2^32 in either direction (rules R120, R128). -/
def wrapPosition (pos : Rat) : Rat :=
  let up := if pos < 0 then pos + 2 ^ 32 else pos
  if 2 ^ 32 ≤ up then up - 2 ^ 32 else up

/-- The integer position handed to `SIN` (rule R128); the accumulator itself is not changed (rule R126). -/
def fmPosition (phase : Word32) (off : Rat) : Word32 := BitVec.ofInt 32 ⌊wrapPosition ((phase.toNat : Rat) + off)⌋

/-- `(x + 1) × outLevel` as an output code (rules R129, R130). -/
def bipolarCode (x level : Rat) : Code := outputCode ((x + 1) * level)

/-- Write the FM DAC of oscillator `k`; oscillator 0 has none (rules R19, R129). -/
def writeFmDac (k : Fin 3) (c : Code) (o : Outputs) : Outputs :=
  if k = 1 then { o with fmDac1 := c } else if k = 2 then { o with fmDac2 := c } else o

/-- Step 1 of rule R120. -/
def lfoLevel (k : Fin 3) (s : State) : State :=
  updateLfo k (fun l => { l with outLevel := outputLevel k s }) s

/-- Steps 2 and 3 of rule R120: the ladder where the clock rules, the increment, the advance modulo 2^32 (rule R126). -/
def lfoAdvance (k : Fin 3) (s : State) : State :=
  let s1 := ladderPhase k s
  updateLfo k (fun l => { l with phase := l.phase + phaseIncrement k s1 }) s1

/-- Step 4 of rule R120 (rule R127). -/
def lfoSine (k : Fin 3) (s : State) : State :=
  updateLfo k (fun l => { l with sine := sin l.phase }) s

/-- Step 5 of rule R120, oscillators 1 and 2 only (rules R128, R129). -/
def lfoFm (k : Fin 3) (s : State) : State :=
  if k = 0 then s
  else
    let fm := sin (fmPosition s.lfo[k].phase (fmOffset k s))
    let s1 := updateLfo k (fun l => { l with fm := fm }) s
    { s1 with out := writeFmDac k (bipolarCode fm s1.lfo[k].outLevel) s1.out }

/-- Step 6 of rule R120 (rule R130). -/
def lfoOutput (k : Fin 3) (s : State) : State :=
  let c := bipolarCode s.lfo[k].sine s.lfo[k].outLevel
  { s with out := { s.out with dac := s.out.dac.set k c, led := s.out.led.set k c } }

/-- `LfoStep(k)` (rule R120). -/
def lfoStep (k : Fin 3) (s : State) : State :=
  lfoOutput k (lfoFm k (lfoSine k (lfoAdvance k (lfoLevel k s))))

end Sys2Proof.Machine
end

