-- ==== Sys2Proof/Machine/Tick.lean ====
section
/-! DEFINITION. Tick.lean: the TICK command (spec/45_tick.md). -/

namespace Sys2Proof.Machine

open Sys2Proof.Config

/-- The first action of a tick (rules R12, R151). -/
def countTick (s : State) : State := { s with tickCounter := s.tickCounter + 1 }

/-- Phases 4 and 5 of a tick: the oscillators in routing order (rule R151). -/
def lfoPhase (s : State) : State := lfoStep 2 (lfoStep 1 (lfoStep 0 s))

/-- All of a tick, in the order of rule R151. -/
def tickEngine (s : State) : State :=
  lfoPhase (envelopePhase (clockPhase (pollButtons (countTick s))))

/-- TICK (rule R150). It completes in the step that takes it; `cmd_result` reads 1 (rule R62). -/
def execTick (s : State) : Result :=
  if s.store.op.isRestore then .refused .tickDuringRestore
  else if ¬s.store.metaValid then .refused .beforeMetadata
  else if ¬s.inputs.wellFormed then .refused .sampleOutOfRange
  else if ¬settingsLegal s.settings then .refused .illegalModeCode
  else
    let t := tickEngine s
    .next { t with cmd := { t.cmd with result := true } }

end Sys2Proof.Machine
end

