-- ==== Sys2Proof/Machine/Dispatch.lean ====
section
/-! DEFINITION. Dispatch.lean: one arm per instruction. -/

namespace Sys2Proof.Machine

def exec (i : Instr) (s : State) : Host.Outcome State Fault Refusal :=
  match i with
  | .tick => Sys2Proof.Machine.execTick s
  | .restoreConfig => Sys2Proof.Machine.execRestoreConfig s
  | .scheduleSave => Sys2Proof.Machine.execScheduleSave s
  | .saveConfig force => Sys2Proof.Machine.execSaveConfig force s
  | .eraseConfig => Sys2Proof.Machine.execEraseConfig s
  | .flUnlock => Sys2Proof.Machine.execFlUnlock s
  | .flClrerr => Sys2Proof.Machine.execFlClrerr s
  | .flProg => Sys2Proof.Machine.execFlProg s
  | .flErase => Sys2Proof.Machine.execFlErase s
  | .flLock => Sys2Proof.Machine.execFlLock s

end Sys2Proof.Machine
end

