-- ==== Sys2Proof/Machine/Fetch.lean ====
section
/-! DEFINITION. Fetch.lean: where the next instruction comes from. There is no program counter and no instruction memory
(rule R11): a word comes from the command port when the environment presents one (rule R60), or from the flash-operation
port when the store drives it (rule R65). -/

namespace Sys2Proof.Machine

open Sys2Proof.Config

/-- What the start of a step finds: an instruction to execute and the state it executes in, or an outcome without one. -/
inductive Fetch where
  | run (i : Instr) (s : State)
  | settled (r : Result)

/-- Take the word the store presents on the flash-operation port (rule R65): `fop_valid` falls, the other lines keep what was
driven. DESIGN CHOICE, notes/assumptions/28.md. -/
def fetchFlashPort (s : State) : Fetch :=
  match decode (.fop s.fop.word) with
  | .ok i => .run i { s with fop := { s.fop with valid := false } }
  | .error _ => .settled (.refused .reservedFlashWord)

/-- Take the word the environment presents on the command port; the instruction samples its inputs (rules R60, R63). -/
def fetchCommandPort (w : BitVec 4) (inputs : Inputs) (s : State) : Fetch :=
  match decode (.cmd w) with
  | .ok i => .run i { s with inputs := sampleInputs i inputs s.inputs }
  | .error _ => .settled (.refused .reservedCommandWord)

/-- A step of the store; a flash operation it presents is executed in the same step (rule R226). -/
def driveStore (s : State) : Fetch :=
  match storeStep s with
  | .next t => if t.fop.valid then fetchFlashPort t else .settled (.next t)
  | .fault f => .settled (.fault f)
  | .refused r => .settled (.refused r)

/-- One event of the environment (rule R235). -/
def fetchEvent (s : State) : Event → Fetch
  | .command w inputs => fetchCommandPort w inputs s
  | .storeStep => driveStore s
  | .flashReady => .settled (.next (flashSettle s))
  | .reset => .settled (.next (resetMachine s))

/-- With nothing scheduled, the controller finishes what it is busy with, then the store command in flight goes on (a store
step other than the poll is always enabled, rule R235), and an idle block waits for a command (rule R250). -/
def fetchUnscheduled (s : State) : Fetch :=
  if s.flash.busy then .settled (.next (flashSettle s)) else driveStore s

/-- The start of a step. A configuration that breaks rule R6 is refused. A flash operation standing on its port goes before
everything the environment has scheduled: the spec gives no order between the two ports, and no run leaves an operation
standing between two steps, since the step that presents it executes it. DESIGN CHOICE, notes/assumptions/26.md. -/
def fetch (s : State) : Fetch :=
  if ¬s.params.wellFormed then .settled (.refused .badConfiguration)
  else if s.fop.valid then fetchFlashPort s
  else
    match s.env.events with
    | e :: rest => fetchEvent { s with env := { s.env with events := rest } } e
    | [] => fetchUnscheduled s

/-- A word of `nbits` bits put where the next step fetches: on the flash-operation port, or presented on the command port
with the inputs that stand there. -/
def placeWord (nbits w : Nat) (s : State) : State :=
  match portWord nbits w with
  | .fop x => { s with fop := { s.fop with valid := true, word := x } }
  | .cmd x =>
    { s with
      fop := { s.fop with valid := false }
      env := { s.env with events := .command x s.inputs :: s.env.events } }

end Sys2Proof.Machine
end

