-- ==== Sys2Proof/Machine/Step.lean ====
section
/-! DEFINITION. Step.lean: one step of the machine. -/

namespace Sys2Proof.Machine

/-- One step: the pulse of the step before ends, the next instruction is fetched and executed, or the machine does what
`fetch` found instead. -/
def step (s : State) : Host.Outcome State Fault Refusal :=
  match fetch (endPulse s) with
  | .run i t => exec i t
  | .settled r => r

/-- The state with a word of the opcode table where `step` fetches its next instruction. -/
def State.withFetchWord (s : State) (nbits w : Nat) : State := placeWord nbits w s

end Sys2Proof.Machine
end

