-- ==== Sys2Proof/Machine/Script.lean ====
section
/-! DEFINITION. Script.lean: the command streams of spec/30_encoding.md, section 7: script lines (rule R72) and the
pseudo-commands (rule R73), as what the environment schedules. -/

namespace Sys2Proof.Machine

open Sys2Proof.Config

/-- The operands of a TICK line (rule R72); `none` where the line leaves one out. -/
structure TickOperands where
  adc : Option (Vector Sample 10) := none
  gateN : Option Bool := none
  clkN : Option Bool := none
  btnN : Option (Vector Bool 6) := none
  ms : Option Word32 := none
  deriving DecidableEq, Repr

/-- A script line (rule R72). -/
inductive Line where
  | tick (operands : TickOperands)
  | restoreConfig
  | scheduleSave (ms : Option Word32)
  | saveConfig (force : Bool) (ms : Option Word32)
  | eraseConfig
  | reset
  deriving DecidableEq, Repr

/-- The inputs of a line (rule R72): an operand left out is idle, `ms` left out is unchanged from the line before, whose
`ms` the inputs sampled last still hold (notes/assumptions/18.md). -/
def lineInputs (o : TickOperands) (s : State) : Inputs :=
  let idle := Inputs.idle (o.ms.getD s.inputs.msNow)
  ⟨o.adc.getD idle.adc, o.gateN.getD idle.gateN, o.clkN.getD idle.clkN, o.btnN.getD idle.btnN, idle.msNow⟩

/-- The event a line stands for: its command word from rule R61 with the sampled inputs, or the reset event (rule R72). -/
def lineEvent (l : Line) (s : State) : Event :=
  match l with
  | .tick o => .command 0b0000#4 (lineInputs o s)
  | .restoreConfig => .command 0b0001#4 (lineInputs {} s)
  | .scheduleSave ms => .command 0b0010#4 (lineInputs { ms := ms } s)
  | .saveConfig force ms => .command (if force then 0b1011#4 else 0b0011#4) (lineInputs { ms := ms } s)
  | .eraseConfig => .command 0b0100#4 (lineInputs {} s)
  | .reset => .reset

/-- Replace what the environment has scheduled. -/
def withEvents (es : List Event) (s : State) : State :=
  { s with env := { s.env with events := es } }

/-- Steps with nothing scheduled until no store command is in flight; at most `fuel` of them. -/
def finishStore : Nat → State → Result
  | 0, s => .next s
  | fuel + 1, s =>
    if s.store.op = .idle then .next s
    else
      match step s with
      | .next t => finishStore fuel t
      | .fault f => .fault f
      | .refused r => .refused r

/-- More steps than any store command takes undisturbed. -/
def storeFuel : Nat := 256

/-- One line: its event, then "all its steps with no TICK in between" (rule R72); what the environment had scheduled after
it is kept. -/
def runLine (l : Line) (s : State) : Result :=
  match step (withEvents [lineEvent l s] s) with
  | .next t =>
    match finishStore storeFuel t with
    | .next u => .next (withEvents s.env.events u)
    | .fault f => .fault f
    | .refused r => .refused r
  | .fault f => .fault f
  | .refused r => .refused r

/-- A script: its lines in order. -/
def runScript : List Line → State → Result
  | [], s => .next s
  | l :: ls, s =>
    match runLine l s with
    | .next t => runScript ls t
    | .fault f => .fault f
    | .refused r => .refused r

/-- `BOOT` (rule R73). -/
def boot : List Line := [.reset, .restoreConfig]

/-- `SAVE_FORCE ms=t` (rule R73). -/
def saveForce (ms : Word32) : List Line := [.saveConfig true (some ms)]

/-- `TICK*n` with the same operands (rule R73). -/
def ticks (n : Nat) (o : TickOperands) : List Line := List.replicate n (.tick o)

/-- `TICK*n` with `ms=t0+` (rule R73): `ms` starts at `t0` and rises by 1 per repetition. -/
def ticksRising : Nat → Word32 → TickOperands → List Line
  | 0, _, _ => []
  | n + 1, t0, o => .tick { o with ms := some t0 } :: ticksRising n (t0 + 1) o

end Sys2Proof.Machine
end

