-- ==== Sys2Proof/Safety.lean ====
section
/-! DEFINITION. Safety.lean: the invariant of the machine (rule R31 and what its proof needs), and the words the claims are
stated in: runs, one byte of the pool, when a command is admitted. -/

namespace Sys2Proof.Machine

open Sys2Proof.Config

/-! ### Words of the claims -/

/-- The byte of the pool at a location (rule R27). -/
def poolByte (s : State) (pos off : Nat) : Byte := readByte s.flash.mem (poolOffset pos off)

/-- `n` steps of the machine. -/
def run (n : Nat) (s : State) : Result := Sys2Proof.core.run n s

/-- Nothing is scheduled: the store command in flight and the flash controller go on undisturbed (rule R72: "with no TICK
in between"). -/
def undisturbed (s : State) : State := { s with env := { s.env with events := [] } }

/-- The environment has chosen that the next `n` flash operations report no error ("no error was drawn", rule R203). -/
def noErrorFor (n : Nat) (s : State) : Prop := List.replicate n false <+: s.env.errors

/-- What rules R70, R155 and R252 ask of a TICK, and rule R31 (e) of the settings it reads. -/
structure TickAllowed (s : State) : Prop where
  metaValid : s.store.metaValid = true
  noRestore : s.store.op.isRestore = false
  samples : ∀ i : Fin 10, s.inputs.adc[i].toNat ≤ adcMax
  modes : ∀ j : Fin 6, s.settings[j].toNat ≤ 2

/-- The press guard of rule R82. -/
abbrev pressConfirmed (b : Button) (pinN : Bool) (now : Word32) : Prop :=
  pinN = false ∧ b.down = 0 ∧ debounceMs < (now - b.up).toNat

/-- The release guard of rule R82. -/
abbrev releaseConfirmed (b : Button) (pinN : Bool) (now : Word32) : Prop :=
  pinN = true ∧ b.down ≠ 0 ∧ debounceMs < (now - b.down).toNat

/-- Button `j` reports a press in a TICK at this state (rules R82, R151). -/
abbrev pressAt (j : Fin 6) (s : State) : Prop := pressConfirmed s.buttons[j] s.inputs.btnN[j] s.inputs.msNow

/-- How often a button reports over a train of samples `(pin_n, now)`, and its state after it (rules R82, R84). -/
def reports : List (Bool × Word32) → Button → Nat × Button
  | [], b => (0, b)
  | x :: xs, b =>
    let r := pressed b x.1 x.2
    let rest := reports xs r.1
    (rest.1 + (if r.2 then 1 else 0), rest.2)

/-- `EnvSel` of a legal mode code: NONE 0, RAMP 1, SWELL 2 (rules R66, R122). -/
def envFactor (e : Envelopes) (code : Byte) : Rat :=
  if code = 1 then e.rampOut else if code = 2 then e.swellOut else 1

/-- The effective rate of oscillator `k` from its sample, its mode byte and the envelopes (rules R109, R123). -/
def rateOf (k : Fin 3) (s : State) : Rat := (s.inputs.adc[2 * k.val].toNat : Rat) * envFactor s.envelopes s.settings[2 * k.val]

/-- `n` TICKs with the same sampled inputs. -/
def tickRun : Nat → State → Result
  | 0, s => .next s
  | n + 1, s =>
    match exec .tick s with
    | .next t => tickRun n t
    | .fault f => .fault f
    | .refused r => .refused r

/-- A job inside the pool (rule R207). -/
def jobInPool : FlashJob → Prop
  | .prog pos off data => pos < nPages ∧ off + data.length ≤ pageSize
  | .erase pos => pos < nPages

/-- The bytes a job may change: its target bytes, or its page (rules R203, R204). -/
def jobTarget : FlashJob → Nat → Prop
  | .prog pos off data, a => poolOffset pos off ≤ a ∧ a < poolOffset pos off + data.length
  | .erase pos, a => pageOf a = pos

/-- The page begins with the valid magic header and a usable index (rules R68, R162). -/
def headerAt (s : State) (pos : Nat) : Prop :=
  (∀ n : Fin 4, poolByte s pos n = (magic s.params)[n]?.getD 0) ∧ (poolByte s pos 4).toNat < nPages

/-- The block at this offset of the page begins with the magic (rules R46, R166). -/
def blockAt (s : State) (pos off : Nat) : Prop :=
  ∀ n : Fin 4, poolByte s pos (off + n) = (magic s.params)[n]?.getD 0

/-- The candidate range of each band of the ladder (rule R110, its table). -/
def bandRange : Fin 6 → Rat → Prop
  | 0, v => v < 682
  | 1, v => 682 ≤ v ∧ v < 1365
  | 2, v => 1365 ≤ v ∧ v < 2048
  | 3, v => 2048 ≤ v ∧ v < 2731
  | 4, v => 2731 ≤ v ∧ v < 3413
  | 5, v => 3413 ≤ v

/-- The values rule R30's table gives (the elements it leaves unspecified are not here). -/
structure ResetValues (s : State) : Prop where
  tickCounter : s.tickCounter = 0
  lfo : ∀ k : Fin 3, s.lfo[k] = ⟨0, 0, 0, 0⟩
  settings : ∀ j : Fin 6, s.settings[j] = 0
  buttons : ∀ j : Fin 6, s.buttons[j] = ⟨0, 0⟩
  envelopes : s.envelopes = ⟨0, 0, 1⟩
  clock : s.clock = ⟨true, 0, 0, false, 0, s.params.ladder[0]⟩
  indicators : ∀ k : Fin 3, rateLed k s = ⟨true, true⟩ ∧ levelLed k s = ⟨true, true⟩
  pending : s.store.pending = false
  anchor : s.store.anchor = 0
  metaValid : s.store.metaValid = false
  status : s.store.status = 0
  op : s.store.op = .idle
  buf : s.store.buf = none
  locked : s.flash.locked = true
  err : s.flash.err = false
  busy : s.flash.busy = false

/-- The next thing to happen is the reset event (rules R235, R250). -/
def resetNext (s : State) : Prop := s.fop.valid = false ∧ s.env.events.head? = some .reset

/-- The next thing to happen is a TICK (rules R60, R61). -/
def tickNext (s : State) : Prop := s.fop.valid = false ∧ ∃ inputs, s.env.events.head? = some (.command 0b0000#4 inputs)

/-- The next thing to happen is a step of the store command in flight: a scheduled one, or with nothing scheduled and the
controller at rest (rules R226, R235; the empty schedule is log entry 12). -/
def storeStepNext (s : State) : Prop :=
  s.fop.valid = false ∧ (s.env.events.head? = some .storeStep ∨ (s.env.events = [] ∧ s.flash.busy = false))

/-- The next thing to happen is an unforced SAVE_CONFIG for which nothing is due (rule R172). -/
def idleSaveNext (s : State) : Prop :=
  s.fop.valid = false ∧ ∃ port, s.env.events.head? = some (.command 0b0011#4 port) ∧
    ¬(s.store.pending = true ∧ 60000 ≤ (port.msNow - s.store.anchor).toNat)

/-! ### The parts of the invariant -/

/-- `swell.dir` is `+1` or `-SWELL_FALL` (rule R31 a). -/
def directionLegal (s : State) : Prop := s.envelopes.swellDir = 1 ∨ s.envelopes.swellDir = -s.params.swellFall

/-- Both envelopes are in [0, 1] (rules R31 b, R97). -/
def envelopesInRange (s : State) : Prop :=
  0 ≤ s.envelopes.rampOut ∧ s.envelopes.rampOut ≤ 1 ∧ 0 ≤ s.envelopes.swellOut ∧ s.envelopes.swellOut ≤ 1

/-- `clkMult = LADDER[Band(clkHyst)]` (rule R31 c). -/
def ladderConsistent (s : State) : Prop := s.clock.mult = ladderAt s.params (band s.clock.hyst)

/-- A multiple of `BLK` and at most `PAGE_SIZE` (rule R31 d). -/
def offsetLegal (o : Nat) : Prop := o % blk = 0 ∧ o ≤ pageSize

/-- RESTORE_CONFIG stands between its first copied byte and the end of the validator (rule R31 e). -/
def StoreOp.copying : StoreOp → Bool
  | .restoreCopy _ _ _ => true
  | .restoreValidate _ => true
  | .idle => false
  | .restoreFind => false
  | .restoreReclaim _ _ _ => false
  | .restoreErase _ _ _ _ => false
  | .restoreSnapshot _ _ => false
  | .restoreFinish _ => false
  | .savePlace => false
  | .saveHeader => false
  | .saveRead _ => false
  | .savePad => false
  | .saveProgram _ => false
  | .eraseAll _ _ _ => false
  | .eraseFinish _ => false

/-- The index of every page is 0 .. NPAGES-1 or 255 (rule R24). -/
def indicesLegal (pages : Vector PageDesc nPages) : Prop :=
  ∀ i : Fin nPages, pages[i].index = noIndex ∨ pages[i].index.toNat < nPages

/-- `flash.locked` before a step of an erase sequence (rule R209). -/
def EraseStep.lockedAt : EraseStep → Bool
  | .unlock => true
  | .clearErr => false
  | .erase => false
  | .poll => false
  | .lock _ => false
  | .done _ => true

/-- `flash.locked` before a step of a program sequence (rule R208). -/
def ProgStep.lockedAt : ProgStep → Bool
  | .unlock => true
  | .clearErr => false
  | .prog _ => false
  | .poll _ => false
  | .lock _ => false
  | .done _ => true

/-- `flash.locked` where the store stands: open only inside a flash sequence (rules R31 g, R207). -/
def StoreOp.lockedAt : StoreOp → Bool
  | .restoreErase _ p _ _ => p.lockedAt
  | .saveProgram p => p.lockedAt
  | .eraseAll _ p _ => p.lockedAt
  | .idle => true
  | .restoreFind => true
  | .restoreReclaim _ _ _ => true
  | .restoreSnapshot _ _ => true
  | .restoreCopy _ _ _ => true
  | .restoreValidate _ => true
  | .restoreFinish _ => true
  | .savePlace => true
  | .saveHeader => true
  | .saveRead _ => true
  | .savePad => true
  | .eraseFinish _ => true

/-- The flash operation a poll waits for. -/
def jobAwaited (s : State) : Option FlashJob :=
  match s.store.op with
  | .restoreErase i .poll _ _ => some (.erase i)
  | .eraseAll i .poll _ => some (.erase i)
  | .saveProgram (.poll u) =>
    some (.prog s.store.curPage.val (s.store.nextOffset + u * s.params.wblk)
      (unitBytes s.params.wblk u (s.store.buf.getD [])))
  | _ => none

/-- The bytes of the block buffer so far (rule R29 b). -/
def bufLength (s : State) : Option Nat := s.store.buf.map List.length

/-- A save has a place: the metadata exists and the block fits the current page (rules R47, R173). -/
def savePlaced (s : State) : Prop :=
  s.store.metaValid = true ∧ s.store.nextOffset % blk = 0 ∧ s.store.nextOffset + blk ≤ pageSize

/-- The program unit a step of `ProgramSeq` names is one of the block's (rule R208). -/
def ProgStep.unitLegal (p : Params) : ProgStep → Prop
  | .prog u => u < unitCount p
  | .poll u => u < unitCount p
  | .unlock => True
  | .clearErr => True
  | .lock _ => True
  | .done _ => True

/-- What holds where the store command in flight stands. -/
def opPlaced (s : State) : Prop :=
  match s.store.op with
  | .idle => s.store.buf = none
  | .restoreFind => s.store.buf = none
  | .restoreReclaim _ _ _ => s.store.buf = none
  | .restoreErase i _ _ _ => i < nPages ∧ s.store.buf = none
  | .restoreSnapshot _ _ => s.store.buf = none
  | .restoreCopy snapshot n _ =>
    n < 6 ∧ snapshot + blk ≤ pageSize ∧ offsetLegal s.store.nextOffset ∧ s.store.buf = none
  | .restoreValidate _ => offsetLegal s.store.nextOffset ∧ s.store.buf = none
  | .restoreFinish _ => offsetLegal s.store.nextOffset ∧ s.store.buf = none
  | .savePlace => s.store.metaValid = true ∧ s.store.buf = none
  | .saveHeader => savePlaced s ∧ s.store.buf = none
  | .saveRead n => savePlaced s ∧ n < 6 ∧ bufLength s = some (hdrSize + n)
  | .savePad => savePlaced s ∧ bufLength s = some (hdrSize + settingsSize)
  | .saveProgram p => savePlaced s ∧ bufLength s = some blk ∧ p.unitLegal s.params
  | .eraseAll i _ _ => i < nPages ∧ s.store.buf = none
  | .eraseFinish _ => s.store.buf = none

/-- The ranges of one oscillator's registers (rule R13). -/
def lfoInRange (l : Lfo) : Prop :=
  -1 ≤ l.sine ∧ l.sine ≤ 1 ∧ -1 ≤ l.fm ∧ l.fm ≤ 1 ∧ 0 ≤ l.outLevel ∧ 2 * l.outLevel ≤ adcMax

/-- The invariant: rule R31 (a) to (g), the ranges of rules R13, R24, R26 and R97, the configuration's constraints (R6), the
canonical form of the memory, and what holds where the store command in flight stands. -/
structure MachineInv (s : State) : Prop where
  params : s.params.wellFormed = true
  direction : directionLegal s
  envelopes : envelopesInRange s
  ladder : ladderConsistent s
  offset : s.store.metaValid = true → offsetLegal s.store.nextOffset
  indices : s.store.metaValid = true ∨ s.store.op.isRestore = true → indicesLegal s.store.pages
  modes : s.store.op.copying = true ∨ settingsLegal s.settings = true
  interval : s.clock.valid = true → s.clock.interval ≠ 0
  lock : s.flash.locked = s.store.op.lockedAt
  job : s.flash.job = none ∨ s.flash.job = jobAwaited s
  memory : s.flash.mem.wf
  status : s.store.status &&& 0xF8 = 0
  lfo : ∀ k : Fin 3, lfoInRange s.lfo[k]
  port : s.fop.valid = false
  place : opPlaced s

/-- The refusals a machine in the invariant can give: each is a command the environment must not issue (rule R235, "what the
environment owes"). -/
def environmentBreach : Refusal → Bool
  | .reservedCommandWord => true
  | .beforeMetadata => true
  | .tickDuringRestore => true
  | .storeCommandInFlight => true
  | .sampleOutOfRange => true
  | _ => false

end Sys2Proof.Machine
end

