-- ==== Sys2Proof/Certificates/Slice0/Obligations.lean ====
section
/-! DEFINITION. Obligations.lean: the statements for the provers. Statements about one store step are about `storeStep`, the
step the sequencer takes; `StoreStepIsAMachineStep` carries them to `step`. -/

open Sys2Proof Sys2Proof.Machine Sys2Proof.Config

/-! ### Encoding -/

/-- Rules R60, R61, R65: a word of either port decodes to an instruction exactly when it is that instruction's word. -/
def Obligations.DecodeEncodeAgree : Prop :=
  ∀ (w : PortWord) (i : Instr), decode w = .ok i ↔ encode i = w

/-- Words written out from the tables of rules R61 and R65. -/
def Obligations.TableWordsDecode : Prop :=
  decode (.cmd 0b0000#4) = .ok .tick ∧ decode (.cmd 0b1011#4) = .ok (.saveConfig true) ∧
  decode (.cmd 0b0100#4) = .ok .eraseConfig ∧ decode (.fop 0b010#3) = .ok .flProg ∧ decode (.fop 0b100#3) = .ok .flLock

/-! ### The step -/

/-- Rules R60, R63: a step runs the instruction decoded from the word the environment presents on the command port, on the
inputs that instruction samples. -/
def Obligations.StepRunsCommandWord : Prop :=
  ∀ (s : State) (w : BitVec 4) (port : Inputs) (rest : List Event) (i : Instr),
    s.params.wellFormed = true → s.fop.valid = false → s.env.events = .command w port :: rest →
    decode (.cmd w) = .ok i → i.wellFormed = true →
    step s = exec i { s with
      env := { s.env with events := rest }
      cmd := { s.cmd with done := false }
      inputs := sampleInputs i port s.inputs }

/-- Rule R63: TICK samples every port, SCHEDULE_SAVE and SAVE_CONFIG the millisecond counter alone, RESTORE_CONFIG and
ERASE_CONFIG nothing. -/
def Obligations.CommandsSampleTheirInputs : Prop :=
  ∀ (port held : Inputs) (force : Bool),
    sampleInputs .tick port held = port ∧
    sampleInputs .scheduleSave port held = ⟨held.adc, held.gateN, held.clkN, held.btnN, port.msNow⟩ ∧
    sampleInputs (.saveConfig force) port held = ⟨held.adc, held.gateN, held.clkN, held.btnN, port.msNow⟩ ∧
    sampleInputs .restoreConfig port held = held ∧ sampleInputs .eraseConfig port held = held

/-- Rule R65: a step runs the instruction decoded from the word that stands on the flash-operation port. That it does so
before anything the environment has scheduled is the model's choice, log entry 26; that only `fop_valid` falls then, log entry
28. -/
def Obligations.StepRunsFlashWord : Prop :=
  ∀ (s : State) (i : Instr),
    s.params.wellFormed = true → s.fop.valid = true → decode (.fop s.fop.word) = .ok i → i.wellFormed = true →
    step s = exec i { s with
      cmd := { s.cmd with done := false }
      fop := { s.fop with valid := false } }

/-- Rules R226, R235, R206: a scheduled store step is one step of the sequencer, together with the flash operation it issues;
a scheduled end of the controller's operation is `flashSettle`. With nothing scheduled the controller finishes first, then the
sequencer goes on (the model's choice of schedule, log entries 10 and 12). Of the
port's lines only `fop_valid` falls when an operation is executed, log entry 28. -/
def Obligations.StoreStepIsAMachineStep : Prop :=
  (∀ s u t : State, s.params.wellFormed = true → s.fop.valid = false →
    ((∃ rest, s.env.events = .storeStep :: rest ∧
        u = { s with cmd := { s.cmd with done := false }, env := { s.env with events := rest } }) ∨
      (s.env.events = [] ∧ s.flash.busy = false ∧ u = { s with cmd := { s.cmd with done := false } })) →
    storeStep u = .next t →
    (t.fop.valid = false → step s = .next t) ∧
    (∀ i, t.fop.valid = true → decode (.fop t.fop.word) = .ok i →
      step s = exec i { t with fop := { t.fop with valid := false } })) ∧
  (∀ s u : State, s.params.wellFormed = true → s.fop.valid = false →
    ((∃ rest, s.env.events = .flashReady :: rest ∧
        u = { s with cmd := { s.cmd with done := false }, env := { s.env with events := rest } }) ∨
      (s.env.events = [] ∧ s.flash.busy = true ∧ u = { s with cmd := { s.cmd with done := false } })) →
    step s = .next (flashSettle u))

/-- Rule R64: the reserved words of both ports, and no others, are rejected by the decoder, and a step that finds one on its
port is refused. (That a word on the flash-operation port is met before what is scheduled is the model's choice, log entry
26.) -/
def Obligations.ReservedWordsRefused : Prop :=
  (∀ w : BitVec 4, (∃ e, decode (.cmd w) = .error e) ↔
    (5 ≤ (w.extractLsb' 0 3).toNat ∨ (w.getLsbD 3 = true ∧ (w.extractLsb' 0 3).toNat ≠ 3))) ∧
  (∀ w : BitVec 3, (∃ e, decode (.fop w) = .error e) ↔ 5 ≤ w.toNat) ∧
  (∀ (s : State) (w : BitVec 4) (port : Inputs) (rest : List Event),
    s.params.wellFormed = true → s.fop.valid = false → s.env.events = .command w port :: rest →
    (5 ≤ (w.extractLsb' 0 3).toNat ∨ (w.getLsbD 3 = true ∧ (w.extractLsb' 0 3).toNat ≠ 3)) →
    step s = .refused .reservedCommandWord) ∧
  (∀ s : State, s.params.wellFormed = true → s.fop.valid = true → 5 ≤ s.fop.word.toNat →
    step s = .refused .reservedFlashWord)

/-! ### TICK -/

/-- Rules R70, R155, R252: a TICK completes exactly where it may be issued. That it also needs a mode code in every settings
byte is the model's choice, log entry 14; no run reaches a TICK without. -/
def Obligations.TickRunsExactlyWhenAllowed : Prop :=
  ∀ s : State, (∃ t, exec .tick s = .next t) ↔ TickAllowed s

/-- Rule R12: every TICK adds one to the tick counter, and nothing else but a reset writes it. -/
def Obligations.TickCounterCounts : Prop :=
  (∀ s : State, TickAllowed s → ∃ t, exec .tick s = .next t ∧ t.tickCounter = s.tickCounter + 1) ∧
  (∀ s t : State, step s = .next t → ¬tickNext s → ¬resetNext s → t.tickCounter = s.tickCounter)

/-- Rules R82, R141, R20: each button's debounce, the mode each confirmed press cycles, the indicator outputs of the modes
after it, and the save each press schedules. -/
def Obligations.TickPollsButtons : Prop :=
  ∀ s : State, TickAllowed s → ∃ t, exec .tick s = .next t ∧
    (∀ j : Fin 6,
      t.buttons[j] =
        (if releaseConfirmed s.buttons[j] s.inputs.btnN[j] s.inputs.msNow then ⟨0, s.inputs.msNow⟩
         else if pressAt j s then ⟨s.inputs.msNow, s.buttons[j].up⟩
         else s.buttons[j]) ∧
      t.settings[j].toNat = (if pressAt j s then (s.settings[j].toNat + 1) % 3 else s.settings[j].toNat)) ∧
    (∀ k : Fin 3,
      ((rateLed k t).rampN = false ↔ t.settings[2 * k.val] = 1) ∧
      ((rateLed k t).swellN = false ↔ t.settings[2 * k.val] = 2) ∧
      ((levelLed k t).rampN = false ↔ t.settings[2 * k.val + 1] = 1) ∧
      ((levelLed k t).swellN = false ↔ t.settings[2 * k.val + 1] = 2)) ∧
    (t.store.pending = true ↔ (s.store.pending = true ∨ ∃ j : Fin 6, pressAt j s)) ∧
    ((∃ j : Fin 6, pressAt j s) → t.store.anchor = s.inputs.msNow) ∧
    ((∀ j : Fin 6, ¬pressAt j s) → t.store.anchor = s.store.anchor)

/-- Rules R106, R107: the clock edge, the interval it measures, and the validity timeout. -/
def Obligations.TickDetectsClock : Prop :=
  ∀ s : State, TickAllowed s → ∃ t, exec .tick s = .next t ∧
    t.clock.prev = s.inputs.clkN ∧
    ((s.clock.prev = true ∧ s.inputs.clkN = false) →
      t.clock.interval = s.tickCounter + 1 - s.clock.lastEdge ∧ t.clock.lastEdge = s.tickCounter + 1 ∧
      (t.clock.valid = true ↔ t.clock.interval ≠ 0)) ∧
    (¬(s.clock.prev = true ∧ s.inputs.clkN = false) →
      t.clock.interval = s.clock.interval ∧ t.clock.lastEdge = s.clock.lastEdge ∧
      (t.clock.valid = true ↔
        (s.clock.valid = true ∧ (s.tickCounter + 1 - s.clock.lastEdge).toNat ≤ s.params.secondTicks)))

/-- Rules R90, R91, R93, R95: both envelope integrators, gate active and gate inactive. -/
def Obligations.TickStepsEnvelopes : Prop :=
  ∀ s : State, TickAllowed s → ∃ t, exec .tick s = .next t ∧
    (s.inputs.gateN = true →
      t.envelopes = ⟨max (s.envelopes.rampOut - s.params.releaseInc) 0, max (s.envelopes.swellOut - s.params.releaseInc) 0, 1⟩) ∧
    (s.inputs.gateN = false →
      ∀ rr lr rs ls new : Rat,
        rr = (s.inputs.adc[6].toNat : Rat) / 4095 → lr = (s.inputs.adc[7].toNat : Rat) / 4095 →
        rs = (s.inputs.adc[8].toNat : Rat) / 4095 → ls = (s.inputs.adc[9].toNat : Rat) / 4095 →
        new = s.envelopes.swellOut + s.params.swellInc * ls * rs * s.envelopes.swellDir →
        t.envelopes.rampOut = min (s.envelopes.rampOut + s.params.rampInc * lr * rr) lr ∧
        (0 < s.envelopes.swellDir → ls ≤ new → t.envelopes.swellOut = ls ∧ t.envelopes.swellDir = -s.params.swellFall) ∧
        (0 < s.envelopes.swellDir → new < ls →
          t.envelopes.swellOut = new ∧ t.envelopes.swellDir = s.envelopes.swellDir) ∧
        (s.envelopes.swellDir ≤ 0 →
          t.envelopes.swellOut = max new 0 ∧ t.envelopes.swellDir = s.envelopes.swellDir))

/-- Rule R96: the four envelope codes are the floors of the envelope values on the DAC scale, the ramp LED's of the square. -/
def Obligations.TickWritesEnvelopeCodes : Prop :=
  ∀ s : State, MachineInv s → TickAllowed s → ∃ t, exec .tick s = .next t ∧
    (t.out.rampDac.toNat : Int) = ⌊t.envelopes.rampOut * 4095⌋ ∧
    (t.out.rampLed.toNat : Int) = ⌊t.envelopes.rampOut * t.envelopes.rampOut * 4095⌋ ∧
    (t.out.swellDac.toNat : Int) = ⌊t.envelopes.swellOut * 4095⌋ ∧
    (t.out.swellLed.toNat : Int) = ⌊t.envelopes.swellOut * 4095⌋

/-- Rules R109, R110, R111: the ladder adopts the candidate exactly while the clock is valid and it differs by more than the
margin, and then takes the multiplier of the candidate's band. -/
def Obligations.TickUpdatesLadder : Prop :=
  ∀ s : State, TickAllowed s → ∃ t, exec .tick s = .next t ∧
    ((t.clock.valid = true ∧ 20 < |rateOf 0 t - s.clock.hyst|) →
      t.clock.hyst = rateOf 0 t ∧ ∀ b : Fin 6, bandRange b (rateOf 0 t) → t.clock.mult = s.params.ladder[b]) ∧
    (¬(t.clock.valid = true ∧ 20 < |rateOf 0 t - s.clock.hyst|) →
      t.clock.hyst = s.clock.hyst ∧ t.clock.mult = s.clock.mult)

/-- Rules R112, R123, R124, R126: each accumulator advances modulo 2^32 by the clock's increment (oscillator 0 with a valid
clock) or by the squared rate. -/
def Obligations.TickAdvancesPhases : Prop :=
  ∀ s : State, TickAllowed s → ∃ t, exec .tick s = .next t ∧ ∀ k : Fin 3,
    ((k = 0 ∧ t.clock.valid = true) →
      (t.lfo[k].phase.toNat : Int) =
        ((s.lfo[k].phase.toNat : Int) + ⌊t.clock.mult * 2 ^ 32 / (t.clock.interval.toNat : Rat)⌋) % 2 ^ 32) ∧
    (¬(k = 0 ∧ t.clock.valid = true) →
      (t.lfo[k].phase.toNat : Int) =
        ((s.lfo[k].phase.toNat : Int) + ⌊s.params.kFree * rateOf k t * rateOf k t⌋) % 2 ^ 32)

/-- Rules R122, R127: each output level, and each sine of the phase just advanced. -/
def Obligations.TickSetsLevelsAndSines : Prop :=
  ∀ s : State, TickAllowed s → ∃ t, exec .tick s = .next t ∧ ∀ k : Fin 3,
    t.lfo[k].outLevel =
      (s.inputs.adc[2 * k.val + 1].toNat : Rat) * (1 / 2) * envFactor t.envelopes t.settings[2 * k.val + 1] ∧
    t.lfo[k].sine = Sys2Proof.Machine.sin t.lfo[k].phase

/-- Rules R13, R128, R129: the FM offset of oscillators 1 and 2 from the upstream values of the same tick, its bound, the one
correction that brings the position into range, and the FM output; oscillator 0 has none. -/
def Obligations.TickChainsFm : Prop :=
  ∀ s : State, MachineInv s → TickAllowed s → ∃ t, exec .tick s = .next t ∧
    t.lfo[0].fm = s.lfo[0].fm ∧
    ∀ (k : Fin 3) (off : Rat),
      ((k = 1 ∧ off = t.lfo[0].sine * t.lfo[0].outLevel * 262144) ∨ (k = 2 ∧ off = t.lfo[1].fm * t.lfo[1].outLevel * 262144)) →
      |off| ≤ 536739840 ∧ ∃ pos : Rat, 0 ≤ pos ∧ pos < 2 ^ 32 ∧
        (pos = (t.lfo[k].phase.toNat : Rat) + off ∨ pos = (t.lfo[k].phase.toNat : Rat) + off + 2 ^ 32 ∨
          pos = (t.lfo[k].phase.toNat : Rat) + off - 2 ^ 32) ∧
        t.lfo[k].fm = Sys2Proof.Machine.sin (BitVec.ofInt 32 ⌊pos⌋)

/-- Rules R129, R130, R131: the oscillators' codes are the floors of `(x + 1) × outLevel`, with no clamp. -/
def Obligations.TickWritesOscillatorCodes : Prop :=
  ∀ s : State, MachineInv s → TickAllowed s → ∃ t, exec .tick s = .next t ∧
    (∀ k : Fin 3,
      (t.out.dac[k].toNat : Int) = ⌊(t.lfo[k].sine + 1) * t.lfo[k].outLevel⌋ ∧ t.out.led[k] = t.out.dac[k]) ∧
    (t.out.fmDac1.toNat : Int) = ⌊(t.lfo[1].fm + 1) * t.lfo[1].outLevel⌋ ∧
    (t.out.fmDac2.toNat : Int) = ⌊(t.lfo[2].fm + 1) * t.lfo[2].outLevel⌋

/-- Rule R150: a TICK touches no flash, no store state but the pending flag and its anchor, no port but its result. -/
def Obligations.TickFrame : Prop :=
  ∀ s : State, TickAllowed s → ∃ t, exec .tick s = .next t ∧
    t.flash = s.flash ∧ t.fop = s.fop ∧ t.cmd = ⟨s.cmd.done, true⟩ ∧
    t.store = { s.store with pending := t.store.pending, anchor := t.store.anchor } ∧
    t.inputs = s.inputs ∧ t.params = s.params ∧ t.env = s.env

/-- Rules R150, R233: what a TICK computes does not depend on the status register, the flash, or the store's state. -/
def Obligations.TickIgnoresStoreAndFlash : Prop :=
  ∀ (s : State) (f : Flash) (st : Store), TickAllowed s → st.metaValid = true → st.op.isRestore = false →
    ∃ t u, exec .tick s = .next t ∧ exec .tick { s with flash := f, store := st } = .next u ∧
      u.out = t.out ∧ u.lfo = t.lfo ∧ u.settings = t.settings ∧ u.envelopes = t.envelopes ∧ u.clock = t.clock ∧
      u.buttons = t.buttons ∧ u.tickCounter = t.tickCounter ∧ u.cmd = t.cmd

/-- Rule R126: over `n` TICKs at a constant rate, no button down, the accumulator of oscillator 1 or 2 with rate mode NONE
advances `n` times its increment modulo 2^32. -/
def Obligations.PhaseAccumulates : Prop :=
  ∀ (s : State) (k : Fin 3) (n : Nat), TickAllowed s → k ≠ 0 → (∀ j : Fin 6, s.inputs.btnN[j] = true) →
    s.settings[2 * k.val] = 0 →
    ∃ t, tickRun n s = .next t ∧
      (t.lfo[k].phase.toNat : Int) =
        ((s.lfo[k].phase.toNat : Int) +
          n * ⌊s.params.kFree * (s.inputs.adc[2 * k.val].toNat : Rat) * (s.inputs.adc[2 * k.val].toNat : Rat)⌋) % 2 ^ 32

/-- Rule R95: over `n` TICKs with the gate inactive both envelopes fall by `n` release increments, never below zero;
each is at zero exactly from the ceiling of its value over the increment on. -/
def Obligations.ReleaseReachesZero : Prop :=
  ∀ (s : State) (n : Nat), MachineInv s → TickAllowed s → s.inputs.gateN = true →
    ∃ t, tickRun n s = .next t ∧
      t.envelopes.rampOut = max (s.envelopes.rampOut - n * s.params.releaseInc) 0 ∧
      t.envelopes.swellOut = max (s.envelopes.swellOut - n * s.params.releaseInc) 0 ∧
      (t.envelopes.rampOut = 0 ↔ ⌈s.envelopes.rampOut / s.params.releaseInc⌉ ≤ (n : Int)) ∧
      (t.envelopes.swellOut = 0 ↔ ⌈s.envelopes.swellOut / s.params.releaseInc⌉ ≤ (n : Int))

/-- Rule R84: a train of samples that starts with a confirmed press and stays within the debounce window reports once. -/
def Obligations.BounceTrainReportsOnce : Prop :=
  ∀ (b : Button) (t0 : Word32) (train : List (Bool × Word32)),
    pressConfirmed b false t0 → t0 ≠ 0 → (∀ x ∈ train, (x.2 - t0).toNat ≤ debounceMs) →
    reports ((false, t0) :: train) b = (1, ⟨t0, b.up⟩)

/-- Rule R124: the free-running increment is the exact floor (the reduction never acts) and is non-decreasing in the rate. -/
def Obligations.FreeIncrementExactAndMonotone : Prop :=
  ∀ (p : Params) (r q : Rat), p.wellFormed = true → 0 ≤ r → r ≤ q → q ≤ 4095 →
    ((freeIncrement p r).toNat : Int) = ⌊p.kFree * r * r⌋ ∧ (freeIncrement p r).toNat ≤ (freeIncrement p q).toNat

/-! ### The store's commands -/

/-- Rule R170: SCHEDULE_SAVE raises the pending flag, moves the anchor, and changes nothing else. -/
def Obligations.ScheduleSaveResult : Prop :=
  ∀ s : State, exec .scheduleSave s = .next { s with
    store := { s.store with pending := true, anchor := s.inputs.msNow }
    cmd := { s.cmd with result := true } }

/-- Rules R171, R172: SAVE_CONFIG with nothing due completes at once with result 1 and changes nothing; due, its first
action is that the pending flag falls. -/
def Obligations.SaveTrigger : Prop :=
  ∀ (s : State) (force : Bool), MachineInv s → s.store.op = .idle → s.store.metaValid = true →
    ((force = true ∨ (s.store.pending = true ∧ 60000 ≤ (s.inputs.msNow - s.store.anchor).toNat)) →
      exec (.saveConfig force) s = .next { s with store := { s.store with pending := false, op := .savePlace } }) ∧
    (¬(force = true ∨ (s.store.pending = true ∧ 60000 ≤ (s.inputs.msNow - s.store.anchor).toNat)) →
      exec (.saveConfig force) s = .next { s with cmd := ⟨true, true⟩ })

/-- Rules R173, R222: the block goes after the last one; a full page rotates to the first clean page after the current one
and the next index, cyclically; with no clean page the save ends with result 0 and NoFreePage. -/
def Obligations.SavePlacement : Prop :=
  ∀ s : State, s.store.op = .savePlace →
    (s.store.nextOffset + 16 ≤ 2048 → storeStep s = .next { s with store := { s.store with op := .saveHeader } }) ∧
    (2048 < s.store.nextOffset + 16 →
      (∀ j : Fin nPages, j ≠ s.store.curPage → s.store.pages[j].dirty = true) →
      storeStep s = .next { s with
        store := { s.store with op := .idle, buf := none, status := s.store.status ||| 0x02 }
        cmd := ⟨true, false⟩ }) ∧
    (2048 < s.store.nextOffset + 16 →
      ∀ d : Nat, 1 ≤ d → d ≤ 19 →
        (∀ j : Fin nPages, j.val = (s.store.curPage.val + d) % 20 → s.store.pages[j].dirty = false) →
        (∀ e : Nat, 1 ≤ e → e < d →
          ∀ j : Fin nPages, j.val = (s.store.curPage.val + e) % 20 → s.store.pages[j].dirty = true) →
        ∃ t, storeStep s = .next t ∧ t.store.curPage.val = (s.store.curPage.val + d) % 20 ∧
          t.store.curIndex.val = (s.store.curIndex.val + 1) % 20 ∧ t.store.nextOffset = 0 ∧ t.store.op = .saveHeader ∧
          t = { s with store := { s.store with
            curPage := t.store.curPage
            curIndex := t.store.curIndex
            nextOffset := 0
            op := .saveHeader } })

/-- Rule R174: undisturbed, the block is assembled: the magic, the index, the six settings bytes, five drawn bytes. That this
takes eight steps, the header and the padding being one each, is the model's granularity, log entry 8. -/
def Obligations.SaveAssemblesBlock : Prop :=
  ∀ s : State, MachineInv s → s.store.op = .saveHeader →
    ∃ t pad, run 8 (undisturbed s) = .next t ∧ pad.length = 5 ∧
      t.store.buf =
        some ([0x43, 0x46, 0x47, s.params.cfgVersion, BitVec.ofNat 8 s.store.curIndex.val] ++ s.settings.toList ++ pad) ∧
      t.store.op = .saveProgram .unlock ∧ t.flash = s.flash ∧ t.settings = s.settings

/-- Rules R174, R256: a settings byte is read at the moment of its own step, whatever was read before. -/
def Obligations.SaveReadsLiveByte : Prop :=
  ∀ (s : State) (n : Fin 6) (b : List Byte), s.store.op = .saveRead n.val → s.store.buf = some b →
    ∃ t, storeStep s = .next t ∧ t.store.buf = some (b ++ [s.settings[n]]) ∧
      t.store.op = (if n.val = 5 then .savePad else .saveRead (n.val + 1)) ∧
      t = { s with store := { s.store with buf := t.store.buf, op := t.store.op } }

/-- Rule R208: with no error drawn, `ProgramSeq` programs the whole block: every byte of the target becomes old AND new, no
other byte changes, and the controller is locked again. (Old AND new is log entry 7.) -/
def Obligations.ProgramSequenceWritesBlock : Prop :=
  ∀ (s : State) (buf : List Byte), MachineInv s → s.store.op = .saveProgram .unlock → s.store.buf = some buf →
    noErrorFor (16 / s.params.wblk) s →
    ∃ n t, run n (undisturbed s) = .next t ∧ t.store.op = .saveProgram (.done true) ∧ t.flash.locked = true ∧
      t.flash.busy = false ∧ t.settings = s.settings ∧
      (∀ i, i < 16 → readByte t.flash.mem (poolOffset s.store.curPage.val s.store.nextOffset + i) =
        (readByte s.flash.mem (poolOffset s.store.curPage.val s.store.nextOffset + i) &&& buf[i]?.getD 0xFF)) ∧
      (∀ a, (a < poolOffset s.store.curPage.val s.store.nextOffset ∨
          poolOffset s.store.curPage.val s.store.nextOffset + 16 ≤ a) →
        readByte t.flash.mem a = readByte s.flash.mem a)

/-- Rule R208: at the first error the sequence ends: the units before it are programmed, the units after it and every other
byte are untouched, the controller is locked and its error flag stands. (Old AND new is log entry 7.) -/
def Obligations.ProgramSequenceStopsAtError : Prop :=
  ∀ (s : State) (buf : List Byte) (u : Nat), MachineInv s → s.store.op = .saveProgram .unlock → s.store.buf = some buf →
    u < 16 / s.params.wblk → (List.replicate u false ++ [true]) <+: s.env.errors →
    ∃ n t, run n (undisturbed s) = .next t ∧ t.store.op = .saveProgram (.done false) ∧ t.flash.locked = true ∧
      t.flash.err = true ∧ t.flash.busy = false ∧
      (∀ i, i < u * s.params.wblk → readByte t.flash.mem (poolOffset s.store.curPage.val s.store.nextOffset + i) =
        (readByte s.flash.mem (poolOffset s.store.curPage.val s.store.nextOffset + i) &&& buf[i]?.getD 0xFF)) ∧
      (∀ a, (a < poolOffset s.store.curPage.val s.store.nextOffset ∨
          poolOffset s.store.curPage.val s.store.nextOffset + (u + 1) * s.params.wblk ≤ a) →
        readByte t.flash.mem a = readByte s.flash.mem a)

/-- Rule R175: the page is dirty either way; success moves the offset on and completes with 1; failure raises FlashError,
leaves the offset and completes with 0. -/
def Obligations.SaveBookkeeping : Prop :=
  ∀ s : State,
    (s.store.op = .saveProgram (.done true) →
      storeStep s = .next { s with
        store := { s.store with
          pages := s.store.pages.set s.store.curPage ⟨true, BitVec.ofNat 8 s.store.curIndex.val⟩
          nextOffset := s.store.nextOffset + 16
          op := .idle
          buf := none }
        cmd := ⟨true, true⟩ }) ∧
    (s.store.op = .saveProgram (.done false) →
      storeStep s = .next { s with
        store := { s.store with
          pages := s.store.pages.set s.store.curPage ⟨true, s.store.pages[s.store.curPage].index⟩
          status := s.store.status ||| 0x01
          op := .idle
          buf := none }
        cmd := ⟨true, false⟩ })

/-- Rules R68, R162: RESTORE_CONFIG's first step gives every page its dirtiness and, behind a good magic and a usable index
byte, its rotating index; it changes nothing else. -/
def Obligations.RestoreScansPool : Prop :=
  ∀ s : State, s.store.op = .idle → s.flash.busy = false →
    ∃ t, exec .restoreConfig s = .next t ∧
      t = { s with store := { s.store with pages := t.store.pages, op := .restoreFind } } ∧
      ∀ i : Fin nPages,
        (t.store.pages[i].dirty = true ↔ ∃ off, off < 2048 ∧ poolByte s i.val off ≠ 0xFF) ∧
        (headerAt s i.val → t.store.pages[i].index = poolByte s i.val 4) ∧
        (¬headerAt s i.val → t.store.pages[i].index = 255)

/-- Rule R163: from the smallest index present the run of consecutive indices is followed to its end; the lowest page with
that index is current. With no index present, page 0 is current with index 0. -/
def Obligations.RestoreFindsCurrentPage : Prop :=
  ∀ s : State, s.store.op = .restoreFind → indicesLegal s.store.pages →
    ((∀ i : Fin nPages, s.store.pages[i].index = 255) →
      storeStep s = .next { s with store := { s.store with curPage := 0, curIndex := 0, op := .restoreReclaim 0 true false } }) ∧
    ((∃ i : Fin nPages, s.store.pages[i].index ≠ 255) →
      ∃ (t : State) (low : Nat), storeStep s = .next t ∧
        t = { s with store := { s.store with
          curPage := t.store.curPage
          curIndex := t.store.curIndex
          op := .restoreReclaim 0 true true } } ∧
        (∃ i : Fin nPages, s.store.pages[i].index.toNat = low) ∧
        (∀ i : Fin nPages, low ≤ s.store.pages[i].index.toNat) ∧
        low ≤ t.store.curIndex.val ∧
        (∀ x, low ≤ x → x ≤ t.store.curIndex.val → ∃ i : Fin nPages, s.store.pages[i].index.toNat = x) ∧
        (∀ i : Fin nPages, s.store.pages[i].index.toNat ≠ t.store.curIndex.val + 1) ∧
        s.store.pages[t.store.curPage].index.toNat = t.store.curIndex.val ∧
        (∀ i : Fin nPages, s.store.pages[i].index.toNat = t.store.curIndex.val → t.store.curPage ≤ i))

/-- Rule R165: with no error drawn, reclaiming erases every dirty page that is not current, and the current page when it has
no header, and leaves every other page alone. (An erased byte reads 0xFF, log entry 6.) -/
def Obligations.RestoreReclaimsStalePages : Prop :=
  ∀ (s : State) (found : Bool), MachineInv s → s.store.op = .restoreReclaim 0 true found → noErrorFor 20 s →
    ∃ n t, run n (undisturbed s) = .next t ∧ t.store.op = .restoreSnapshot true found ∧
      t.store.curPage = s.store.curPage ∧ t.store.curIndex = s.store.curIndex ∧ t.settings = s.settings ∧
      t.store.status = s.store.status ∧
      ∀ i : Fin nPages,
        ((s.store.pages[i].dirty = true ∧ (i ≠ s.store.curPage ∨ s.store.pages[i].index = 255)) →
          t.store.pages[i] = ⟨false, 255⟩ ∧ ∀ off, off < 2048 → poolByte t i.val off = 0xFF) ∧
        (¬(s.store.pages[i].dirty = true ∧ (i ≠ s.store.curPage ∨ s.store.pages[i].index = 255)) →
          t.store.pages[i] = s.store.pages[i] ∧ ∀ off, off < 2048 → poolByte t i.val off = poolByte s i.val off)

/-- Rule R165: after one erase of the reclaiming the page has no index; a failed erase leaves it dirty and raises FlashError. -/
def Obligations.ReclaimRecordsErase : Prop :=
  ∀ (s : State) (i : Fin nPages) (erased ok found : Bool), s.store.op = .restoreErase i.val (.done erased) ok found →
    ∃ t, storeStep s = .next t ∧
      t.store.pages[i] = ⟨if erased then false else s.store.pages[i].dirty, 255⟩ ∧
      (∀ j : Fin nPages, j ≠ i → t.store.pages[j] = s.store.pages[j]) ∧
      t.store.status = (if erased then s.store.status else s.store.status ||| 0x01) ∧
      t.store.op = .restoreReclaim (i.val + 1) (ok && erased) found ∧
      t = { s with store := { s.store with pages := t.store.pages, status := t.store.status, op := t.store.op } }

/-- Rule R166: the snapshot is the last block of the unbroken run of blocks with a good magic from the start of the current
page, and the next write goes right after it; with no header there is none and the next write goes to offset 0. -/
def Obligations.RestoreFindsSnapshot : Prop :=
  ∀ (s : State) (ok found : Bool), s.store.op = .restoreSnapshot ok found → s.flash.busy = false →
    (found = true → ∃ t j, storeStep s = .next t ∧ j < 128 ∧ t.store.nextOffset = j * 16 + 16 ∧
      t.store.op = .restoreCopy (j * 16) 0 ok ∧
      (∀ i, 1 ≤ i → i ≤ j → blockAt s s.store.curPage.val (i * 16)) ∧
      (j = 127 ∨ ¬blockAt s s.store.curPage.val ((j + 1) * 16)) ∧
      t = { s with store := { s.store with nextOffset := t.store.nextOffset, op := t.store.op } }) ∧
    (found = false → storeStep s = .next { s with store := { s.store with nextOffset := 0, op := .restoreFinish ok } })

/-- Rules R168, R169: undisturbed, the six bytes of the snapshot are copied into the settings and validated: all legal, they
stand; any above 2, all six become NONE and Corrupt is raised. That this takes seven steps, one a byte and one for the
validator, is the model's granularity, log entry 8. -/
def Obligations.RestoreCopiesAndValidates : Prop :=
  ∀ (s : State) (snapshot : Nat) (ok : Bool), MachineInv s → s.store.op = .restoreCopy snapshot 0 ok →
    ∃ t, run 7 (undisturbed s) = .next t ∧ t.store.op = .restoreFinish ok ∧ t.flash = s.flash ∧
      ((∀ n : Fin 6, (poolByte s s.store.curPage.val (snapshot + 5 + n.val)).toNat ≤ 2) →
        (∀ n : Fin 6, t.settings[n] = poolByte s s.store.curPage.val (snapshot + 5 + n.val)) ∧
        t.store.status = s.store.status) ∧
      ((∃ n : Fin 6, 2 < (poolByte s s.store.curPage.val (snapshot + 5 + n.val)).toNat) →
        (∀ n : Fin 6, t.settings[n] = 0) ∧ t.store.status = s.store.status ||| 0x04)

/-- Rule R160: the end of RESTORE_CONFIG makes the metadata valid and answers whether every erase succeeded. -/
def Obligations.RestoreCompletes : Prop :=
  ∀ (s : State) (ok : Bool), s.store.op = .restoreFinish ok →
    storeStep s = .next { s with
      store := { s.store with metaValid := true, op := .idle, buf := none }
      cmd := ⟨true, ok⟩ }

/-- Rules R72, R73, R252, R253: BOOT, from any state of the invariant, any flash contents and any draws, ends with the metadata
valid, no command in flight and legal settings: TICKs may begin. The bound on the steps of a script line is the model's, log
entry 19. -/
def Obligations.BootReachesTicking : Prop :=
  ∀ s : State, MachineInv s →
    ∃ t, runScript boot s = .next t ∧ t.store.op = .idle ∧ t.store.metaValid = true ∧ t.cmd.done = true ∧
      settingsLegal t.settings = true ∧ MachineInv t

/-- Rule R178: ERASE_CONFIG is taken when no store command is in flight, and begins with page 0. That the step that takes it
does no more is the model's granularity, log entry 8. -/
def Obligations.EraseConfigStarts : Prop :=
  ∀ s : State, s.store.op = .idle →
    exec .eraseConfig s = .next { s with store := { s.store with op := .eraseAll 0 .unlock true } }

/-- Rule R178: run to its end with the twenty error draws `es`, ERASE_CONFIG erases every page whose draw is no error, resets
all page metadata and the store position whatever the draws, raises FlashError if any draw is an error, answers 1 iff none
is, and leaves the settings, the pending flag and its anchor alone. (The run is a script
line's, at most 256 steps: the model's choice, log entry 19; that an erased byte reads 0xFF is log entry 6.) -/
def Obligations.EraseConfigErasesPool : Prop :=
  ∀ (s : State) (es : List Bool), MachineInv s → s.store.op = .idle → es.length = 20 → es <+: s.env.errors →
    ∃ t, runLine .eraseConfig s = .next t ∧ t.store.op = .idle ∧
      (∀ i : Fin nPages, t.store.pages[i] = ⟨false, 255⟩) ∧
      t.store.curPage = 0 ∧ t.store.curIndex = 0 ∧ t.store.nextOffset = 0 ∧ t.store.metaValid = true ∧
      (∀ i : Fin nPages, es[i.val]? = some false → ∀ off, off < 2048 → poolByte t i.val off = 0xFF) ∧
      (t.cmd.result = true ↔ ∀ e ∈ es, e = false) ∧
      t.store.status = (if true ∈ es then s.store.status ||| 0x01 else s.store.status) ∧
      t.settings = s.settings ∧ t.store.pending = s.store.pending ∧ t.store.anchor = s.store.anchor

/-- Rule R179 (a): on an erased pool RESTORE_CONFIG copies nothing and the settings are whatever they were. (The run is a
script line's, log entry 19; an erased pool reads 0xFF, log entry 6.) -/
def Obligations.ErasedPoolRestoresNothing : Prop :=
  ∀ s : State, MachineInv s → s.store.op = .idle → (∀ a, readByte s.flash.mem a = 0xFF) →
    ∃ t, runLine .restoreConfig s = .next t ∧ t.settings = s.settings ∧ t.store.metaValid = true ∧
      t.store.curPage = 0 ∧ t.store.curIndex = 0 ∧ t.store.nextOffset = 0 ∧ t.cmd = ⟨true, true⟩ ∧ t.flash = s.flash

/-- Rules R54, R179 (b): a forced save into an erased pool, a reset and a restore give back the six settings bytes. (The runs
are script lines', log entry 19; an erased pool reads 0xFF, log entry 6.) -/
def Obligations.SaveThenRestoreRoundTrip : Prop :=
  ∀ (s : State) (ms : Word32), MachineInv s → s.store.op = .idle → s.store.metaValid = true → s.store.nextOffset = 0 →
    (∀ a, readByte s.flash.mem a = 0xFF) → noErrorFor (16 / s.params.wblk) s →
    ∃ t, runScript (saveForce ms ++ boot) s = .next t ∧ t.settings = s.settings ∧ t.store.metaValid = true ∧
      t.store.curPage = s.store.curPage ∧ t.store.curIndex = s.store.curIndex ∧ t.store.nextOffset = 16 ∧
      t.store.status = 0

/-- Rules R29, R62, R206, R235: every store command in flight, left undisturbed, completes with `cmd_done`. The bound of 256
steps is the model's, log entry 19; that the controller drops busy is rule R206 with log entry 10. -/
def Obligations.StoreCommandCompletes : Prop :=
  ∀ s : State, MachineInv s → s.store.op ≠ .idle →
    ∃ n t, n ≤ 256 ∧ run n (undisturbed s) = .next t ∧ t.store.op = .idle ∧ t.cmd.done = true

/-- Rules R62, R172: a step leaves `cmd_done` high exactly if it ended a store command that was in flight, or took a
SAVE_CONFIG for which nothing was due and so ended that at once; then no command is in flight and the buffer is gone. That no
other command pulses it, and how long it stays high, is log entry 11. -/
def Obligations.CompletionPulses : Prop :=
  ∀ s t : State, step s = .next t →
    (t.cmd.done = true ↔ ((s.store.op ≠ .idle ∧ t.store.op = .idle ∧ ¬resetNext s) ∨ idleSaveNext s)) ∧
    (t.cmd.done = true → t.store.op = .idle ∧ t.store.buf = none)

/-! ### The flash controller -/

/-- Rules R201, R202, R205: unlocking, clearing the error flag and locking change that one bit; locking keeps the error flag. -/
def Obligations.FlashBitOperations : Prop :=
  ∀ s : State, s.flash.busy = false →
    exec .flUnlock s = .next { s with flash := { s.flash with locked := false } } ∧
    exec .flClrerr s = .next { s with flash := { s.flash with err := false } } ∧
    exec .flLock s = .next { s with flash := { s.flash with locked := true } }

/-- Rule R203: FL_PROG makes the controller busy; when it ends with no error drawn each target byte is old AND new, with an
error each is a draw and the error flag is set; no other byte changes and the controller is no longer busy. (A data line the
store did not drive is 0, log entry 25; old AND new is log entry 7; the busy state first, and all bytes at its end, is log
entry 10.) -/
def Obligations.FlashProgramEffect : Prop :=
  ∀ s : State, s.flash.mem.wf → s.flash.busy = false → s.flash.locked = false →
    s.fop.off % s.params.wblk = 0 → s.fop.pos < 20 → s.fop.off + s.params.wblk ≤ 2048 →
    ∃ t, exec .flProg s = .next t ∧
      t = { s with flash := { s.flash with job := some (.prog s.fop.pos s.fop.off (portData s.params s.fop)) } } ∧
      t.flash.busy = true ∧ (flashSettle t).flash.busy = false ∧ (flashSettle t).flash.locked = false ∧
      ((drawError s.env).1 = false →
        (flashSettle t).flash.err = s.flash.err ∧
        ∀ n, n < s.params.wblk → poolByte (flashSettle t) s.fop.pos (s.fop.off + n) =
          (poolByte s s.fop.pos (s.fop.off + n) &&& s.fop.data[n]?.getD 0)) ∧
      ((drawError s.env).1 = true →
        (flashSettle t).flash.err = true ∧
        ∀ n b, (drawBytes s.params.wblk (drawError s.env).2).1[n]? = some b →
          poolByte (flashSettle t) s.fop.pos (s.fop.off + n) = b) ∧
      (∀ a, (a < poolOffset s.fop.pos s.fop.off ∨ poolOffset s.fop.pos s.fop.off + s.params.wblk ≤ a) →
        readByte (flashSettle t).flash.mem a = readByte s.flash.mem a) ∧
      flashSettle t = { s with flash := (flashSettle t).flash, env := (flashSettle t).env }

/-- Rule R204: FL_ERASE makes the controller busy; when it ends with no error drawn the whole page reads 0xFF, with an error
each of its bytes is a draw and the error flag is set; no other page changes and the controller is no longer busy. (That an
erased byte reads 0xFF is log entry 6; the busy state first, and all bytes at its end, is log entry 10.) -/
def Obligations.FlashEraseEffect : Prop :=
  ∀ s : State, s.flash.mem.wf → s.flash.busy = false → s.flash.locked = false → s.fop.pos < 20 →
    ∃ t, exec .flErase s = .next t ∧ t = { s with flash := { s.flash with job := some (.erase s.fop.pos) } } ∧
      t.flash.busy = true ∧ (flashSettle t).flash.busy = false ∧ (flashSettle t).flash.locked = false ∧
      ((drawError s.env).1 = false →
        (flashSettle t).flash.err = s.flash.err ∧ ∀ off, off < 2048 → poolByte (flashSettle t) s.fop.pos off = 0xFF) ∧
      ((drawError s.env).1 = true →
        (flashSettle t).flash.err = true ∧
        ∀ n b, (drawPage (drawError s.env).2).1[n]? = some b → poolByte (flashSettle t) s.fop.pos n = b) ∧
      (∀ pos off, pos ≠ s.fop.pos → off < 2048 → poolByte (flashSettle t) pos off = poolByte s pos off) ∧
      flashSettle t = { s with flash := (flashSettle t).flash, env := (flashSettle t).env }

/-- Rule R207: every flash operation is refused while busy; a program or an erase while locked or outside the pool, and a
program that is misaligned or runs past its page, are refused. That the first clause names the busy controller also where the
operation breaks another precondition as well is the model's choice, log entry 15. -/
def Obligations.FlashOperationsRefused : Prop :=
  ∀ s : State,
    (s.flash.busy = true → ∀ i : Instr, i ∈ [Instr.flUnlock, .flClrerr, .flProg, .flErase, .flLock] →
      exec i s = .refused .flashBusy) ∧
    ((s.flash.locked = true ∨ 20 ≤ s.fop.pos) → ∃ r, exec .flErase s = .refused r) ∧
    ((s.flash.locked = true ∨ 20 ≤ s.fop.pos ∨ s.fop.off % s.params.wblk ≠ 0 ∨ 2048 < s.fop.off + s.params.wblk) →
      ∃ r, exec .flProg s = .refused r)

/-- Rules R42, R70, R155, R252, R262: where a command may not be issued it is refused. Which name it is refused by where it
breaks several preconditions is the model's choice, log entry 15; that a scan of a busy flash is a fault is the model's
reading, log entry 16 (no reachable state meets it). -/
def Obligations.CommandsRefused : Prop :=
  ∀ (s : State) (force : Bool),
    (s.store.op.isRestore = true → exec .tick s = .refused .tickDuringRestore) ∧
    (s.store.op.isRestore = false → s.store.metaValid = false → exec .tick s = .refused .beforeMetadata) ∧
    (s.store.op.isRestore = false → s.store.metaValid = true → (∃ i : Fin 10, 4095 < s.inputs.adc[i].toNat) →
      exec .tick s = .refused .sampleOutOfRange) ∧
    (s.store.op ≠ .idle →
      exec .restoreConfig s = .refused .storeCommandInFlight ∧
      exec (.saveConfig force) s = .refused .storeCommandInFlight ∧
      exec .eraseConfig s = .refused .storeCommandInFlight) ∧
    (s.store.op = .idle → s.store.metaValid = false → exec (.saveConfig force) s = .refused .beforeMetadata) ∧
    (s.store.op = .idle → s.flash.busy = true → exec .restoreConfig s = .fault .flashReadWhileBusy)

/-! ### Errors and reset -/

/-- Rules R26, R220: raising an error sets its one bit of `CFG_STATUS` and does nothing else. -/
def Obligations.RaiseSetsOneBit : Prop :=
  ∀ s : State,
    raiseError .flashError s = { s with store := { s.store with status := s.store.status ||| 0b001 } } ∧
    raiseError .noFreePage s = { s with store := { s.store with status := s.store.status ||| 0b010 } } ∧
    raiseError .corrupt s = { s with store := { s.store with status := s.store.status ||| 0b100 } }

/-- Rules R26, R220: the bits of `CFG_STATUS` are sticky: no step but the reset event clears one. -/
def Obligations.StatusBitsSticky : Prop :=
  ∀ s t : State, step s = .next t → ¬resetNext s → t.store.status &&& s.store.status = s.store.status

/-- Rules R30, R250, R251: after reset every element that rule R30's table gives a value has it, a factory-fresh part's flash
bytes all read 0xFF, and the reset event gives those values again and keeps every flash byte outside a flash operation that
it cuts (rule R254). That the pool of State.reset is factory-fresh and reads 0xFF is log entry 6, presumed; the bytes that a
cut operation puts at stake are those of log entry 10. -/
def Obligations.ResetGivesTableValues : Prop :=
  ResetValues State.reset ∧ (∀ pos off : Nat, poolByte State.reset pos off = 0xFF) ∧
  ∀ (s : State) (rest : List Event), s.params.wellFormed = true → s.fop.valid = false → s.env.events = .reset :: rest →
    ∃ t, step s = .next t ∧ ResetValues t ∧ t.env.events = rest ∧ t.params = s.params ∧
      ∀ a, (∀ j, s.flash.job = some j → ¬jobTarget j a) → readByte t.flash.mem a = readByte s.flash.mem a

/-! ### The whole machine -/

/-- The invariant of rule R31 (with the ranges of rules R13, R24, R26 and R97) holds right after reset. (State.reset's
configuration is REF, log entry 1; its unspecified elements are those of log entry 3.) -/
def Obligations.InvariantAtReset : Prop := MachineInv State.reset

/-- Rule R31: every step keeps the invariant. -/
def Obligations.InvariantKept : Prop :=
  ∀ s t : State, MachineInv s → step s = .next t → MachineInv t

/-- Rules R225, R235: from a state of the invariant no step faults, and the only refusals are of commands the environment
must not issue. -/
def Obligations.OnlyEnvironmentBreachesStop : Prop :=
  ∀ s : State, MachineInv s →
    (∀ f, step s ≠ .fault f) ∧ (∀ r, step s = .refused r → environmentBreach r = true)

/-- Rules R27, R203, R204, R254: a step changes no flash byte but those of the operation the controller is busy with. That the
step which executes FL_PROG or FL_ERASE changes no byte yet, and that all bytes change at one later step while the operation
stands, is the model's reading, log entry 10. -/
def Obligations.FlashChangesOnlyInItsOperation : Prop :=
  ∀ s t : State, step s = .next t → ∀ a, (∀ j, s.flash.job = some j → ¬jobTarget j a) →
    readByte t.flash.mem a = readByte s.flash.mem a

/-- Rules R14, R44, R143: the settings change only by a TICK, by the store steps that are the copy and the validator of
RESTORE_CONFIG, and by reset. -/
def Obligations.SettingsWriters : Prop :=
  ∀ s t : State, step s = .next t → t.settings ≠ s.settings → tickNext s ∨ resetNext s ∨ (s.store.op.copying = true ∧ storeStepNext s)

/-- Rules R10, R19: engine state and output registers change only by a TICK and by reset. -/
def Obligations.EngineWrittenByTickOnly : Prop :=
  ∀ s t : State, step s = .next t → ¬tickNext s → ¬resetNext s →
    t.lfo = s.lfo ∧ t.buttons = s.buttons ∧ t.envelopes = s.envelopes ∧ t.clock = s.clock ∧ t.out = s.out
end

