-- ==== Sys2Proof/Laws/Memory.lean ====
section
/-! SUPPORT. Memory.lean: the laws of the flash pool's memory. Reading after writing, what every memory operation leaves
alone, and the canonical form, which every memory operation keeps. -/

namespace Sys2Proof.Laws

open Sys2Proof.Machine Sys2Proof.Config

/-! ### One byte -/

@[simp] theorem readByte_nil (a : Nat) : readByte [] a = erasedByte := rfl

theorem readByte_cons (c : Host.Cell) (m : Memory) (a : Nat) :
    readByte (c :: m) a = if c.1 = a then c.2 else readByte m a := rfl

/-- An offset no cell lists reads as erased. -/
theorem readByte_unlisted {m : Memory} {a : Nat} (h : ∀ c ∈ m, c.1 ≠ a) : readByte m a = erasedByte := by
  induction m with
  | nil => rfl
  | cons c m ih =>
    rw [readByte_cons, if_neg (h c (by simp))]
    exact ih (fun d hd => h d (by simp [hd]))

/-- A byte that is not erased is listed. -/
theorem listed_of_readByte_ne {m : Memory} {a : Nat} (h : readByte m a ≠ erasedByte) : ∃ c ∈ m, c.1 = a := by
  by_contra hc
  exact h (readByte_unlisted (fun c hm he => hc ⟨c, hm, he⟩))

/-- In the canonical form a listed cell is what its offset reads as. -/
theorem readByte_of_mem {m : Memory} (hw : m.wf) {c : Host.Cell} (hc : c ∈ m) : readByte m c.1 = c.2 := by
  induction m with
  | nil => simp at hc
  | cons d m ih =>
    obtain ⟨hp, hv⟩ := hw
    rw [List.pairwise_cons] at hp
    rcases List.mem_cons.mp hc with rfl | hm
    · simp [readByte_cons]
    · rw [readByte_cons, if_neg (by have := hp.1 c hm; omega)]
      exact ih ⟨hp.2, fun x hx => hv x (by simp [hx])⟩ hm

theorem readByte_writeByte_ne (m : Memory) {a b : Nat} (v : Byte) (h : b ≠ a) :
    readByte (writeByte m a v) b = readByte m b := by
  induction m with
  | nil =>
    simp only [writeByte]
    split
    · rfl
    · rw [readByte_cons, if_neg (by simpa using h.symm)]
  | cons c m ih =>
    simp only [writeByte]
    split
    · split
      · rfl
      · rw [readByte_cons, if_neg (by simpa using h.symm)]
    · split
      · rename_i hac
        split
        · rw [readByte_cons, if_neg (by omega)]
        · rw [readByte_cons, readByte_cons, if_neg (by simpa using h.symm), if_neg (by omega)]
      · rw [readByte_cons, readByte_cons, ih]

theorem readByte_writeByte_self {m : Memory} (hw : m.wf) (a : Nat) (v : Byte) :
    readByte (writeByte m a v) a = v := by
  induction m with
  | nil =>
    simp only [writeByte]
    split
    · rename_i hv; rw [hv]; rfl
    · simp [readByte_cons]
  | cons c m ih =>
    obtain ⟨hp, hv⟩ := hw
    rw [List.pairwise_cons] at hp
    simp only [writeByte]
    split
    · rename_i hlt
      split
      · rename_i he
        rw [he]
        refine readByte_unlisted (fun d hd => ?_)
        rcases List.mem_cons.mp hd with rfl | hm
        · omega
        · have := hp.1 d hm; omega
      · simp [readByte_cons]
    · split
      · rename_i hac
        split
        · rename_i he
          rw [he]
          refine readByte_unlisted (fun d hd => ?_)
          have := hp.1 d hd
          omega
        · simp [readByte_cons]
      · rw [readByte_cons, if_neg (by omega)]
        exact ih ⟨hp.2, fun x hx => hv x (by simp [hx])⟩

/-- Every cell after a write is an old one or the one written. -/
theorem mem_writeByte {m : Memory} {a : Nat} {v : Byte} {c : Host.Cell} (h : c ∈ writeByte m a v) :
    c ∈ m ∨ (c = (a, v) ∧ v ≠ erasedByte) := by
  induction m with
  | nil =>
    simp only [writeByte] at h
    split at h
    · simp at h
    · rename_i hv
      exact .inr ⟨by simpa using h, hv⟩
  | cons d m ih =>
    simp only [writeByte] at h
    split at h
    · split at h
      · exact .inl h
      · rename_i hv
        rcases List.mem_cons.mp h with rfl | hm
        · exact .inr ⟨rfl, hv⟩
        · exact .inl hm
    · split at h
      · split at h
        · exact .inl (by simp [h])
        · rename_i hv
          rcases List.mem_cons.mp h with rfl | hm
          · exact .inr ⟨rfl, hv⟩
          · exact .inl (by simp [hm])
      · rcases List.mem_cons.mp h with rfl | hm
        · exact .inl (by simp)
        · rcases ih hm with hm | hm
          · exact .inl (by simp [hm])
          · exact .inr hm

theorem writeByte_pairwise {m : Memory} (hp : m.Pairwise (fun c d => c.1 < d.1)) (a : Nat) (v : Byte) :
    (writeByte m a v).Pairwise (fun c d => c.1 < d.1) := by
  induction m with
  | nil =>
    simp only [writeByte]
    split <;> simp
  | cons c m ih =>
    have hp0 := hp
    rw [List.pairwise_cons] at hp
    simp only [writeByte]
    split
    · rename_i hlt
      split
      · exact hp0
      · refine List.pairwise_cons.mpr ⟨fun d hd => ?_, hp0⟩
        rcases List.mem_cons.mp hd with rfl | hm
        · exact hlt
        · have := hp.1 d hm
          simp only
          omega
    · split
      · rename_i hac
        split
        · exact hp.2
        · refine List.pairwise_cons.mpr ⟨fun d hd => ?_, hp.2⟩
          have := hp.1 d hd
          simp only
          omega
      · refine List.pairwise_cons.mpr ⟨fun d hd => ?_, ih hp.2⟩
        rcases mem_writeByte hd with hm | ⟨rfl, -⟩
        · exact hp.1 d hm
        · simp only
          omega

/-- Writing a byte of the pool keeps the canonical form. -/
theorem writeByte_wf {m : Memory} (hw : m.wf) {a : Nat} (ha : a < poolBytes) (v : Byte) : (writeByte m a v).wf := by
  refine ⟨writeByte_pairwise hw.1 a v, fun c hc => ?_⟩
  rcases mem_writeByte hc with hm | ⟨rfl, hv⟩
  · exact hw.2 c hm
  · exact ⟨ha, hv⟩

/-! ### Several bytes -/

theorem writeBytes_wf {m : Memory} (hw : m.wf) {a : Nat} (vs : List Byte) (ha : a + vs.length ≤ poolBytes) :
    (writeBytes m a vs).wf := by
  induction vs generalizing m a with
  | nil => exact hw
  | cons v vs ih =>
    simp only [List.length_cons] at ha
    exact ih (writeByte_wf hw (by omega) v) (by omega)

/-- A byte outside the target bytes is as it was. -/
theorem readByte_writeBytes_outside (m : Memory) (a : Nat) (vs : List Byte) {b : Nat}
    (h : b < a ∨ a + vs.length ≤ b) : readByte (writeBytes m a vs) b = readByte m b := by
  induction vs generalizing m a with
  | nil => rfl
  | cons v vs ih =>
    simp only [List.length_cons] at h
    rw [writeBytes, ih (writeByte m a v) (a + 1) (by omega), readByte_writeByte_ne m v (by omega)]

/-- A target byte is the byte written there. -/
theorem readByte_writeBytes_inside {m : Memory} (hw : m.wf) (a : Nat) (vs : List Byte) (ha : a + vs.length ≤ poolBytes)
    {n : Nat} (h : n < vs.length) : readByte (writeBytes m a vs) (a + n) = vs[n] := by
  induction vs generalizing m a n with
  | nil => simp at h
  | cons v vs ih =>
    simp only [List.length_cons] at h ha
    rw [writeBytes]
    cases n with
    | zero =>
      rw [readByte_writeBytes_outside _ _ _ (by omega)]
      exact readByte_writeByte_self hw a v
    | succ n =>
      have := ih (writeByte_wf hw (a := a) (by omega) v) (a + 1) (by omega) (n := n) (by omega)
      rw [show a + (n + 1) = a + 1 + n by omega, this]
      simp

@[simp] theorem readBytes_length (m : Memory) (a n : Nat) : (readBytes m a n).length = n := by
  induction n generalizing a with
  | zero => rfl
  | succ n ih => simp [readBytes, ih]

theorem readBytes_getElem (m : Memory) (a n i : Nat) (h : i < (readBytes m a n).length) :
    (readBytes m a n)[i] = readByte m (a + i) := by
  induction n generalizing a i with
  | zero => simp [readBytes] at h
  | succ n ih =>
    cases i with
    | zero => simp [readBytes]
    | succ i =>
      simp only [readBytes, List.getElem_cons_succ]
      rw [ih, show a + 1 + i = a + (i + 1) by omega]

@[simp] theorem programmed_length (m : Memory) (a : Nat) (ds : List Byte) : (programmed m a ds).length = ds.length := by
  induction ds generalizing a with
  | nil => rfl
  | cons d ds ih => simp [programmed, ih]

/-- Each programmed byte is the AND of the old contents and the data (rule R203). -/
theorem programmed_getElem (m : Memory) (a : Nat) (ds : List Byte) (n : Nat) (h : n < ds.length) :
    (programmed m a ds)[n]'(by simpa using h) = (readByte m (a + n) &&& ds[n]) := by
  induction ds generalizing a n with
  | nil => simp at h
  | cons d ds ih =>
    cases n with
    | zero => simp [programmed]
    | succ n =>
      simp only [programmed, List.getElem_cons_succ]
      rw [ih (a + 1) n (by simpa using h), show a + 1 + n = a + (n + 1) by omega]

/-! ### Pages -/

theorem erasePage_wf {m : Memory} (hw : m.wf) (pos : Nat) : (erasePage m pos).wf :=
  ⟨hw.1.filter _, fun c hc => hw.2 c (List.mem_of_mem_filter hc)⟩

/-- An erased page reads as erased everywhere (rule R204). -/
theorem readByte_erasePage_inside (m : Memory) {pos a : Nat} (h : pageOf a = pos) :
    readByte (erasePage m pos) a = erasedByte := by
  refine readByte_unlisted (fun c hc he => ?_)
  have := (List.mem_filter.mp hc).2
  simp only [decide_eq_true_eq] at this
  exact this (he ▸ h)

/-- "No other page changes" (rule R204). -/
theorem readByte_erasePage_outside (m : Memory) {pos a : Nat} (h : pageOf a ≠ pos) :
    readByte (erasePage m pos) a = readByte m a := by
  induction m with
  | nil => rfl
  | cons c m ih =>
    rw [erasePage, List.filter_cons]
    split
    · rw [readByte_cons, readByte_cons]
      split
      · rfl
      · exact ih
    · rename_i hc
      simp only [ne_eq, decide_not, Bool.not_eq_true', decide_eq_false_iff_not, not_not] at hc
      rw [readByte_cons, if_neg (fun he : c.1 = a => h (he ▸ hc))]
      exact ih

/-- The dirty flag is "contains any non-erased byte", on every memory (rule R162). -/
theorem pageDirty_iff (m : Memory) (pos : Nat) :
    pageDirty m pos = true ↔ ∃ a, pageOf a = pos ∧ readByte m a ≠ erasedByte := by
  simp only [pageDirty, List.any_eq_true, Bool.and_eq_true, decide_eq_true_eq]
  constructor
  · rintro ⟨c, -, hp, hr⟩
    exact ⟨c.1, hp, hr⟩
  · rintro ⟨a, hp, hr⟩
    obtain ⟨c, hc, rfl⟩ := listed_of_readByte_ne hr
    exact ⟨c, hc, hp, hr⟩

/-- A location inside a page has that page's position (rule R49). -/
theorem pageOf_poolOffset {pos off : Nat} (h : off < pageSize) : pageOf (poolOffset pos off) = pos := by
  unfold pageOf poolOffset
  rw [Nat.mul_comm, Nat.mul_add_div (by decide), Nat.div_eq_of_lt h, Nat.add_zero]

/-- Two canonical memories that read alike everywhere are the same data. -/
theorem wf_ext {m n : Memory} (hm : m.wf) (hn : n.wf) (h : ∀ a, readByte m a = readByte n a) : m = n := by
  induction m generalizing n with
  | nil =>
    cases n with
    | nil => rfl
    | cons d n =>
      have := readByte_of_mem hn (c := d) (by simp)
      rw [← h d.1] at this
      exact absurd this.symm (hn.2 d (by simp)).2
  | cons c m ih =>
    have hc := readByte_of_mem hm (c := c) (by simp)
    have hpm := List.pairwise_cons.mp hm.1
    have hm' : Memory.wf m := ⟨hpm.2, fun x hx => hm.2 x (by simp [hx])⟩
    cases n with
    | nil =>
      rw [h c.1] at hc
      exact absurd hc.symm (hm.2 c (by simp)).2
    | cons d n =>
      have hd := readByte_of_mem hn (c := d) (by simp)
      have hpn := List.pairwise_cons.mp hn.1
      have hn' : Memory.wf n := ⟨hpn.2, fun x hx => hn.2 x (by simp [hx])⟩
      have key : c.1 = d.1 := by
        have h1 : ∃ x ∈ d :: n, x.1 = c.1 := listed_of_readByte_ne (by rw [← h, hc]; exact (hm.2 c (by simp)).2)
        have h2 : ∃ x ∈ c :: m, x.1 = d.1 := listed_of_readByte_ne (by rw [h, hd]; exact (hn.2 d (by simp)).2)
        obtain ⟨x, hx, hxc⟩ := h1
        obtain ⟨y, hy, hyd⟩ := h2
        rcases List.mem_cons.mp hx with rfl | hx
        · exact hxc.symm
        · rcases List.mem_cons.mp hy with rfl | hy
          · exact hyd
          · have := hpn.1 x hx
            have := hpm.1 y hy
            omega
      have heq : c = d := Prod.ext key (by rw [← hc, ← hd, key, h])
      subst heq
      congr 1
      refine ih hm' hn' (fun a => ?_)
      have := h a
      rw [readByte_cons, readByte_cons] at this
      by_cases hca : c.1 = a
      · have e1 : readByte m a = erasedByte := readByte_unlisted (fun x hx => by have := hpm.1 x hx; omega)
        have e2 : readByte n a = erasedByte := readByte_unlisted (fun x hx => by have := hpn.1 x hx; omega)
        rw [e1, e2]
      · simpa [hca] using this

/-- The factory-fresh pool is in canonical form. -/
theorem reset_memory_wf : State.reset.flash.mem.wf := by decide

end Sys2Proof.Laws
end

