-- ==== Sys2Proof/Laws/State.lean ====
section
/-! SUPPORT. State.lean: the small lemmas of the named updates of State, one per field and update, each true
    by `rfl`. -/

namespace Sys2Proof.Laws

open Sys2Proof.Machine

/-! ### `raiseError` -/

@[simp] theorem raiseError_tickCounter (e : ErrorCause) (s : State) : (raiseError e s).tickCounter = s.tickCounter :=
    rfl

@[simp] theorem raiseError_lfo (e : ErrorCause) (s : State) : (raiseError e s).lfo = s.lfo := rfl

@[simp] theorem raiseError_buttons (e : ErrorCause) (s : State) : (raiseError e s).buttons = s.buttons := rfl

@[simp] theorem raiseError_envelopes (e : ErrorCause) (s : State) : (raiseError e s).envelopes = s.envelopes := rfl

@[simp] theorem raiseError_clock (e : ErrorCause) (s : State) : (raiseError e s).clock = s.clock := rfl

@[simp] theorem raiseError_out (e : ErrorCause) (s : State) : (raiseError e s).out = s.out := rfl

@[simp] theorem raiseError_settings (e : ErrorCause) (s : State) : (raiseError e s).settings = s.settings := rfl

@[simp] theorem raiseError_store_pending (e : ErrorCause) (s : State) :
    (raiseError e s).store.pending = s.store.pending := rfl

@[simp] theorem raiseError_store_anchor (e : ErrorCause) (s : State) :
    (raiseError e s).store.anchor = s.store.anchor := rfl

@[simp] theorem raiseError_store_metaValid (e : ErrorCause) (s : State) :
    (raiseError e s).store.metaValid = s.store.metaValid := rfl

@[simp] theorem raiseError_store_curPage (e : ErrorCause) (s : State) :
    (raiseError e s).store.curPage = s.store.curPage := rfl

@[simp] theorem raiseError_store_curIndex (e : ErrorCause) (s : State) :
    (raiseError e s).store.curIndex = s.store.curIndex := rfl

@[simp] theorem raiseError_store_nextOffset (e : ErrorCause) (s : State) :
    (raiseError e s).store.nextOffset = s.store.nextOffset := rfl

@[simp] theorem raiseError_store_pages (e : ErrorCause) (s : State) : (raiseError e s).store.pages = s.store.pages :=
    rfl

@[simp] theorem raiseError_store_status (e : ErrorCause) (s : State) :
    (raiseError e s).store.status = s.store.status ||| statusMask e := rfl

@[simp] theorem raiseError_store_op (e : ErrorCause) (s : State) : (raiseError e s).store.op = s.store.op := rfl

@[simp] theorem raiseError_store_buf (e : ErrorCause) (s : State) : (raiseError e s).store.buf = s.store.buf := rfl

@[simp] theorem raiseError_flash (e : ErrorCause) (s : State) : (raiseError e s).flash = s.flash := rfl

@[simp] theorem raiseError_cmd (e : ErrorCause) (s : State) : (raiseError e s).cmd = s.cmd := rfl

@[simp] theorem raiseError_fop (e : ErrorCause) (s : State) : (raiseError e s).fop = s.fop := rfl

@[simp] theorem raiseError_inputs (e : ErrorCause) (s : State) : (raiseError e s).inputs = s.inputs := rfl

@[simp] theorem raiseError_params (e : ErrorCause) (s : State) : (raiseError e s).params = s.params := rfl

@[simp] theorem raiseError_env (e : ErrorCause) (s : State) : (raiseError e s).env = s.env := rfl

/-! ### `setOp` -/

@[simp] theorem setOp_tickCounter (op : StoreOp) (s : State) : (setOp op s).tickCounter = s.tickCounter := rfl

@[simp] theorem setOp_lfo (op : StoreOp) (s : State) : (setOp op s).lfo = s.lfo := rfl

@[simp] theorem setOp_buttons (op : StoreOp) (s : State) : (setOp op s).buttons = s.buttons := rfl

@[simp] theorem setOp_envelopes (op : StoreOp) (s : State) : (setOp op s).envelopes = s.envelopes := rfl

@[simp] theorem setOp_clock (op : StoreOp) (s : State) : (setOp op s).clock = s.clock := rfl

@[simp] theorem setOp_out (op : StoreOp) (s : State) : (setOp op s).out = s.out := rfl

@[simp] theorem setOp_settings (op : StoreOp) (s : State) : (setOp op s).settings = s.settings := rfl

@[simp] theorem setOp_store_pending (op : StoreOp) (s : State) : (setOp op s).store.pending = s.store.pending := rfl

@[simp] theorem setOp_store_anchor (op : StoreOp) (s : State) : (setOp op s).store.anchor = s.store.anchor := rfl

@[simp] theorem setOp_store_metaValid (op : StoreOp) (s : State) : (setOp op s).store.metaValid = s.store.metaValid :=
    rfl

@[simp] theorem setOp_store_curPage (op : StoreOp) (s : State) : (setOp op s).store.curPage = s.store.curPage := rfl

@[simp] theorem setOp_store_curIndex (op : StoreOp) (s : State) : (setOp op s).store.curIndex = s.store.curIndex := rfl

@[simp] theorem setOp_store_nextOffset (op : StoreOp) (s : State) :
    (setOp op s).store.nextOffset = s.store.nextOffset := rfl

@[simp] theorem setOp_store_pages (op : StoreOp) (s : State) : (setOp op s).store.pages = s.store.pages := rfl

@[simp] theorem setOp_store_status (op : StoreOp) (s : State) : (setOp op s).store.status = s.store.status := rfl

@[simp] theorem setOp_store_op (op : StoreOp) (s : State) : (setOp op s).store.op = op := rfl

@[simp] theorem setOp_store_buf (op : StoreOp) (s : State) : (setOp op s).store.buf = s.store.buf := rfl

@[simp] theorem setOp_flash (op : StoreOp) (s : State) : (setOp op s).flash = s.flash := rfl

@[simp] theorem setOp_cmd (op : StoreOp) (s : State) : (setOp op s).cmd = s.cmd := rfl

@[simp] theorem setOp_fop (op : StoreOp) (s : State) : (setOp op s).fop = s.fop := rfl

@[simp] theorem setOp_inputs (op : StoreOp) (s : State) : (setOp op s).inputs = s.inputs := rfl

@[simp] theorem setOp_params (op : StoreOp) (s : State) : (setOp op s).params = s.params := rfl

@[simp] theorem setOp_env (op : StoreOp) (s : State) : (setOp op s).env = s.env := rfl

/-! ### `complete` -/

@[simp] theorem complete_tickCounter (r : Bool) (s : State) : (complete r s).tickCounter = s.tickCounter := rfl

@[simp] theorem complete_lfo (r : Bool) (s : State) : (complete r s).lfo = s.lfo := rfl

@[simp] theorem complete_buttons (r : Bool) (s : State) : (complete r s).buttons = s.buttons := rfl

@[simp] theorem complete_envelopes (r : Bool) (s : State) : (complete r s).envelopes = s.envelopes := rfl

@[simp] theorem complete_clock (r : Bool) (s : State) : (complete r s).clock = s.clock := rfl

@[simp] theorem complete_out (r : Bool) (s : State) : (complete r s).out = s.out := rfl

@[simp] theorem complete_settings (r : Bool) (s : State) : (complete r s).settings = s.settings := rfl

@[simp] theorem complete_store_pending (r : Bool) (s : State) : (complete r s).store.pending = s.store.pending := rfl

@[simp] theorem complete_store_anchor (r : Bool) (s : State) : (complete r s).store.anchor = s.store.anchor := rfl

@[simp] theorem complete_store_metaValid (r : Bool) (s : State) : (complete r s).store.metaValid = s.store.metaValid :=
    rfl

@[simp] theorem complete_store_curPage (r : Bool) (s : State) : (complete r s).store.curPage = s.store.curPage := rfl

@[simp] theorem complete_store_curIndex (r : Bool) (s : State) : (complete r s).store.curIndex = s.store.curIndex := rfl

@[simp] theorem complete_store_nextOffset (r : Bool) (s : State) :
    (complete r s).store.nextOffset = s.store.nextOffset := rfl

@[simp] theorem complete_store_pages (r : Bool) (s : State) : (complete r s).store.pages = s.store.pages := rfl

@[simp] theorem complete_store_status (r : Bool) (s : State) : (complete r s).store.status = s.store.status := rfl

@[simp] theorem complete_store_op (r : Bool) (s : State) : (complete r s).store.op = .idle := rfl

@[simp] theorem complete_store_buf (r : Bool) (s : State) : (complete r s).store.buf = none := rfl

@[simp] theorem complete_flash (r : Bool) (s : State) : (complete r s).flash = s.flash := rfl

@[simp] theorem complete_cmd (r : Bool) (s : State) : (complete r s).cmd = ⟨true, r⟩ := rfl

@[simp] theorem complete_fop (r : Bool) (s : State) : (complete r s).fop = s.fop := rfl

@[simp] theorem complete_inputs (r : Bool) (s : State) : (complete r s).inputs = s.inputs := rfl

@[simp] theorem complete_params (r : Bool) (s : State) : (complete r s).params = s.params := rfl

@[simp] theorem complete_env (r : Bool) (s : State) : (complete r s).env = s.env := rfl

/-! ### `scheduleSave` -/

@[simp] theorem scheduleSave_tickCounter (now : Word32) (s : State) :
    (scheduleSave now s).tickCounter = s.tickCounter := rfl

@[simp] theorem scheduleSave_lfo (now : Word32) (s : State) : (scheduleSave now s).lfo = s.lfo := rfl

@[simp] theorem scheduleSave_buttons (now : Word32) (s : State) : (scheduleSave now s).buttons = s.buttons := rfl

@[simp] theorem scheduleSave_envelopes (now : Word32) (s : State) : (scheduleSave now s).envelopes = s.envelopes := rfl

@[simp] theorem scheduleSave_clock (now : Word32) (s : State) : (scheduleSave now s).clock = s.clock := rfl

@[simp] theorem scheduleSave_out (now : Word32) (s : State) : (scheduleSave now s).out = s.out := rfl

@[simp] theorem scheduleSave_settings (now : Word32) (s : State) : (scheduleSave now s).settings = s.settings := rfl

@[simp] theorem scheduleSave_store_pending (now : Word32) (s : State) : (scheduleSave now s).store.pending = true := rfl

@[simp] theorem scheduleSave_store_anchor (now : Word32) (s : State) : (scheduleSave now s).store.anchor = now := rfl

@[simp] theorem scheduleSave_store_metaValid (now : Word32) (s : State) :
    (scheduleSave now s).store.metaValid = s.store.metaValid := rfl

@[simp] theorem scheduleSave_store_curPage (now : Word32) (s : State) :
    (scheduleSave now s).store.curPage = s.store.curPage := rfl

@[simp] theorem scheduleSave_store_curIndex (now : Word32) (s : State) :
    (scheduleSave now s).store.curIndex = s.store.curIndex := rfl

@[simp] theorem scheduleSave_store_nextOffset (now : Word32) (s : State) :
    (scheduleSave now s).store.nextOffset = s.store.nextOffset := rfl

@[simp] theorem scheduleSave_store_pages (now : Word32) (s : State) :
    (scheduleSave now s).store.pages = s.store.pages := rfl

@[simp] theorem scheduleSave_store_status (now : Word32) (s : State) :
    (scheduleSave now s).store.status = s.store.status := rfl

@[simp] theorem scheduleSave_store_op (now : Word32) (s : State) : (scheduleSave now s).store.op = s.store.op := rfl

@[simp] theorem scheduleSave_store_buf (now : Word32) (s : State) : (scheduleSave now s).store.buf = s.store.buf := rfl

@[simp] theorem scheduleSave_flash (now : Word32) (s : State) : (scheduleSave now s).flash = s.flash := rfl

@[simp] theorem scheduleSave_cmd (now : Word32) (s : State) : (scheduleSave now s).cmd = s.cmd := rfl

@[simp] theorem scheduleSave_fop (now : Word32) (s : State) : (scheduleSave now s).fop = s.fop := rfl

@[simp] theorem scheduleSave_inputs (now : Word32) (s : State) : (scheduleSave now s).inputs = s.inputs := rfl

@[simp] theorem scheduleSave_params (now : Word32) (s : State) : (scheduleSave now s).params = s.params := rfl

@[simp] theorem scheduleSave_env (now : Word32) (s : State) : (scheduleSave now s).env = s.env := rfl

/-! ### `endPulse` -/

@[simp] theorem endPulse_tickCounter (s : State) : (endPulse s).tickCounter = s.tickCounter := rfl

@[simp] theorem endPulse_lfo (s : State) : (endPulse s).lfo = s.lfo := rfl

@[simp] theorem endPulse_buttons (s : State) : (endPulse s).buttons = s.buttons := rfl

@[simp] theorem endPulse_envelopes (s : State) : (endPulse s).envelopes = s.envelopes := rfl

@[simp] theorem endPulse_clock (s : State) : (endPulse s).clock = s.clock := rfl

@[simp] theorem endPulse_out (s : State) : (endPulse s).out = s.out := rfl

@[simp] theorem endPulse_settings (s : State) : (endPulse s).settings = s.settings := rfl

@[simp] theorem endPulse_store (s : State) : (endPulse s).store = s.store := rfl

@[simp] theorem endPulse_flash (s : State) : (endPulse s).flash = s.flash := rfl

@[simp] theorem endPulse_cmd (s : State) : (endPulse s).cmd = { s.cmd with done := false } := rfl

@[simp] theorem endPulse_fop (s : State) : (endPulse s).fop = s.fop := rfl

@[simp] theorem endPulse_inputs (s : State) : (endPulse s).inputs = s.inputs := rfl

@[simp] theorem endPulse_params (s : State) : (endPulse s).params = s.params := rfl

@[simp] theorem endPulse_env (s : State) : (endPulse s).env = s.env := rfl

/-! ### `present` -/

@[simp] theorem present_tickCounter (w : BitVec 3) (pos off : Nat) (d : List Byte) (s : State) :
    (present w pos off d s).tickCounter = s.tickCounter := rfl

@[simp] theorem present_lfo (w : BitVec 3) (pos off : Nat) (d : List Byte) (s : State) :
    (present w pos off d s).lfo = s.lfo := rfl

@[simp] theorem present_buttons (w : BitVec 3) (pos off : Nat) (d : List Byte) (s : State) :
    (present w pos off d s).buttons = s.buttons := rfl

@[simp] theorem present_envelopes (w : BitVec 3) (pos off : Nat) (d : List Byte) (s : State) :
    (present w pos off d s).envelopes = s.envelopes := rfl

@[simp] theorem present_clock (w : BitVec 3) (pos off : Nat) (d : List Byte) (s : State) :
    (present w pos off d s).clock = s.clock := rfl

@[simp] theorem present_out (w : BitVec 3) (pos off : Nat) (d : List Byte) (s : State) :
    (present w pos off d s).out = s.out := rfl

@[simp] theorem present_settings (w : BitVec 3) (pos off : Nat) (d : List Byte) (s : State) :
    (present w pos off d s).settings = s.settings := rfl

@[simp] theorem present_store (w : BitVec 3) (pos off : Nat) (d : List Byte) (s : State) :
    (present w pos off d s).store = s.store := rfl

@[simp] theorem present_flash (w : BitVec 3) (pos off : Nat) (d : List Byte) (s : State) :
    (present w pos off d s).flash = s.flash := rfl

@[simp] theorem present_cmd (w : BitVec 3) (pos off : Nat) (d : List Byte) (s : State) :
    (present w pos off d s).cmd = s.cmd := rfl

@[simp] theorem present_fop (w : BitVec 3) (pos off : Nat) (d : List Byte) (s : State) : (present w pos off d s).fop =
    ⟨true, w, pos, off, d⟩ := rfl

@[simp] theorem present_inputs (w : BitVec 3) (pos off : Nat) (d : List Byte) (s : State) :
    (present w pos off d s).inputs = s.inputs := rfl

@[simp] theorem present_params (w : BitVec 3) (pos off : Nat) (d : List Byte) (s : State) :
    (present w pos off d s).params = s.params := rfl

@[simp] theorem present_env (w : BitVec 3) (pos off : Nat) (d : List Byte) (s : State) :
    (present w pos off d s).env = s.env := rfl

/-! ### `setFlash` -/

@[simp] theorem setFlash_tickCounter (f : Flash) (s : State) : (setFlash f s).tickCounter = s.tickCounter := rfl

@[simp] theorem setFlash_lfo (f : Flash) (s : State) : (setFlash f s).lfo = s.lfo := rfl

@[simp] theorem setFlash_buttons (f : Flash) (s : State) : (setFlash f s).buttons = s.buttons := rfl

@[simp] theorem setFlash_envelopes (f : Flash) (s : State) : (setFlash f s).envelopes = s.envelopes := rfl

@[simp] theorem setFlash_clock (f : Flash) (s : State) : (setFlash f s).clock = s.clock := rfl

@[simp] theorem setFlash_out (f : Flash) (s : State) : (setFlash f s).out = s.out := rfl

@[simp] theorem setFlash_settings (f : Flash) (s : State) : (setFlash f s).settings = s.settings := rfl

@[simp] theorem setFlash_store (f : Flash) (s : State) : (setFlash f s).store = s.store := rfl

@[simp] theorem setFlash_flash (f : Flash) (s : State) : (setFlash f s).flash = f := rfl

@[simp] theorem setFlash_cmd (f : Flash) (s : State) : (setFlash f s).cmd = s.cmd := rfl

@[simp] theorem setFlash_fop (f : Flash) (s : State) : (setFlash f s).fop = s.fop := rfl

@[simp] theorem setFlash_inputs (f : Flash) (s : State) : (setFlash f s).inputs = s.inputs := rfl

@[simp] theorem setFlash_params (f : Flash) (s : State) : (setFlash f s).params = s.params := rfl

@[simp] theorem setFlash_env (f : Flash) (s : State) : (setFlash f s).env = s.env := rfl

/-! ### `updateLfo` -/

@[simp] theorem updateLfo_tickCounter (k : Fin 3) (f : Lfo → Lfo) (s : State) :
    (updateLfo k f s).tickCounter = s.tickCounter := rfl

@[simp] theorem updateLfo_lfo (k : Fin 3) (f : Lfo → Lfo) (s : State) : (updateLfo k f s).lfo = s.lfo.set k
    (f s.lfo[k]) := rfl

@[simp] theorem updateLfo_buttons (k : Fin 3) (f : Lfo → Lfo) (s : State) : (updateLfo k f s).buttons = s.buttons := rfl

@[simp] theorem updateLfo_envelopes (k : Fin 3) (f : Lfo → Lfo) (s : State) :
    (updateLfo k f s).envelopes = s.envelopes := rfl

@[simp] theorem updateLfo_clock (k : Fin 3) (f : Lfo → Lfo) (s : State) : (updateLfo k f s).clock = s.clock := rfl

@[simp] theorem updateLfo_out (k : Fin 3) (f : Lfo → Lfo) (s : State) : (updateLfo k f s).out = s.out := rfl

@[simp] theorem updateLfo_settings (k : Fin 3) (f : Lfo → Lfo) (s : State) : (updateLfo k f s).settings = s.settings :=
    rfl

@[simp] theorem updateLfo_store (k : Fin 3) (f : Lfo → Lfo) (s : State) : (updateLfo k f s).store = s.store := rfl

@[simp] theorem updateLfo_flash (k : Fin 3) (f : Lfo → Lfo) (s : State) : (updateLfo k f s).flash = s.flash := rfl

@[simp] theorem updateLfo_cmd (k : Fin 3) (f : Lfo → Lfo) (s : State) : (updateLfo k f s).cmd = s.cmd := rfl

@[simp] theorem updateLfo_fop (k : Fin 3) (f : Lfo → Lfo) (s : State) : (updateLfo k f s).fop = s.fop := rfl

@[simp] theorem updateLfo_inputs (k : Fin 3) (f : Lfo → Lfo) (s : State) : (updateLfo k f s).inputs = s.inputs := rfl

@[simp] theorem updateLfo_params (k : Fin 3) (f : Lfo → Lfo) (s : State) : (updateLfo k f s).params = s.params := rfl

@[simp] theorem updateLfo_env (k : Fin 3) (f : Lfo → Lfo) (s : State) : (updateLfo k f s).env = s.env := rfl

end Sys2Proof.Laws
end

