-- ==== Sys2Proof/Laws/Ops.lean ====
section
/-! SUPPORT. Ops.lean: for each shared operation, what it can do, said once. -/

namespace Sys2Proof.Laws

open Sys2Proof.Machine Sys2Proof.Config

/-! ### Draws -/

/-- A boolean draw takes the tape's next value, or a free value; it leaves the schedule and the byte tape alone. -/
theorem drawError_spec (e : Env) :
    (∃ bs, e.errors = (drawError e).1 :: bs ∧ (drawError e).2 = { e with errors := bs }) ∨
    (e.errors = [] ∧ drawError e = (freeError e.drawn, { e with drawn := e.drawn + 1 })) := by
  unfold drawError
  cases h : e.errors with
  | nil => exact .inr ⟨rfl, rfl⟩
  | cons b bs => exact .inl ⟨bs, rfl, rfl⟩

@[simp] theorem drawError_events (e : Env) : (drawError e).2.events = e.events := by
  unfold drawError
  split <;> rfl

@[simp] theorem drawError_bytes (e : Env) : (drawError e).2.bytes = e.bytes := by
  unfold drawError
  split <;> rfl

/-- A byte draw takes the tape's next value, or a free value; it leaves the schedule and the error tape alone. -/
theorem drawByte_spec (e : Env) :
    (∃ bs, e.bytes = (drawByte e).1 :: bs ∧ (drawByte e).2 = { e with bytes := bs }) ∨
    (e.bytes = [] ∧ drawByte e = (freeByte e.drawn, { e with drawn := e.drawn + 1 })) := by
  unfold drawByte
  cases h : e.bytes with
  | nil => exact .inr ⟨rfl, rfl⟩
  | cons b bs => exact .inl ⟨bs, rfl, rfl⟩

@[simp] theorem drawByte_events (e : Env) : (drawByte e).2.events = e.events := by
  unfold drawByte
  split <;> rfl

@[simp] theorem drawByte_errors (e : Env) : (drawByte e).2.errors = e.errors := by
  unfold drawByte
  split <;> rfl

@[simp] theorem drawBytes_length (n : Nat) (e : Env) : (drawBytes n e).1.length = n := by
  induction n generalizing e with
  | zero => rfl
  | succ n ih => simp [drawBytes, ih]

@[simp] theorem drawBytes_events (n : Nat) (e : Env) : (drawBytes n e).2.events = e.events := by
  induction n generalizing e with
  | zero => rfl
  | succ n ih => simp [drawBytes, ih]

@[simp] theorem drawBytes_errors (n : Nat) (e : Env) : (drawBytes n e).2.errors = e.errors := by
  induction n generalizing e with
  | zero => rfl
  | succ n ih => simp [drawBytes, ih]

@[simp] theorem drawPage_length (e : Env) : (drawPage e).1.length = pageSize := by
  unfold drawPage
  rw [drawBytes_length]

@[simp] theorem drawPage_events (e : Env) : (drawPage e).2.events = e.events := by
  unfold drawPage
  rw [drawBytes_events]

@[simp] theorem drawPage_errors (e : Env) : (drawPage e).2.errors = e.errors := by
  unfold drawPage
  rw [drawBytes_errors]

/-! ### Page descriptors -/

theorem updatePage_self (i : Nat) (h : i < nPages) (f : PageDesc → PageDesc) (pages : Vector PageDesc nPages) :
    (updatePage i f pages)[i] = f pages[i] := by
  simp [updatePage, h]

theorem updatePage_ne (i j : Nat) (hj : j < nPages) (f : PageDesc → PageDesc) (pages : Vector PageDesc nPages)
    (hij : i ≠ j) : (updatePage i f pages)[j] = pages[j] := by
  unfold updatePage
  split
  · rw [Vector.getElem_set_ne]
    exact hij
  · rfl

/-! ### The flash controller -/

theorem flashSettle_idle {s : State} (h : s.flash.job = none) : flashSettle s = s := by
  simp [flashSettle, h]

/-- The memory after a program operation ends is a write of as many bytes as its data to its target. -/
theorem settleProgram_spec (pos off : Nat) (data : List Byte) (s : State) :
    ∃ bs err e, settleProgram pos off data s =
        { s with flash := ⟨writeBytes s.flash.mem (poolOffset pos off) bs, s.flash.locked, err, none⟩, env := e } ∧
      bs.length = data.length ∧ e.events = s.env.events ∧ (s.flash.err = true → err = true) := by
  unfold settleProgram
  simp only
  split
  · exact ⟨_, _, _, rfl, by simp, by simp, fun _ => rfl⟩
  · exact ⟨_, _, _, rfl, by simp, by simp, id⟩

/-- The memory after an erase operation ends is the erased page, or a write of a page of bytes to it. -/
theorem settleErase_spec (pos : Nat) (s : State) :
    ∃ mem err e, settleErase pos s = { s with flash := ⟨mem, s.flash.locked, err, none⟩, env := e } ∧
      (mem = erasePage s.flash.mem pos ∨
        ∃ bs : List Byte, bs.length = pageSize ∧ mem = writeBytes s.flash.mem (poolOffset pos 0) bs) ∧
      e.events = s.env.events ∧ (s.flash.err = true → err = true) := by
  unfold settleErase
  simp only
  split
  · exact ⟨_, _, _, rfl, .inr ⟨_, drawPage_length _, rfl⟩, by simp, fun _ => rfl⟩
  · exact ⟨_, _, _, rfl, .inl rfl, by simp, id⟩

/-- Finishing a job changes the flash memory, the error flag, the job and the draws, and nothing else. -/
theorem flashSettle_spec (s : State) :
    ∃ mem err e, flashSettle s = { s with flash := ⟨mem, s.flash.locked, err, none⟩, env := e } ∧
      e.events = s.env.events ∧ (s.flash.err = true → err = true) := by
  unfold flashSettle
  split
  · rename_i h
    exact ⟨s.flash.mem, s.flash.err, s.env, by rw [← h], rfl, id⟩
  · obtain ⟨_, err, e, h, -, h2, h3⟩ := settleProgram_spec _ _ _ s
    exact ⟨_, err, e, h, h2, h3⟩
  · obtain ⟨_, err, e, h, -, h2, h3⟩ := settleErase_spec _ s
    exact ⟨_, err, e, h, h2, h3⟩

theorem poolOffset_le {pos off n : Nat} (hp : pos < nPages) (ho : off + n ≤ pageSize) :
    poolOffset pos off + n ≤ poolBytes := by
  change pos < 20 at hp
  change off + n ≤ 2048 at ho
  change pos * 2048 + off + n ≤ 40960
  omega

theorem poolOffset_page_le {pos : Nat} (hp : pos < nPages) : poolOffset pos 0 + pageSize ≤ poolBytes :=
  poolOffset_le hp (Nat.le_of_eq (Nat.zero_add _))

/-- Writing a page of bytes to a page leaves every other page alone. -/
theorem readByte_writePage_outside (m : Memory) {pos a : Nat} (h : pageOf a ≠ pos) (bs : List Byte)
    (hl : bs.length = pageSize) : readByte (writeBytes m (poolOffset pos 0) bs) a = readByte m a := by
  refine readByte_writeBytes_outside _ _ _ ?_
  rw [hl]
  by_contra hc
  refine h ?_
  have : a = poolOffset pos (a - poolOffset pos 0) := by
    unfold poolOffset at *
    omega
  rw [this]
  exact pageOf_poolOffset (by omega)

/-- Finishing a job inside the pool keeps the memory's canonical form. -/
theorem flashSettle_wf {s : State} (hw : s.flash.mem.wf) (hj : ∀ j, s.flash.job = some j → jobInPool j) :
    (flashSettle s).flash.mem.wf := by
  unfold flashSettle
  split
  · exact hw
  · rename_i pos off data h
    obtain ⟨hp, ho⟩ := hj _ h
    obtain ⟨bs, err, e, h, hl, -⟩ := settleProgram_spec pos off data s
    rw [h]
    exact writeBytes_wf hw _ (by rw [hl]; exact poolOffset_le hp ho)
  · rename_i pos h
    have hp : pos < nPages := hj _ h
    obtain ⟨mem, err, e, h, hm, -⟩ := settleErase_spec pos s
    rw [h]
    rcases hm with rfl | ⟨bs, hl, rfl⟩
    · exact erasePage_wf hw pos
    · exact writeBytes_wf hw _ (by rw [hl]; exact poolOffset_page_le hp)

/-- Finishing a job leaves every byte outside its target alone (rules R203, R204). -/
theorem flashSettle_outside (s : State) {a : Nat} (h : ∀ j, s.flash.job = some j → ¬jobTarget j a) :
    readByte (flashSettle s).flash.mem a = readByte s.flash.mem a := by
  unfold flashSettle
  split
  · rfl
  · rename_i pos off data hj
    have ht := h _ hj
    simp only [jobTarget, not_and, not_lt] at ht
    obtain ⟨bs, err, e, h, hl, -⟩ := settleProgram_spec pos off data s
    rw [h]
    refine readByte_writeBytes_outside _ _ _ ?_
    rw [hl]
    by_cases hc : poolOffset pos off ≤ a
    · exact .inr (ht hc)
    · exact .inl (by omega)
  · rename_i pos hj
    have ht : pageOf a ≠ pos := h _ hj
    obtain ⟨mem, err, e, h, hm, -⟩ := settleErase_spec pos s
    rw [h]
    rcases hm with rfl | ⟨bs, hl, rfl⟩
    · exact readByte_erasePage_outside _ ht
    · exact readByte_writePage_outside _ ht bs hl

theorem cutFlashJob_none {f : Flash} (e : Env) (hj : f.job = none) : cutFlashJob f e = (f.mem, e) := by
  unfold cutFlashJob
  rw [hj]

theorem cutFlashJob_prog {f : Flash} (e : Env) {pos off : Nat} {data : List Byte} (hj : f.job = some
    (.prog pos off data)) :
    cutFlashJob f e =
      (writeBytes f.mem (poolOffset pos off) (drawBytes data.length e).1, (drawBytes data.length e).2) := by
  unfold cutFlashJob
  rw [hj]

theorem cutFlashJob_erase {f : Flash} (e : Env) {pos : Nat} (hj : f.job = some (.erase pos)) :
    cutFlashJob f e = (writeBytes f.mem (poolOffset pos 0) (drawPage e).1, (drawPage e).2) := by
  unfold cutFlashJob
  rw [hj]

/-- A reset inside a flash operation writes as many drawn bytes as the operation's target holds, to its target (R254). -/
theorem cutFlashJob_cases (f : Flash) (e : Env) :
    (f.job = none ∧ cutFlashJob f e = (f.mem, e)) ∨
    (∃ pos off data bs, f.job = some (.prog pos off data) ∧ bs.length = data.length ∧
      (cutFlashJob f e).1 = writeBytes f.mem (poolOffset pos off) bs) ∨
    (∃ pos bs, f.job = some (.erase pos) ∧ bs.length = pageSize ∧
      (cutFlashJob f e).1 = writeBytes f.mem (poolOffset pos 0) bs) := by
  rcases hj : f.job with _ | j
  · exact .inl ⟨rfl, cutFlashJob_none e hj⟩
  · rcases j with ⟨pos, off, data⟩ | pos
    · refine .inr (.inl ⟨pos, off, data, (drawBytes data.length e).1, rfl, drawBytes_length _ _, ?_⟩)
      rw [cutFlashJob_prog e hj]
    · refine .inr (.inr ⟨pos, (drawPage e).1, rfl, drawPage_length _, ?_⟩)
      rw [cutFlashJob_erase e hj]

theorem snd_events_of_eq {x : Memory × Env} {m : Memory} {e e' : Env} (h : x = (m, e')) (he : e'.events = e.events) :
    x.2.events = e.events := by
  rw [h]
  exact he

@[simp] theorem cutFlashJob_events (f : Flash) (e : Env) : (cutFlashJob f e).2.events = e.events := by
  rcases hj : f.job with _ | j
  · exact snd_events_of_eq (cutFlashJob_none e hj) rfl
  · rcases j with ⟨pos, off, data⟩ | pos
    · exact snd_events_of_eq (cutFlashJob_prog e hj) (drawBytes_events _ e)
    · exact snd_events_of_eq (cutFlashJob_erase e hj) (drawPage_events e)

/-- A reset inside a flash operation in the pool keeps the memory's canonical form. -/
theorem cutFlashJob_wf {f : Flash} (e : Env) (hw : f.mem.wf) (hj : ∀ j, f.job = some j → jobInPool j) :
    (cutFlashJob f e).1.wf := by
  rcases cutFlashJob_cases f e with ⟨-, h⟩ | ⟨pos, off, data, bs, hf, hl, h⟩ | ⟨pos, bs, hf, hl, h⟩
  · rw [h]; exact hw
  · obtain ⟨hp, ho⟩ := hj _ hf
    rw [h]
    exact writeBytes_wf hw _ (by rw [hl]; exact poolOffset_le hp ho)
  · rw [h]
    exact writeBytes_wf hw _ (by rw [hl]; exact poolOffset_page_le (hj _ hf))

/-- A reset inside a flash operation leaves every byte outside the operation's target alone (rule R254). -/
theorem cutFlashJob_outside (f : Flash) (e : Env) {a : Nat} (ha : ∀ j, f.job = some j → ¬jobTarget j a) :
    readByte (cutFlashJob f e).1 a = readByte f.mem a := by
  rcases cutFlashJob_cases f e with ⟨-, h⟩ | ⟨pos, off, data, bs, hf, hl, h⟩ | ⟨pos, bs, hf, hl, h⟩
  · rw [h]
  · have ht := ha _ hf
    simp only [jobTarget, not_and, not_lt] at ht
    rw [h]
    refine readByte_writeBytes_outside _ _ _ ?_
    rw [hl]
    by_cases hc : poolOffset pos off ≤ a
    · exact .inr (ht hc)
    · exact .inl (by omega)
  · rw [h]
    exact readByte_writePage_outside _ (ha _ hf) _ hl

/-! ### Flash reads -/

/-- A flash read answers the bytes exactly under rule R42's preconditions. -/
theorem flashRead_ok (f : Flash) (pos off n : Nat) (bs : List Byte) :
    flashRead f pos off n = .ok bs ↔
      f.busy = false ∧ pos < nPages ∧ off + n ≤ pageSize ∧ bs = readBytes f.mem (poolOffset pos off) n := by
  unfold flashRead
  split
  · rename_i h; simp [h]
  · rename_i h
    split
    · rename_i h2
      simp only [reduceCtorEq, false_iff, not_and]
      omega
    · rename_i h2
      simp only [Except.ok.injEq]
      constructor
      · rintro rfl
        exact ⟨by simpa using h, by omega, by omega, rfl⟩
      · rintro ⟨-, -, -, rfl⟩
        rfl

/-! ### The trigonometric unit and the codes -/

/-- Rule R7 (c): every value of `SIN` is in [-1, 1]. -/
theorem sin_range (p : Word32) : -1 ≤ sin p ∧ sin p ≤ 1 := by
  unfold sin
  constructor
  · exact le_max_left _ _
  · exact max_le (by norm_num) (min_le_left _ _)

/-- A value in 0 .. 4095 gets its floor as output code (rules R96, R131). -/
theorem outputCode_toNat {q : Rat} (h0 : 0 ≤ q) (h1 : q ≤ 4095) : ((outputCode q).toNat : Int) = ⌊q⌋ := by
  have hf0 : 0 ≤ ⌊q⌋ := Int.floor_nonneg.mpr h0
  have hf1 : ⌊q⌋ ≤ 4095 := by
    have : ((⌊q⌋ : Int) : Rat) ≤ 4095 := le_trans (Int.floor_le q) h1
    exact_mod_cast this
  unfold outputCode
  rw [BitVec.toNat_ofInt]
  omega

/-! ### Commands -/

/-- TICK completes exactly where it is admitted, and then its next state is `tickEngine`'s with `cmd_result` 1. -/
theorem execTick_next_iff (s t : State) :
    execTick s = .next t ↔
      tickAdmitted s = true ∧ t = { tickEngine s with cmd := { (tickEngine s).cmd with result := true } } := by
  unfold execTick tickAdmitted
  cases s.store.op.isRestore <;> cases s.store.metaValid <;> cases s.inputs.wellFormed <;>
    cases settingsLegal s.settings <;> simp [eq_comm]

/-- RESTORE_CONFIG completes its first step exactly when no store command is in flight and the flash is not busy. -/
theorem execRestoreConfig_next_iff (s t : State) :
    execRestoreConfig s = .next t ↔
      s.store.op = .idle ∧ s.flash.busy = false ∧
        t = { s with store := { s.store with pages := scanPages s.params s.flash.mem, op := .restoreFind } } := by
  unfold execRestoreConfig
  by_cases h : s.store.op = .idle <;> cases hb : s.flash.busy <;> simp [h, eq_comm]

/-- SAVE_CONFIG's first step, in the three cases of rules R171 and R172. -/
theorem execSaveConfig_next_iff (force : Bool) (s t : State) :
    execSaveConfig force s = .next t ↔
      s.store.op = .idle ∧ s.store.metaValid = true ∧
        t = if saveDue force s.inputs.msNow s.store then { s with store := { s.store with pending := false, op :=
            .savePlace } }
            else complete true s := by
  unfold execSaveConfig
  by_cases h : s.store.op = .idle <;> cases hm : s.store.metaValid <;>
    cases hd : saveDue force s.inputs.msNow s.store <;> simp [h, hm, eq_comm]

/-- ERASE_CONFIG is taken exactly when no store command is in flight. -/
theorem execEraseConfig_next_iff (s t : State) :
    execEraseConfig s = .next t ↔ s.store.op = .idle ∧ t = setOp (.eraseAll 0 .unlock true) s := by
  unfold execEraseConfig
  by_cases h : s.store.op = .idle <;> simp [h, eq_comm]

/-- The form of every meaning of a flash operation that asks only for a controller that is not busy. -/
theorem execFlUnlock_next_iff (s t : State) :
    execFlUnlock s = .next t ↔ s.flash.busy = false ∧ t = setFlash { s.flash with locked := false } s := by
  unfold execFlUnlock
  cases hb : s.flash.busy <;> simp [eq_comm]

theorem execFlClrerr_next_iff (s t : State) :
    execFlClrerr s = .next t ↔ s.flash.busy = false ∧ t = setFlash { s.flash with err := false } s := by
  unfold execFlClrerr
  cases hb : s.flash.busy <;> simp [eq_comm]

theorem execFlLock_next_iff (s t : State) :
    execFlLock s = .next t ↔ s.flash.busy = false ∧ t = setFlash { s.flash with locked := true } s := by
  unfold execFlLock
  cases hb : s.flash.busy <;> simp [eq_comm]

/-- The data port has `FLASH_WBLK` bytes, whatever the store drove (rule R65). -/
@[simp] theorem portData_length (p : Params) (port : FlashPort) : (portData p port).length = p.wblk := by
  simp [portData]

/-- The n-th byte of the data port. -/
theorem portData_getElem? (p : Params) (port : FlashPort) {n : Nat} (h : n < p.wblk) :
    (portData p port)[n]? = some (port.data[n]?.getD 0) := by
  simp [portData, h]

/-- A port driven on all its lines holds what was driven. -/
theorem portData_eq {p : Params} {port : FlashPort} (h : port.data.length = p.wblk) : portData p port = port.data := by
  apply List.ext_getElem?
  intro n
  rcases Nat.lt_or_ge n p.wblk with hn | hn
  · rw [portData_getElem? p port hn, List.getElem?_eq_getElem (by omega)]
    rfl
  · rw [List.getElem?_eq_none (by rw [portData_length]; exact hn), List.getElem?_eq_none (by omega)]

/-- FL_PROG starts exactly under the preconditions of rules R203 and R207. -/
theorem execFlProg_next_iff (s t : State) :
    execFlProg s = .next t ↔
      s.flash.busy = false ∧ s.flash.locked = false ∧
        s.fop.off % s.params.wblk = 0 ∧ s.fop.pos < nPages ∧ s.fop.off + s.params.wblk ≤ pageSize ∧
        t = setFlash { s.flash with job := some (.prog s.fop.pos s.fop.off (portData s.params s.fop)) } s := by
  unfold execFlProg
  cases hb : s.flash.busy <;> cases hl : s.flash.locked <;> simp only [Bool.false_eq_true, if_true, if_false,
      reduceCtorEq,
    false_and, and_false, true_and, Bool.true_eq_false]
  by_cases ho : s.fop.off % s.params.wblk = 0
  · by_cases hp : nPages ≤ s.fop.pos ∨ pageSize < s.fop.off + s.params.wblk
    · simp only [ho, hp, ne_eq, not_true_eq_false, if_true, if_false, reduceCtorEq, true_and, false_iff, not_and]
      omega
    · simp only [ho, hp, ne_eq, not_true_eq_false, if_false, true_and, Host.Outcome.next.injEq]
      constructor
      · rintro rfl
        exact ⟨by omega, by omega, rfl⟩
      · rintro ⟨-, -, rfl⟩
        rfl
  · simp [ho]

/-- FL_ERASE starts exactly under the preconditions of rules R204 and R207. -/
theorem execFlErase_next_iff (s t : State) :
    execFlErase s = .next t ↔
      s.flash.busy = false ∧ s.flash.locked = false ∧ s.fop.pos < nPages ∧
        t = setFlash { s.flash with job := some (.erase s.fop.pos) } s := by
  unfold execFlErase
  cases hb : s.flash.busy <;> cases hl : s.flash.locked <;> by_cases hp : s.fop.pos < nPages <;>
    simp [hp, eq_comm, Nat.not_le.mpr, Nat.le_of_not_lt]

end Sys2Proof.Laws
end

