-- ==== Sys2Proof/Laws/Buttons.lean ====
section
/-! SUPPORT. Buttons.lean: `Pressed` by its two guards, and what polling the six buttons does. -/

namespace Sys2Proof.Laws

open Sys2Proof.Machine Sys2Proof.Config

/-- `Pressed`, its report and its new state by the two guards (rule R82). -/
theorem pressed_spec (b : Button) (pinN : Bool) (now : Word32) :
    ((pressed b pinN now).2 = true ↔ pressConfirmed b pinN now) ∧
    (pressed b pinN now).1 =
      if releaseConfirmed b pinN now then ⟨0, now⟩ else if pressConfirmed b pinN now then ⟨now, b.up⟩ else b := by
  unfold pressed elapsed pressConfirmed releaseConfirmed
  cases pinN <;> simp only [Bool.false_eq_true, false_and, true_and, not_true_eq_false, if_false, not_false_eq_true,
    Bool.true_eq_false]
  · by_cases h : b.down = 0 ∧ debounceMs < (now - b.up).toNat
    · rw [if_pos h, if_pos h]; exact ⟨iff_of_true rfl h, rfl⟩
    · rw [if_neg h, if_neg h]; exact ⟨iff_of_false Bool.false_ne_true h, rfl⟩
  · by_cases h : b.down ≠ 0 ∧ debounceMs < (now - b.down).toNat
    · rw [if_pos h, if_pos h]; exact ⟨by simp, rfl⟩
    · rw [if_neg h, if_neg h]; exact ⟨by simp, rfl⟩

/-- A polled button that reports a press. -/
theorem pollButton_press {j : Fin 6} {s : State} (h : pressAt j s) :
    pollButton j s = { s with
      buttons := s.buttons.set j (pressed s.buttons[j] s.inputs.btnN[j] s.inputs.msNow).1
      settings := s.settings.set j (nextCode s.settings[j])
      store := { s.store with pending := true, anchor := s.inputs.msNow } } := by
  unfold pollButton routeStep
  simp only [(pressed_spec _ _ _).1.mpr h, if_true]
  rfl

/-- A polled button that reports nothing. -/
theorem pollButton_quiet {j : Fin 6} {s : State} (h : ¬pressAt j s) :
    pollButton j s = { s with buttons := s.buttons.set j (pressed s.buttons[j] s.inputs.btnN[j] s.inputs.msNow).1 } :=
        by
  unfold pollButton routeStep
  have : (pressed s.buttons[j] s.inputs.btnN[j] s.inputs.msNow).2 = false := by
    rw [← Bool.not_eq_true]; exact fun e => h ((pressed_spec _ _ _).1.mp e)
  simp only [this, Bool.false_eq_true, if_false]

/-- What polling the buttons `js` does: to each its `Pressed` and its mode's transition, to the pending flag and the anchor
what each press schedules, and nothing else. -/
structure Polled (js : List (Fin 6)) (s t : State) : Prop where
  same : t = { s with
    buttons := t.buttons
    settings := t.settings
    store := { s.store with pending := t.store.pending, anchor := t.store.anchor } }
  done : ∀ j ∈ js, t.buttons[j] = (pressed s.buttons[j] s.inputs.btnN[j] s.inputs.msNow).1 ∧
     t.settings[j] = if pressAt j s then nextCode s.settings[j] else s.settings[j]
  left : ∀ j : Fin 6, j ∉ js → t.buttons[j] = s.buttons[j] ∧ t.settings[j] = s.settings[j]
  pending : t.store.pending = true ↔ s.store.pending = true ∨ ∃ j ∈ js, pressAt j s
  anchor : (∃ j ∈ js, pressAt j s) → t.store.anchor = s.inputs.msNow
  quiet : (∀ j ∈ js, ¬pressAt j s) → t.store.anchor = s.store.anchor

/-- One more button. -/
theorem Polled.step {js : List (Fin 6)} {s t : State} (h : Polled js s t) {i : Fin 6} (hi : i ∉ js) :
    Polled (i :: js) s (pollButton i t) := by
  have hin : t.inputs = s.inputs := by rw [h.same]
  have hb := (h.left i hi).1
  have hv := (h.left i hi).2
  have hp : pressAt i t ↔ pressAt i s := by unfold pressAt; rw [hb, hin]
  have hij : ∀ j : Fin 6, j ≠ i → i.val ≠ j.val := fun j hj e => hj (Fin.ext e.symm)
  by_cases hc : pressAt i s
  · rw [pollButton_press (hp.mpr hc)]
    constructor
    · simp only
      rw [h.same]
    · intro j hj
      rcases List.mem_cons.mp hj with rfl | hj
      · rw [if_pos hc]
        simp [hb, hv, hin]
      · have := hij j (fun e => hi (e ▸ hj))
        simp [Vector.getElem_set_ne, this]
        simpa using h.done j hj
    · intro j hj
      have := hij j (fun e => hj (by simp [e]))
      have h2 := h.left j (fun e => hj (by simp [e]))
      simp [Vector.getElem_set_ne, this]
      simpa using h2
    · exact iff_of_true rfl (.inr ⟨i, by simp, hc⟩)
    · intro _; simp [hin]
    · intro hq; exact absurd hc (hq i (by simp))
  · rw [pollButton_quiet (fun e => hc (hp.mp e))]
    constructor
    · simp only
      rw [h.same]
    · intro j hj
      rcases List.mem_cons.mp hj with rfl | hj
      · rw [if_neg hc]
        simp [hb, hin]; simpa using hv
      · have := hij j (fun e => hi (e ▸ hj))
        simp [Vector.getElem_set_ne, this]
        simpa using h.done j hj
    · intro j hj
      have := hij j (fun e => hj (by simp [e]))
      have h2 := h.left j (fun e => hj (by simp [e]))
      simp [Vector.getElem_set_ne, this]
      simpa using h2
    · refine h.pending.trans (or_congr Iff.rfl ⟨fun ⟨j, hj, hp⟩ => ⟨j, by simp [hj], hp⟩, fun ⟨j, hj, hq⟩ => ⟨j, ?_,
        hq⟩⟩)
      exact (List.mem_cons.mp hj).resolve_left (fun e => hc (e ▸ hq))
    · rintro ⟨j, hj, hq⟩
      exact h.anchor ⟨j, (List.mem_cons.mp hj).resolve_left (fun e => hc (e ▸ hq)), hq⟩
    · exact fun hq => h.quiet (fun j hj => hq j (by simp [hj]))

/-- Phase 1 of a tick, all it can do (rule R151). -/
theorem pollButtons_polled (s : State) : Polled [5, 4, 3, 2, 1, 0] s (pollButtons s) := by
  have h : Polled [] s s := ⟨rfl, by simp, fun _ _ => ⟨rfl, rfl⟩, by simp, by simp, fun _ => rfl⟩
  exact (((((h.step (by decide)).step (by decide)).step (by decide)).step (by decide)).step (by decide)).step
      (by decide)

end Sys2Proof.Laws
end

