-- ==== Sys2Proof/Laws/Oscillator.lean ====
section
/-! SUPPORT. Oscillator.lean: each oscillator's step as one record update. -/

namespace Sys2Proof.Laws

open Sys2Proof.Machine Sys2Proof.Config

/-- `LfoStep(0)`, all it can do (rules R120, R123). -/
theorem lfoStep_zero (s : State) : lfoStep 0 s =
    let c := if s.clock.valid then ladderUpdate s.params (effectiveRate 0 s) s.clock else s.clock
    let ph := s.lfo[0].phase + (if s.clock.valid then clockIncrement c else freeIncrement s.params (effectiveRate 0 s))
    let code := bipolarCode (Machine.sin ph) (outputLevel 0 s)
    { s with
      clock := c
      lfo := s.lfo.set 0 ⟨ph, Machine.sin ph, s.lfo[0].fm, outputLevel 0 s⟩
      out := { s.out with dac := s.out.dac.set 0 code, led := s.out.led.set 0 code } } := by
  unfold lfoStep lfoOutput lfoFm lfoSine lfoAdvance lfoLevel ladderPhase phaseIncrement clockBranch updateLfo
  cases h : s.clock.valid
  · simp [effectiveRate, outputLevel, rateModeByte, h, freeIncrement]
  · have hv : ∀ p v (c : ClockSync), (ladderUpdate p v c).valid = c.valid := by
      intro p v c; unfold ladderUpdate; split <;> rfl
    simp [effectiveRate, outputLevel, rateModeByte, h, hv]

/-- `LfoStep(1)`, all it can do (rule R120). -/
theorem lfoStep_one (s : State) : lfoStep 1 s =
    let ph := s.lfo[1].phase + freeIncrement s.params (effectiveRate 1 s)
    let fm := Machine.sin (fmPosition ph (s.lfo[0].sine * s.lfo[0].outLevel * fmScale))
    let code := bipolarCode (Machine.sin ph) (outputLevel 1 s)
    { s with
      lfo := s.lfo.set 1 ⟨ph, Machine.sin ph, fm, outputLevel 1 s⟩
      out := { s.out with
        dac := s.out.dac.set 1 code
        led := s.out.led.set 1 code
        fmDac1 := bipolarCode fm (outputLevel 1 s) } } := by
  unfold lfoStep lfoOutput lfoFm lfoSine lfoAdvance lfoLevel ladderPhase phaseIncrement clockBranch updateLfo fmOffset fmSource upstreamLevel writeFmDac
  simp [effectiveRate, outputLevel, rateModeByte]

/-- `LfoStep(2)`, all it can do (rule R120). -/
theorem lfoStep_two (s : State) : lfoStep 2 s =
    let ph := s.lfo[2].phase + freeIncrement s.params (effectiveRate 2 s)
    let fm := Machine.sin (fmPosition ph (s.lfo[1].fm * s.lfo[1].outLevel * fmScale))
    let code := bipolarCode (Machine.sin ph) (outputLevel 2 s)
    { s with
      lfo := s.lfo.set 2 ⟨ph, Machine.sin ph, fm, outputLevel 2 s⟩
      out := { s.out with
        dac := s.out.dac.set 2 code
        led := s.out.led.set 2 code
        fmDac2 := bipolarCode fm (outputLevel 2 s) } } := by
  unfold lfoStep lfoOutput lfoFm lfoSine lfoAdvance lfoLevel ladderPhase phaseIncrement clockBranch updateLfo fmOffset fmSource upstreamLevel writeFmDac
  simp [effectiveRate, outputLevel, rateModeByte]

end Sys2Proof.Laws
end

