-- ==== Sys2Proof/Laws/Tick.lean ====
section
/-! SUPPORT. Tick.lean: what a TICK does, phase by phase. -/

namespace Sys2Proof.Laws

open Sys2Proof.Machine Sys2Proof.Config

/-- A Boolean check of a whole vector, entry by entry. -/
theorem forall_toList {α : Type} {n : Nat} (v : Vector α n) (p : α → Bool) :
    v.toList.all p = true ↔ ∀ i : Fin n, p v[i] = true := by
  rw [List.all_eq_true]
  constructor
  · intro h i
    exact h _ (by rw [Vector.mem_toList_iff]; exact Vector.getElem_mem i.isLt)
  · intro h x hx
    rw [Vector.mem_toList_iff, Vector.mem_iff_getElem] at hx
    obtain ⟨i, hi, rfl⟩ := hx
    exact h ⟨i, hi⟩

/-- The model's guard of a TICK is what the rules ask (rules R31 e, R70, R155, R252). -/
theorem tickAdmitted_iff (s : State) : tickAdmitted s = true ↔ TickAllowed s := by
  unfold tickAdmitted Inputs.wellFormed settingsLegal
  rw [Bool.and_eq_true, Bool.and_eq_true, Bool.and_eq_true, forall_toList, forall_toList]
  simp only [sampleLegal, codeLegal, decide_eq_true_eq, Bool.not_eq_true']
  exact ⟨fun ⟨⟨⟨a, b⟩, c⟩, d⟩ => ⟨a, b, c, d⟩, fun ⟨a, b, c, d⟩ => ⟨⟨⟨a, b⟩, c⟩, d⟩⟩

/-- The next state of an allowed TICK. -/
theorem exec_tick {s : State} (h : TickAllowed s) :
    exec .tick s = .next { tickEngine s with cmd := { (tickEngine s).cmd with result := true } } :=
  (execTick_next_iff s _).mpr ⟨(tickAdmitted_iff s).mpr h, rfl⟩

/-- The state the oscillators of a tick start from: phases 1 to 3 of rule R151. -/
def beforeLfos (s : State) : State := envelopePhase (clockPhase (pollButtons (countTick s)))

/-- The button phase of a tick. -/
theorem tick_polled (s : State) : Polled [5, 4, 3, 2, 1, 0] (countTick s) (pollButtons (countTick s)) :=
    pollButtons_polled _

/-- Phases 1 to 3 of a tick, all they can do (rule R151). -/
theorem beforeLfos_spec (s : State) : ∃ p, Polled [5, 4, 3, 2, 1, 0] (countTick s) p ∧
    beforeLfos s = { s with
      tickCounter := s.tickCounter + 1
      buttons := p.buttons
      settings := p.settings
      store := { s.store with pending := p.store.pending, anchor := p.store.anchor }
      clock := clockDetect s.params (s.tickCounter + 1) s.inputs.clkN s.clock
      envelopes := stepEnvelopes s.params s.inputs s.envelopes
      out := envOutputs (stepEnvelopes s.params s.inputs s.envelopes) s.out } := by
  have h := tick_polled s
  unfold beforeLfos
  generalize pollButtons (countTick s) = p at h
  refine ⟨p, h, ?_⟩
  have hs := h.same
  generalize p.buttons = b at hs
  generalize p.settings = v at hs
  generalize p.store.pending = d at hs
  generalize p.store.anchor = a at hs
  rw [hs]
  rfl

/-- The ladder leaves the detector alone (rule R111). -/
theorem ladderUpdate_valid (p : Params) (v : Rat) (c : ClockSync) :
    (ladderUpdate p v c).valid = c.valid ∧ (ladderUpdate p v c).prev = c.prev ∧
        (ladderUpdate p v c).interval = c.interval ∧
     (ladderUpdate p v c).lastEdge = c.lastEdge := by unfold ladderUpdate; split <;> exact ⟨rfl, rfl, rfl, rfl⟩

theorem tickEngine_eq (s : State) : tickEngine s = lfoStep 2 (lfoStep 1 (lfoStep 0 (beforeLfos s))) := rfl

/-- What the three oscillator steps leave alone (rule R120). -/
theorem lfoPhase_frame (q : State) : ∃ l c o,
   lfoStep 2 (lfoStep 1 (lfoStep 0 q)) = { q with lfo := l, clock := c, out := o } ∧
   c.valid = q.clock.valid ∧ c.prev = q.clock.prev ∧ c.interval = q.clock.interval ∧ c.lastEdge = q.clock.lastEdge ∧
   o.rampDac = q.out.rampDac ∧ o.rampLed = q.out.rampLed ∧ o.swellDac = q.out.swellDac ∧ o.swellLed = q.out.swellLed := by
  rw [lfoStep_zero, lfoStep_one, lfoStep_two]
  refine ⟨_, _, _, rfl, ?_⟩
  cases h : q.clock.valid
  · simp [h]
  · simp [h, ladderUpdate_valid]

/-- The mode cycle on legal codes (rule R66). -/
theorem nextCode_toNat {b : Byte} (h : b.toNat ≤ 2) : (nextCode b).toNat = (b.toNat + 1) % 3 := by
  have : b = 0 ∨ b = 1 ∨ b = 2 := by
    have hc : b.toNat = 0 ∨ b.toNat = 1 ∨ b.toNat = 2 := by omega
    rcases hc with h | h | h
    · exact .inl (BitVec.eq_of_toNat_eq h)
    · exact .inr (.inl (BitVec.eq_of_toNat_eq h))
    · exact .inr (.inr (BitVec.eq_of_toNat_eq h))
  rcases this with rfl | rfl | rfl <;> decide

theorem mem_allButtons (j : Fin 6) : j ∈ ([5, 4, 3, 2, 1, 0] : List (Fin 6)) := by revert j; decide


/-- `EnvSel` of a settings byte (rule R122). -/
theorem envSelByte_eq (e : Envelopes) (b : Byte) : envSelByte e b = envFactor e b := by
  unfold envSelByte envFactor modeOfCode
  by_cases h0 : b = 0
  · subst h0; rfl
  · by_cases h1 : b = 1
    · subst h1; rfl
    · by_cases h2 : b = 2
      · subst h2; rfl
      · rw [if_neg h0, if_neg h1, if_neg h2, if_neg h1, if_neg h2]; rfl

theorem effectiveRate_eq (k : Fin 3) (s : State) : effectiveRate k s = rateOf k s := by
  unfold effectiveRate rateOf rateSample rateModeByte
  rw [envSelByte_eq]

theorem outputLevel_eq (k : Fin 3) (s : State) : outputLevel k s =
    (s.inputs.adc[2 * k.val + 1].toNat : Rat) * (1 / 2) * envFactor s.envelopes s.settings[2 * k.val + 1] := by
  unfold outputLevel levelSample levelModeByte
  rw [envSelByte_eq]

/-- The clock state after the oscillators have run from `q` (rules R111, R123). -/
def clockAfter (q : State) : ClockSync :=
  if q.clock.valid then ladderUpdate q.params (rateOf 0 q) q.clock else q.clock

/-- The increment of each oscillator (rules R112, R123, R124). -/
def incOf (k : Fin 3) (q : State) : Word32 :=
  if k = 0 ∧ q.clock.valid = true then clockIncrement (clockAfter q) else freeIncrement q.params (rateOf k q)

/-- What the three oscillator steps compute (rules R120 to R130). -/
theorem lfo_values (q : State) :
    let t := lfoStep 2 (lfoStep 1 (lfoStep 0 q))
    t.clock = clockAfter q ∧ t.inputs = q.inputs ∧ t.envelopes = q.envelopes ∧ t.settings = q.settings ∧
    (∀ k : Fin 3, t.lfo[k].phase = q.lfo[k].phase + incOf k q ∧ t.lfo[k].sine = Machine.sin t.lfo[k].phase ∧
      t.lfo[k].outLevel = outputLevel k q ∧ t.out.dac[k] = bipolarCode t.lfo[k].sine t.lfo[k].outLevel ∧
          t.out.led[k] = t.out.dac[k]) ∧
    t.lfo[0].fm = q.lfo[0].fm ∧
    t.lfo[1].fm = Machine.sin (fmPosition t.lfo[1].phase (t.lfo[0].sine * t.lfo[0].outLevel * fmScale)) ∧
    t.lfo[2].fm = Machine.sin (fmPosition t.lfo[2].phase (t.lfo[1].fm * t.lfo[1].outLevel * fmScale)) ∧
    t.out.fmDac1 = bipolarCode t.lfo[1].fm t.lfo[1].outLevel ∧
        t.out.fmDac2 = bipolarCode t.lfo[2].fm t.lfo[2].outLevel := by
  intro t
  have e0 : t = lfoStep 2 (lfoStep 1 (lfoStep 0 q)) := rfl
  clear_value t
  rw [lfoStep_zero, lfoStep_one, lfoStep_two] at e0
  subst e0
  refine ⟨by unfold clockAfter; rw [effectiveRate_eq], rfl, rfl, rfl, ?_, ?_⟩
  · intro k
    have hk : k = 0 ∨ k = 1 ∨ k = 2 := by revert k; decide
    rcases hk with rfl | rfl | rfl
    · simp [incOf, clockAfter, effectiveRate_eq]
    · simp [incOf, effectiveRate_eq, outputLevel_eq, rateOf]
    · simp [incOf, effectiveRate_eq, outputLevel_eq, rateOf]
  · simp

end Sys2Proof.Laws
end

