-- ==== Sys2Proof/Laws/Ranges.lean ====
section
/-! SUPPORT. Ranges.lean: the values a TICK computes, in their ranges (rules R6, R13, R97, R110, R128, R131). -/

namespace Sys2Proof.Laws

open Sys2Proof.Machine Sys2Proof.Config

/-- An allowed TICK, all it computes: `q` is the state its oscillators start from. -/
theorem tick_spec {s : State} (h : TickAllowed s) : ∃ q t, exec .tick s = .next t ∧
    q.clock = clockDetect s.params (s.tickCounter + 1) s.inputs.clkN s.clock ∧ q.lfo = s.lfo ∧ q.params = s.params ∧
        q.inputs = s.inputs ∧
    q.envelopes = stepEnvelopes s.params s.inputs s.envelopes ∧ t.envelopes = q.envelopes ∧ t.settings = q.settings ∧
        t.inputs = q.inputs ∧
    t.clock = clockAfter q ∧ 
    (∀ k : Fin 3, t.lfo[k].phase = q.lfo[k].phase + incOf k q ∧ t.lfo[k].sine = Machine.sin t.lfo[k].phase ∧
      t.lfo[k].outLevel = outputLevel k q ∧ t.out.dac[k] = bipolarCode t.lfo[k].sine t.lfo[k].outLevel ∧
          t.out.led[k] = t.out.dac[k]) ∧
    t.lfo[0].fm = q.lfo[0].fm ∧
    t.lfo[1].fm = Machine.sin (fmPosition t.lfo[1].phase (t.lfo[0].sine * t.lfo[0].outLevel * fmScale)) ∧
    t.lfo[2].fm = Machine.sin (fmPosition t.lfo[2].phase (t.lfo[1].fm * t.lfo[1].outLevel * fmScale)) ∧
    t.out.fmDac1 = bipolarCode t.lfo[1].fm t.lfo[1].outLevel ∧
        t.out.fmDac2 = bipolarCode t.lfo[2].fm t.lfo[2].outLevel := by
  obtain ⟨p, -, hb⟩ := beforeLfos_spec s
  have hx := exec_tick h
  have hv := lfo_values (beforeLfos s)
  rw [← tickEngine_eq] at hv
  have q1 : (beforeLfos s).clock = clockDetect s.params (s.tickCounter + 1) s.inputs.clkN s.clock := by rw [hb]
  have q2 : (beforeLfos s).lfo = s.lfo := by rw [hb]
  have q3 : (beforeLfos s).params = s.params := by rw [hb]
  have q4 : (beforeLfos s).inputs = s.inputs := by rw [hb]
  have q5 : (beforeLfos s).envelopes = stepEnvelopes s.params s.inputs s.envelopes := by rw [hb]
  clear hb
  generalize beforeLfos s = q at *
  generalize tickEngine s = e at *
  obtain ⟨v1, v2, v3, v4, v5⟩ := hv
  exact ⟨q, _, hx, q1, q2, q3, q4, q5, v3, v4, v2, v1, v5⟩

/-- The effective rate depends on the inputs, the envelopes and the settings alone. -/
theorem rateOf_congr {k : Fin 3} {s t : State} (h1 : s.inputs = t.inputs) (h2 : s.envelopes = t.envelopes) (h3 :
    s.settings = t.settings) :
   rateOf k s = rateOf k t := by unfold rateOf; rw [h1, h2, h3]

/-- The number of thresholds reached is the band of the table (rule R110). -/
theorem band_of_range {b : Fin 6} {v : Rat} (h : bandRange b v) : band v = b := by
  have hb : b = 0 ∨ b = 1 ∨ b = 2 ∨ b = 3 ∨ b = 4 ∨ b = 5 := by clear h; revert b; decide
  unfold band thresholds
  simp only [List.countP_cons, List.countP_nil, decide_eq_true_eq]
  rcases hb with rfl | rfl | rfl | rfl | rfl | rfl
  · have h : v < 682 := h
    rw [if_neg (by linarith), if_neg (by linarith), if_neg (by linarith), if_neg (by linarith), if_neg
        (by linarith)]; rfl
  · obtain ⟨h, h'⟩ : 682 ≤ v ∧ v < 1365 := h
    rw [if_neg (by linarith), if_neg (by linarith), if_neg (by linarith), if_neg (by linarith), if_pos
        (by linarith)]; rfl
  · obtain ⟨h, h'⟩ : 1365 ≤ v ∧ v < 2048 := h
    rw [if_neg (by linarith), if_neg (by linarith), if_neg (by linarith), if_pos (by linarith), if_pos
        (by linarith)]; rfl
  · obtain ⟨h, h'⟩ : 2048 ≤ v ∧ v < 2731 := h
    rw [if_neg (by linarith), if_neg (by linarith), if_pos (by linarith), if_pos (by linarith), if_pos
        (by linarith)]; rfl
  · obtain ⟨h, h'⟩ : 2731 ≤ v ∧ v < 3413 := h
    rw [if_neg (by linarith), if_pos (by linarith), if_pos (by linarith), if_pos (by linarith), if_pos
        (by linarith)]; rfl
  · have h : 3413 ≤ v := h
    rw [if_pos (by linarith), if_pos (by linarith), if_pos (by linarith), if_pos (by linarith), if_pos
        (by linarith)]; rfl

/-- The detector leaves the ladder alone (rule R106). -/
theorem clockDetect_hyst (p : Params) (n : Word32) (c : Bool) (k : ClockSync) : (clockDetect p n c k).hyst = k.hyst ∧
    (clockDetect p n c k).mult = k.mult := by
  unfold clockDetect; split <;> exact ⟨rfl, rfl⟩

/-- Adding an increment modulo 2^32 (rule R126). -/
theorem add_ofInt (a : Word32) (z : Int) : ((a + BitVec.ofInt 32 z).toNat : Int) = ((a.toNat : Int) + z) % 2 ^ 32 := by
  rw [BitVec.toNat_add, BitVec.toNat_ofInt]
  omega

/-- A legal sample over `ADC_MAX` is in [0, 1] (rule R90). -/
theorem sample_unit {a : Sample} (h : a.toNat ≤ adcMax) : 0 ≤ normalised a ∧ normalised a ≤ 1 := by
  unfold normalised
  have : (a.toNat : Rat) ≤ 4095 := by exact_mod_cast h
  have h0 : (0:Rat) ≤ a.toNat := Nat.cast_nonneg _
  constructor
  · positivity
  · rw [div_le_one (by norm_num)]; exact this

/-- What rule R6 says of a configuration, as inequalities. -/
theorem params_pos {p : Params} (h : p.wellFormed = true) :
    0 < p.rampInc ∧ 0 < p.swellInc ∧ 0 < p.releaseInc ∧ 0 < p.swellFall ∧ p.swellFall < 1 ∧ 0 < p.kFree ∧ 0 < p.wblk ∧
        16 % p.wblk = 0 ∧
     p.kFree.num * 4095 ^ 2 < 2 ^ 32 * (p.kFree.den : Int) := by
  unfold Params.wellFormed Params.incrementsPositive Params.fallInRange Params.freeScaleInRange Params.secondPositive Params.wblkDivides at h
  simp only [Bool.and_eq_true, decide_eq_true_eq] at h
  obtain ⟨⟨⟨⟨⟨⟨⟨a, b⟩, c⟩, d, e⟩, f, k⟩, g⟩, i, j⟩, l⟩ := h
  exact ⟨a, b, c, d, e, f, i, j, by exact_mod_cast k⟩

/-- The envelope steps keep the direction legal and both outputs in [0, 1] (rules R31 a, R97). -/
theorem stepEnvelopes_range {p : Params} (hp : p.wellFormed = true) {i : Inputs} (hi : ∀ n : Fin 10,
    i.adc[n].toNat ≤ adcMax) {e : Envelopes}
   (hd : e.swellDir = 1 ∨ e.swellDir = -p.swellFall) (h0 : 0 ≤ e.rampOut) (h1 : e.rampOut ≤ 1) (h2 : 0 ≤ e.swellOut)
       (h3 : e.swellOut ≤ 1) :
   let f := stepEnvelopes p i e
   (f.swellDir = 1 ∨ f.swellDir = -p.swellFall) ∧ 0 ≤ f.rampOut ∧ f.rampOut ≤ 1 ∧ 0 ≤ f.swellOut ∧ f.swellOut ≤ 1 := by
  obtain ⟨pr, ps, pl, pf, pf1, -⟩ := params_pos hp
  obtain ⟨a0, a1⟩ := sample_unit (hi 6)
  obtain ⟨b0, b1⟩ := sample_unit (hi 7)
  obtain ⟨c0, c1⟩ := sample_unit (hi 8)
  obtain ⟨d0, d1⟩ := sample_unit (hi 9)
  change 0 ≤ rampRate i at a0
  change 0 ≤ rampLevel i at b0; change rampLevel i ≤ 1 at b1
  change 0 ≤ swellRate i at c0
  change 0 ≤ swellLevel i at d0; change swellLevel i ≤ 1 at d1
  have hrel : ∀ v : Rat, 0 ≤ v → v ≤ 1 → 0 ≤ release p v ∧ release p v ≤ 1 := fun v hv hv1 =>
    ⟨le_max_right _ _, max_le (by linarith) (by norm_num)⟩
  have hr : 0 ≤ rampStep p (gateActive i) (rampRate i) (rampLevel i) e.rampOut ∧ rampStep p (gateActive i) (rampRate i)
      (rampLevel i) e.rampOut ≤ 1 := by
    unfold rampStep
    split
    · exact ⟨le_min (by positivity) b0, (min_le_right _ _).trans b1⟩
    · exact hrel _ h0 h1
  have hs : 0 ≤ p.swellInc * swellLevel i * swellRate i := by positivity
  intro f
  have hf : f = stepEnvelopes p i e := rfl
  unfold stepEnvelopes swellStep at hf
  rw [hf]
  refine ⟨?_, hr.1, hr.2, ?_⟩
  · simp only
    split
    · split
      · split
        · exact .inr rfl
        · exact hd
      · exact hd
    · exact .inl rfl
  · simp only
    split
    · split
      · rename_i hg hp0
        have h1' : e.swellDir = 1 := hd.resolve_right (fun h => by rw [h] at hp0; linarith)
        rw [h1', mul_one]
        split
        · exact ⟨d0, d1⟩
        · rename_i hn
          exact ⟨by positivity, by linarith⟩
      · rename_i hg hp0
        refine ⟨le_max_right _ _, max_le ?_ (by norm_num)⟩
        have : p.swellInc * swellLevel i * swellRate i * e.swellDir ≤ 0 := mul_nonpos_of_nonneg_of_nonpos hs
            (by linarith)
        linarith
    · exact hrel _ h2 h3

/-- `EnvSel` is in [0, 1] (rule R122). -/
theorem envFactor_range {e : Envelopes} (h0 : 0 ≤ e.rampOut) (h1 : e.rampOut ≤ 1) (h2 : 0 ≤ e.swellOut) (h3 :
    e.swellOut ≤ 1) (b : Byte) :
   0 ≤ envFactor e b ∧ envFactor e b ≤ 1 := by
  unfold envFactor
  split
  · exact ⟨h0, h1⟩
  · split
    · exact ⟨h2, h3⟩
    · norm_num

/-- An output level is in [0, ADC_MAX/2] (rule R122). -/
theorem level_range {a : Sample} (h : a.toNat ≤ adcMax) {f : Rat} (h0 : 0 ≤ f) (h1 : f ≤ 1) : 0 ≤ (a.toNat : Rat) *
    (1/2) * f ∧ 2 * ((a.toNat : Rat) * (1/2) * f) ≤ 4095 := by
  have : (a.toNat : Rat) ≤ 4095 := by exact_mod_cast h
  have h00 : (0:Rat) ≤ a.toNat := Nat.cast_nonneg _
  constructor
  · positivity
  · nlinarith

/-- A bipolar code in range is the floor (rule R131). -/
theorem bipolar_range {x l : Rat} (h0 : -1 ≤ x) (h1 : x ≤ 1) (l0 : 0 ≤ l) (l1 : 2 * l ≤ 4095) :
    ((bipolarCode x l).toNat : Int) = ⌊(x + 1) * l⌋ := by
  unfold bipolarCode
  refine outputCode_toNat ?_ ?_
  · have : 0 ≤ x + 1 := by linarith
    positivity
  · nlinarith

/-- One correction brings a position into [0, 2^32) (rule R128). -/
theorem wrap_spec {x : Rat} (h0 : -2 ^ 29 ≤ x) (h1 : x < 2 ^ 32 + 2 ^ 29) : 0 ≤ wrapPosition x ∧
    wrapPosition x < 2 ^ 32 ∧
   (wrapPosition x = x ∨ wrapPosition x = x + 2 ^ 32 ∨ wrapPosition x = x - 2 ^ 32) := by
  unfold wrapPosition
  norm_num at h0 h1 ⊢
  by_cases hn : x < 0
  · rw [if_pos hn, if_neg (by linarith)]
    exact ⟨by linarith, by linarith, .inr (.inl rfl)⟩
  · rw [if_neg hn]
    by_cases hp : 4294967296 ≤ x
    · rw [if_pos hp]
      exact ⟨by linarith, by linarith, .inr (.inr rfl)⟩
    · rw [if_neg hp]
      exact ⟨by linarith, by linarith, .inl rfl⟩

/-- The output levels of a tick are in range. -/
theorem tick_ranges {s : State} (hI : MachineInv s) (h : TickAllowed s) (q : State) (he :
    q.envelopes = stepEnvelopes s.params s.inputs s.envelopes) (hi : q.inputs = s.inputs) (k : Fin 3) :
   0 ≤ outputLevel k q ∧ 2 * outputLevel k q ≤ 4095 := by
  have hr := stepEnvelopes_range hI.params h.samples hI.direction hI.envelopes.1 hI.envelopes.2.1 hI.envelopes.2.2.1 hI.envelopes.2.2.2
  obtain ⟨-, r0, r1, s0, s1⟩ := hr
  rw [outputLevel_eq, hi, he]
  obtain ⟨f0, f1⟩ := envFactor_range r0 r1 s0 s1 q.settings[2 * k.val + 1]
  exact level_range (h.samples ⟨2 * k.val + 1, by omega⟩) f0 f1

/-- The FM offset's bound (rule R128). -/
theorem off_bound {x l : Rat} (h0 : -1 ≤ x) (h1 : x ≤ 1) (l0 : 0 ≤ l) (l1 : 2 * l ≤ 4095) :
    |x * l * 262144| ≤ 536739840 := by
  rw [abs_le]; constructor <;> nlinarith

/-- The FM position, its range and its one correction (rule R128). -/
theorem fm_pos {ph : Word32} {off : Rat} (h : |off| ≤ 536739840) : ∃ pos : Rat, 0 ≤ pos ∧ pos < 2 ^ 32 ∧
        (pos = (ph.toNat : Rat) + off ∨ pos = (ph.toNat : Rat) + off + 2 ^ 32 ∨
          pos = (ph.toNat : Rat) + off - 2 ^ 32) ∧ fmPosition ph off = BitVec.ofInt 32 ⌊pos⌋ := by
  obtain ⟨h1, h2⟩ := abs_le.mp h
  have hp : (ph.toNat : Rat) < 2 ^ 32 := by exact_mod_cast ph.isLt
  have hp0 : (0 : Rat) ≤ ph.toNat := Nat.cast_nonneg _
  have hp' : (ph.toNat : Rat) < 4294967296 := by norm_num at hp; exact_mod_cast hp
  obtain ⟨a, b, c⟩ := wrap_spec (x := (ph.toNat : Rat) + off) (by norm_num; linarith) (by norm_num; linarith)
  exact ⟨_, a, b, c, rfl⟩

end Sys2Proof.Laws
end

