-- ==== Sys2Proof/Laws/Step.lean ====
section
/-! SUPPORT. Step.lean: what a step can do, said once; every claim about every step starts from `step_cases`. -/

namespace Sys2Proof.Laws

open Sys2Proof.Machine Sys2Proof.Config

/-- The instructions of the command port (rule R61). -/
theorem decode_cmd {w : BitVec 4} {i : Instr} (h : decode (.cmd w) = .ok i) :
    i = .tick ∨ i = .restoreConfig ∨ i = .scheduleSave ∨ (∃ f, i = .saveConfig f) ∨ i = .eraseConfig := by
  change decodeCommand w = .ok i at h
  unfold decodeCommand withoutForce at h
  split at h
  · split at h <;> simp_all
  · split at h <;> simp_all
  · split at h <;> simp_all
  · exact .inr (.inr (.inr (.inl ⟨_, (Except.ok.inj h).symm⟩)))
  · split at h <;> simp_all
  · simp at h

/-- The instructions of the flash-operation port (rule R65). -/
theorem decode_fop {w : BitVec 3} {i : Instr} (h : decode (.fop w) = .ok i) :
    i = .flUnlock ∨ i = .flClrerr ∨ i = .flProg ∨ i = .flErase ∨ i = .flLock := by
  change decodeFlashOperation w = .ok i at h
  unfold decodeFlashOperation at h
  split at h <;> simp_all

/-- The state a step starts from when it takes an event: the pulse is over and the event is gone from the schedule. -/
def takeEvent (rest : List Event) (s : State) : State :=
  { s with
    cmd := { s.cmd with done := false }
    env := { s.env with events := rest } }

/-- The state in which a flash operation that stands on its port is executed. -/
def takeFop (s : State) : State := { s with fop := { s.fop with valid := false } }

/-- The state in which a command word is executed. -/
def takeCommand (i : Instr) (port : Inputs) (s : State) : State := { s with inputs := sampleInputs i port s.inputs }

/-- A store step of the machine: a step of the sequencer, and the flash operation it presents. -/
inductive Driven (u t : State) : Prop where
  | plain (h : storeStep u = .next t) (hv : t.fop.valid = false)
  | issued (v : State) (i : Instr) (h : storeStep u = .next v) (hv : v.fop.valid = true)
      (hd : decode (.fop v.fop.word) = .ok i) (he : exec i (takeFop v) = .next t)

/-- All a step can do when it answers a next state. -/
inductive Stepped (s t : State) : Prop where
  | flashWord (i : Instr) (hv : s.fop.valid = true) (hd : decode (.fop s.fop.word) = .ok i)
      (he : exec i (takeFop (endPulse s)) = .next t)
  | command (w : BitVec 4) (port : Inputs) (rest : List Event) (i : Instr) (hv : s.fop.valid = false)
      (hs : s.env.events = .command w port :: rest) (hd : decode (.cmd w) = .ok i)
      (he : exec i (takeCommand i port (takeEvent rest s)) = .next t)
  | store (rest : List Event) (hv : s.fop.valid = false)
      (hs : s.env.events = .storeStep :: rest ∨ (s.env.events = [] ∧ rest = [] ∧ s.flash.busy = false))
      (hd : Driven (takeEvent rest s) t)
  | settle (rest : List Event) (hv : s.fop.valid = false)
      (hs : s.env.events = .flashReady :: rest ∨ (s.env.events = [] ∧ rest = [] ∧ s.flash.busy = true))
      (ht : t = flashSettle (takeEvent rest s))
  | reset (rest : List Event) (hv : s.fop.valid = false) (hs : s.env.events = .reset :: rest)
      (ht : t = resetMachine (takeEvent rest s))

theorem takeEvent_nil {s : State} (h : s.env.events = []) : takeEvent [] s = endPulse s := by
  unfold takeEvent endPulse
  rw [← h]

/-- What `fetchFlashPort` finds, run to the end of the step. -/
theorem fetchFlashPort_next {v t : State}
    (h : (match fetchFlashPort v with | .run i u => exec i u | .settled r => r) = .next t) :
    ∃ i, decode (.fop v.fop.word) = .ok i ∧ exec i (takeFop v) = .next t := by
  unfold fetchFlashPort at h
  cases hd : decode (.fop v.fop.word) with
  | error e => rw [hd] at h; cases h
  | ok i => rw [hd] at h; exact ⟨i, rfl, h⟩

/-- What `driveStore` finds, run to the end of the step. -/
theorem driveStore_next {u t : State}
    (h : (match driveStore u with | .run i v => exec i v | .settled r => r) = .next t) : Driven u t := by
  unfold driveStore at h
  cases hs : storeStep u with
  | fault f => rw [hs] at h; cases h
  | refused r => rw [hs] at h; cases h
  | next v =>
    rw [hs] at h
    simp only at h
    cases hv : v.fop.valid with
    | false =>
      rw [hv] at h
      simp only [Bool.false_eq_true, if_false, Host.Outcome.next.injEq] at h
      exact .plain (h ▸ hs) (h ▸ hv)
    | true =>
      rw [hv] at h
      obtain ⟨i, hd, he⟩ := fetchFlashPort_next h
      exact .issued v i hs hv hd he

/-- All a step can do when it answers a next state. -/
theorem step_cases {s t : State} (h : step s = .next t) : s.params.wellFormed = true ∧ Stepped s t := by
  unfold step fetch at h
  cases hp : s.params.wellFormed with
  | false => simp [endPulse, hp] at h
  | true =>
    refine ⟨rfl, ?_⟩
    have hp' : ¬¬(endPulse s).params.wellFormed = true := by simp [endPulse, hp]
    rw [if_neg hp'] at h
    cases hv : s.fop.valid with
    | true =>
      rw [if_pos (show (endPulse s).fop.valid = true from hv)] at h
      obtain ⟨i, hd, he⟩ := fetchFlashPort_next h
      exact .flashWord i hv hd he
    | false =>
      rw [if_neg (show ¬(endPulse s).fop.valid = true by rw [show (endPulse s).fop.valid = s.fop.valid from rfl, hv]; decide)] at h
      rcases he : s.env.events with _ | ⟨e, rest⟩
      · rw [show (endPulse s).env.events = [] from he] at h
        simp only [fetchUnscheduled] at h
        cases hb : s.flash.busy with
        | true =>
          rw [if_pos (show (endPulse s).flash.busy = true from hb)] at h
          simp only [Host.Outcome.next.injEq] at h
          exact .settle [] hv (.inr ⟨he, rfl, hb⟩) (by rw [takeEvent_nil he, h])
        | false =>
          rw [if_neg (show ¬(endPulse s).flash.busy = true by rw [show (endPulse s).flash.busy = s.flash.busy from rfl, hb]; decide)] at h
          exact .store [] hv (.inr ⟨he, rfl, hb⟩) (by rw [takeEvent_nil he]; exact driveStore_next h)
      · rw [show (endPulse s).env.events = e :: rest from he] at h
        simp only at h
        cases e with
        | command w port =>
          simp only [fetchEvent, fetchCommandPort] at h
          cases hd : decode (.cmd w) with
          | error e => rw [hd] at h; cases h
          | ok i => rw [hd] at h; exact .command w port rest i hv he hd h
        | storeStep => exact .store rest hv (.inl he) (driveStore_next h)
        | flashReady =>
          simp only [fetchEvent, Host.Outcome.next.injEq] at h
          exact .settle rest hv (.inl he) h.symm
        | reset =>
          simp only [fetchEvent, Host.Outcome.next.injEq] at h
          exact .reset rest hv he h.symm

end Sys2Proof.Laws
end

