-- ==== Sys2Proof/Laws/Sequencer.lean ====
section
/-! SUPPORT. Sequencer.lean: what a step of the store sequencer, a flash operation and a store command leave alone. -/

namespace Sys2Proof.Laws

open Sys2Proof.Machine Sys2Proof.Config

/-- Everything a step of the sequencer leaves alone: the engine, the flash, the inputs, the configuration, the schedule and
the error tape; and the settings but where RESTORE_CONFIG copies; no bit of `CFG_STATUS` falls. -/
structure SequencerFrame (s t : State) : Prop where
  same : t = { s with settings := t.settings, store := t.store, cmd := t.cmd, fop := t.fop, env := t.env }
  events : t.env.events = s.env.events
  errors : t.env.errors = s.env.errors
  settings : s.store.op.copying = false → t.settings = s.settings
  status : t.store.status &&& s.store.status = s.store.status
  pending : t.store.pending = s.store.pending
  anchor : t.store.anchor = s.store.anchor
  done : t.cmd = s.cmd ∨ t.cmd.done = true ∧ t.store.op = .idle ∧ t.store.buf = none
  ended : s.store.op ≠ .idle → t.store.op = .idle → t.cmd.done = true

/-- Bits or'ed in hide none that were set. -/
theorem or_and_self (a b : Byte) : (a ||| b) &&& a = a := by
  apply BitVec.eq_of_getLsbD_eq
  intro i hi
  simp only [BitVec.getLsbD_and, BitVec.getLsbD_or]
  cases a.getLsbD i <;> simp

/-- A step that changes the store's registers alone. -/
theorem SequencerFrame.of_store {s : State} (st : Store) (h1 : st.status &&& s.store.status = s.store.status)
   (h2 : st.pending = s.store.pending) (h3 : st.anchor = s.store.anchor) (h4 : st.op ≠ .idle ∨ s.store.op = .idle) :
       SequencerFrame s { s with store := st } :=
  ⟨rfl, rfl, rfl, fun _ => rfl, h1, h2, h3, .inl rfl, fun a b => absurd b (h4.resolve_right a)⟩

/-- A step that ends its command. -/
theorem SequencerFrame.of_complete {s : State} (r : Bool) (st : Store) (h1 :
    st.status &&& s.store.status = s.store.status)
   (h2 : st.pending = s.store.pending) (h3 : st.anchor = s.store.anchor)  : SequencerFrame s
       (complete r { s with store := st }) :=
  ⟨rfl, rfl, rfl, fun _ => rfl, h1, h2, h3, .inr ⟨rfl, rfl, rfl⟩, fun _ _ => rfl⟩

/-- A step that issues a flash operation. -/
theorem SequencerFrame.of_present {s : State} (w : BitVec 3) (p o : Nat) (d : List Byte) (op : StoreOp) (h :
    op ≠ .idle) :
   SequencerFrame s (present w p o d (setOp op s)) :=
  ⟨rfl, rfl, rfl, fun _ => rfl, BitVec.and_self, rfl, rfl, .inl rfl, fun _ b => absurd b h⟩

/-- A step that only moves on. -/
theorem SequencerFrame.of_op {s : State} (op : StoreOp) (h : op ≠ .idle) : SequencerFrame s (setOp op s) :=
  .of_store _ BitVec.and_self rfl rfl (.inl h)

/-- A step that waits. -/
theorem SequencerFrame.refl (s : State) : SequencerFrame s s :=
  ⟨rfl, rfl, rfl, fun _ => rfl, BitVec.and_self, rfl, rfl, .inl rfl, fun a b => absurd b a⟩

/-- The frame of a step of `EraseSeq` (rule R209). -/
theorem eraseSeqStep_frame (i : Nat) (f : EraseStep → StoreOp) (hf : ∀ e, f e ≠ .idle) (p : EraseStep) (s : State) :
    SequencerFrame s (eraseSeqStep i f p s) := by
  cases p with
  | poll =>
    simp only [eraseSeqStep]
    split
    · exact .refl s
    · exact .of_op _ (hf _)
  | done ok => exact .refl s
  | _ => exact .of_present _ _ _ _ _ (hf _)

/-- The frame of a step of `ProgramSeq` (rule R208). -/
theorem programSeqStep_frame (i o : Nat) (b : List Byte) (f : ProgStep → StoreOp) (hf : ∀ e, f e ≠ .idle) (p :
    ProgStep) (s : State) : SequencerFrame s (programSeqStep i o b f p s) := by
  cases p with
  | poll =>
    simp only [programSeqStep]
    split
    · exact .refl s
    · split
      · exact .of_op _ (hf _)
      · split <;> exact .of_op _ (hf _)
  | done ok => exact .refl s
  | _ => exact .of_present _ _ _ _ _ (hf _)

/-- The frame of a step of the sequencer. -/
theorem storeStep_frame {s t : State} (h : storeStep s = .next t) : SequencerFrame s t := by
  unfold storeStep at h
  split at h
  · cases h; exact .refl s
  · cases h
    unfold restoreFindStep
    split <;> exact .of_store _ BitVec.and_self rfl rfl (.inl StoreOp.noConfusion)
  · cases h
    unfold restoreReclaimStep
    split
    · split <;> exact .of_op _ StoreOp.noConfusion
    · exact .of_op _ StoreOp.noConfusion
  · cases h
    unfold reclaimed
    rename_i erased _ _ _
    cases erased
    · exact .of_store _ (or_and_self _ _) rfl rfl (.inl StoreOp.noConfusion)
    · exact .of_store _ BitVec.and_self rfl rfl (.inl StoreOp.noConfusion)
  · cases h
    exact eraseSeqStep_frame _ _ (fun _ => StoreOp.noConfusion) _ _
  · split at h
    · cases h
    · cases h
      unfold restoreSnapshotStep
      split <;> exact .of_store _ BitVec.and_self rfl rfl (.inl StoreOp.noConfusion)
  · rename_i ho
    have hc : s.store.op.copying = true := by rw [ho]; rfl
    unfold restoreCopyStep at h
    split at h
    · split at h
      · cases h
        exact ⟨rfl, rfl, rfl, fun hn => absurd hc (by rw [hn]; decide), BitVec.and_self, rfl, rfl, .inl rfl,
            fun _ hb => by
          simp only [setOp] at hb; split at hb <;> cases hb⟩
      · cases h
    · cases h
      exact .of_op _ StoreOp.noConfusion
  · rename_i ho
    have hc : s.store.op.copying = true := by rw [ho]; rfl
    cases h
    unfold validate
    split
    · exact .of_op _ StoreOp.noConfusion
    · exact ⟨rfl, rfl, rfl, fun hn => absurd hc (by rw [hn]; decide), or_and_self _ _, rfl, rfl, .inl rfl, fun _ hb =>
        by cases hb⟩
  · cases h
    exact .of_complete _ _ BitVec.and_self rfl rfl
  · cases h
    unfold savePlaceStep
    split
    · split
      · exact .of_complete _ _ (or_and_self _ _) rfl rfl
      · exact .of_store _ BitVec.and_self rfl rfl (.inl StoreOp.noConfusion)
    · exact .of_op _ StoreOp.noConfusion
  · cases h
    exact .of_store _ BitVec.and_self rfl rfl (.inl StoreOp.noConfusion)
  · cases h
    unfold saveReadStep
    split
    · split <;> exact .of_store _ BitVec.and_self rfl rfl (.inl StoreOp.noConfusion)
    · exact .of_op _ StoreOp.noConfusion
  · cases h
    unfold savePadStep
    exact ⟨rfl, by simp, by simp, fun _ => rfl, BitVec.and_self, rfl, rfl, .inl rfl, fun _ hb => by cases hb⟩
  · cases h
    unfold saveProgramDone
    split
    · exact .of_complete _ _ BitVec.and_self rfl rfl
    · exact .of_complete _ _ (or_and_self _ _) rfl rfl
  · cases h
    exact programSeqStep_frame _ _ _ _ (fun _ => StoreOp.noConfusion) _ _
  · cases h
    unfold pageErased
    simp only
    split
    · split <;> exact .of_op _ StoreOp.noConfusion
    · split <;> exact .of_store _ (or_and_self _ _) rfl rfl (.inl StoreOp.noConfusion)
  · cases h
    exact eraseSeqStep_frame _ _ (fun _ => StoreOp.noConfusion) _ _
  · cases h
    exact .of_complete _ _ BitVec.and_self rfl rfl

/-- The frame of a flash operation: it changes the controller's registers alone, and no byte of the pool. -/
theorem exec_fop_frame {w : BitVec 3} {i : Instr} (hd : decode (.fop w) = .ok i) {s t : State} (h :
    exec i s = .next t) :
    t = { s with flash := t.flash } ∧ t.flash.mem = s.flash.mem ∧ s.flash.busy = false := by
  rcases decode_fop hd with rfl | rfl | rfl | rfl | rfl
  · obtain ⟨hb, rfl⟩ := (execFlUnlock_next_iff s t).mp h
    exact ⟨rfl, rfl, hb⟩
  · obtain ⟨hb, rfl⟩ := (execFlClrerr_next_iff s t).mp h
    exact ⟨rfl, rfl, hb⟩
  · obtain ⟨hb, -, -, -, -, rfl⟩ := (execFlProg_next_iff s t).mp h
    exact ⟨rfl, rfl, hb⟩
  · obtain ⟨hb, -, -, rfl⟩ := (execFlErase_next_iff s t).mp h
    exact ⟨rfl, rfl, hb⟩
  · obtain ⟨hb, rfl⟩ := (execFlLock_next_iff s t).mp h
    exact ⟨rfl, rfl, hb⟩

/-- The frame of a command other than TICK: it changes the store's registers and its result alone. -/
theorem exec_store_frame {w : BitVec 4} {i : Instr} (hd : decode (.cmd w) = .ok i) (hi : i ≠ .tick) {s t : State}
    (h : exec i s = .next t) :
    t = { s with store := t.store, cmd := t.cmd } ∧ t.store.status = s.store.status ∧
      (t.cmd.done = s.cmd.done ∨ t.cmd.done = true ∧ t.store.op = .idle ∧ t.store.buf = none) := by
  rcases decode_cmd hd with rfl | rfl | rfl | ⟨f, rfl⟩ | rfl
  · exact absurd rfl hi
  · obtain ⟨-, -, rfl⟩ := (execRestoreConfig_next_iff s t).mp h
    exact ⟨rfl, rfl, .inl rfl⟩
  · cases h
    exact ⟨rfl, rfl, .inl rfl⟩
  · obtain ⟨-, -, rfl⟩ := (execSaveConfig_next_iff f s t).mp h
    cases saveDue f s.inputs.msNow s.store
    · exact ⟨rfl, rfl, .inr ⟨rfl, rfl, rfl⟩⟩
    · exact ⟨rfl, rfl, .inl rfl⟩
  · obtain ⟨-, rfl⟩ := (execEraseConfig_next_iff s t).mp h
    exact ⟨rfl, rfl, .inl rfl⟩

end Sys2Proof.Laws
end

