-- ==== Sys2Proof/Laws/Invariant.lean ====
section
/-! SUPPORT. Invariant.lean: the parts of the invariant's preservation that every instruction shares. -/

namespace Sys2Proof.Laws

open Sys2Proof.Machine Sys2Proof.Config

/-- A step that leaves the engine and the configuration alone keeps the engine's part of the invariant; what the rest needs. -/
theorem inv_mk {s t : State} (h : MachineInv s)
    (e1 : t.params = s.params) (e2 : t.envelopes = s.envelopes) (e3 : t.clock = s.clock) (e4 : t.lfo = s.lfo)
    (offset : t.store.metaValid = true → offsetLegal t.store.nextOffset)
    (indices : t.store.metaValid = true ∨ t.store.op.isRestore = true → indicesLegal t.store.pages)
    (modes : t.store.op.copying = true ∨ settingsLegal t.settings = true)
    (lock : t.flash.locked = t.store.op.lockedAt)
    (job : t.flash.job = none ∨ t.flash.job = jobAwaited t)
    (memory : t.flash.mem.wf) (status : t.store.status &&& 0xF8 = 0) (port : t.fop.valid = false) (place :
        opPlaced t) : MachineInv t where
  params := by rw [e1]; exact h.params
  direction := by unfold directionLegal; rw [e1, e2]; exact h.direction
  envelopes := by unfold envelopesInRange; rw [e2]; exact h.envelopes
  ladder := by unfold ladderConsistent; rw [e1, e3]; exact h.ladder
  offset := offset
  indices := indices
  modes := modes
  interval := by rw [e3]; exact h.interval
  lock := lock
  job := job
  memory := memory
  status := status
  lfo := by rw [e4]; exact h.lfo
  port := port
  place := place

/-- Taking an event from the schedule keeps the invariant. -/
theorem takeEvent_inv {s : State} (h : MachineInv s) (rest : List Event) : MachineInv (takeEvent rest s) :=
  inv_mk h rfl rfl rfl rfl h.offset h.indices h.modes h.lock h.job h.memory h.status h.port h.place

/-- Sampling the inputs keeps the invariant. -/
theorem takeCommand_inv {s : State} (h : MachineInv s) (i : Instr) (port : Inputs) : MachineInv
    (takeCommand i port s) :=
  inv_mk h rfl rfl rfl rfl h.offset h.indices h.modes h.lock h.job h.memory h.status h.port h.place

/-- `opPlaced` reads these fields alone. -/
theorem opPlaced_congr {s t : State} (h1 : t.store.op = s.store.op) (h2 : t.store.buf = s.store.buf) (h3 :
    t.store.metaValid = s.store.metaValid)
   (h4 : t.store.nextOffset = s.store.nextOffset) (h5 : t.params = s.params) (h : opPlaced s) : opPlaced t := by
  unfold opPlaced savePlaced bufLength at *
  rw [h1, h2, h3, h4, h5]
  exact h

/-- `jobAwaited` reads these fields alone. -/
theorem jobAwaited_congr {s t : State} (h1 : t.store.op = s.store.op) (h2 : t.store.buf = s.store.buf) (h3 :
    t.store.curPage = s.store.curPage)
   (h4 : t.store.nextOffset = s.store.nextOffset) (h5 : t.params = s.params) : jobAwaited t = jobAwaited s := by
  unfold jobAwaited
  rw [h1, h2, h3, h4, h5]

/-- The settings are legal when each byte is at most 2 (rule R68). -/
theorem settings_legal_iff (v : Vector Byte 6) : settingsLegal v = true ↔ ∀ j : Fin 6, v[j].toNat ≤ 2 := by
  unfold settingsLegal
  rw [forall_toList]
  simp only [codeLegal, decide_eq_true_eq]

/-- The scan gives legal indices (rules R24, R162). -/
theorem scanPages_legal (p : Params) (m : Memory) : indicesLegal (scanPages p m) := by
  intro i
  simp only [scanPages, Fin.getElem_fin, Vector.getElem_ofFn, scanPage]
  split
  · rename_i h; exact .inr h.2
  · exact .inl rfl

/-- What the invariant says where no store command is in flight. -/
theorem idle_facts {s : State} (h : MachineInv s) (ho : s.store.op = .idle) :
    s.flash.locked = true ∧ s.flash.job = none ∧ s.store.buf = none ∧ settingsLegal s.settings = true := by
  have hl := h.lock; have hj := h.job; have hp := h.place; have hm := h.modes
  unfold jobAwaited at hj; unfold opPlaced at hp
  rw [ho] at hl hj hp hm
  exact ⟨hl, hj.elim id id, hp, hm.resolve_left Bool.false_ne_true⟩

/-- The program units fill the block (rule R208). -/
theorem unitCount_mul {p : Params} (h : p.wellFormed = true) : unitCount p * p.wblk = 16 := by
  obtain ⟨-, -, -, -, -, -, h1, h2, -⟩ := params_pos h
  exact Nat.div_mul_cancel (Nat.dvd_of_mod_eq_zero h2)

/-- A program unit lies inside the block (rule R208). -/
theorem unit_le {p : Params} (h : p.wellFormed = true) {u : Nat} (hu : u < unitCount p) : u * p.wblk + p.wblk ≤ 16 := by
  rw [← unitCount_mul h, ← Nat.succ_mul]
  exact Nat.mul_le_mul_right _ hu

/-- A program unit has `FLASH_WBLK` bytes (rule R208). -/
theorem unitBytes_length {p : Params} (h : p.wellFormed = true) {u : Nat} (hu : u < unitCount p) {b : List Byte} (hb :
    b.length = 16) :
   (unitBytes p.wblk u b).length = p.wblk := by
  unfold unitBytes
  rw [List.length_take, List.length_drop, hb]
  have := unit_le h hu
  omega

/-- The job of a machine in the invariant lies inside the pool (rule R207). -/
theorem awaited_inPool {s : State} (h : MachineInv s) : ∀ j, s.flash.job = some j → jobInPool j := by
  intro j hj
  have ha : jobAwaited s = some j := by
    rcases h.job with e | e
    · rw [hj] at e; cases e
    · rw [← e]; exact hj
  have hp := h.place
  unfold jobAwaited at ha; unfold opPlaced at hp
  split at ha
  · rename_i i ok found ho
    rw [ho] at hp
    cases ha
    exact hp.1
  · rename_i i ok ho
    rw [ho] at hp
    cases ha
    exact hp.1
  · rename_i u ho
    rw [ho] at hp
    cases ha
    obtain ⟨⟨-, ho', hs⟩, hb, hu⟩ := hp
    refine ⟨s.store.curPage.isLt, ?_⟩
    unfold bufLength at hb
    obtain ⟨b, hb', hlen⟩ := Option.map_eq_some_iff.mp hb
    rw [hb']
    change s.store.nextOffset + u * s.params.wblk + (unitBytes s.params.wblk u b).length ≤ 2048
    rw [unitBytes_length h.params hu hlen]
    have := unit_le h.params hu
    change s.store.nextOffset + 16 ≤ 2048 at hs
    omega
  · cases ha

/-- A presented operation is the one executed. -/
theorem presented {i j : Instr} {w : BitVec 3} (hw : w = flashWord j) (hj : decode (.fop (flashWord j)) = .ok j) (hd :
    decode (.fop w) = .ok i) : i = j := by
  rw [hw, hj] at hd
  exact (Except.ok.inj hd).symm

/-- Raising an error leaves the reserved bits of `CFG_STATUS` zero (rule R26). -/
theorem status_or {a m : Byte} (h : a &&& 0xF8 = 0) (hm : m &&& 0xF8 = 0) : (a ||| m) &&& 0xF8 = 0 := by
  have : (a ||| m) &&& 0xF8 = (a &&& 0xF8) ||| (m &&& 0xF8) := by
    ext i hi
    simp [Bool.and_or_distrib_right]
  rw [this, h, hm]; decide

/-- Taking a page's index away keeps the indices legal (rule R24). -/
theorem updatePage_legal {pages : Vector PageDesc nPages} (h : indicesLegal pages) (i : Nat) {f : PageDesc → PageDesc}
    (hf : ∀ d, (f d).index = noIndex) : indicesLegal (updatePage i f pages) := by
  intro j
  by_cases hij : i = j.val
  · left
    subst hij
    have := updatePage_self j.val j.isLt f pages
    simp only [Fin.getElem_fin]
    rw [this, hf]
  · have := updatePage_ne i j.val j.isLt f pages hij
    simp only [Fin.getElem_fin]
    rw [this]
    exact h j

/-- The search for the last block stays inside the page (rule R166). -/
theorem lastBlock_legal (p : Params) (m : Memory) (pos : Nat) (fuel o : Nat) (h : o % 16 = 0 ∧ o + 16 ≤ 2048) :
   lastBlock p m pos fuel o % 16 = 0 ∧ lastBlock p m pos fuel o + 16 ≤ 2048 := by
  induction fuel generalizing o with
  | zero => exact h
  | succ n ih =>
    unfold lastBlock
    split
    · rename_i hc
      have : o + 2 * 16 ≤ 2048 := hc.1
      exact ih (o + 16) ⟨by omega, by omega⟩
    · exact h

/-- What one machine step of an erase sequence does, short of its last place (rule R209). -/
theorem erase_arm {s t : State} {i : Nat} {f : EraseStep → StoreOp} {p : EraseStep} (hnd : ∀ ok, p ≠ .done ok) (hfv :
    s.fop.valid = false)
   (hl : s.flash.locked = p.lockedAt) (hj : s.flash.job = none ∨ (p = .poll ∧ s.flash.job = some (.erase i)))
   (hself : s.store.op = f p)
   (hs : storeStep s = .next (eraseSeqStep i f p s)) (hd : Driven s t) :
   ∃ q, t.store = { s.store with op := f q } ∧ t.params = s.params ∧ t.envelopes = s.envelopes ∧ t.clock = s.clock ∧
       t.lfo = s.lfo ∧
     t.settings = s.settings ∧ t.flash.mem = s.flash.mem ∧ t.flash.locked = q.lockedAt ∧
     (t.flash.job = none ∨ (q = .poll ∧ t.flash.job = some (.erase i))) ∧ t.fop.valid = false := by
  cases p with
  | done ok => exact absurd rfl (hnd ok)
  | poll =>
    simp only [eraseSeqStep] at hs
    cases hb : s.flash.busy with
    | true =>
      rw [hb, if_pos rfl] at hs
      rcases hd with ⟨h, hv⟩ | ⟨v, k, h, hv, hd, he⟩
      · rw [hs] at h; cases h
        exact ⟨.poll, by rw [← hself], rfl, rfl, rfl, rfl, rfl, rfl, hl, hj.imp id (fun h => h), hfv⟩
      · rw [hs] at h; cases h
        rw [hfv] at hv; cases hv
    | false =>
      rw [hb, if_neg (by decide)] at hs
      have hjn : s.flash.job = none := by simpa using hb
      rcases hd with ⟨h, hv⟩ | ⟨v, k, h, hv, hd, he⟩
      · rw [hs] at h; cases h
        exact ⟨.lock _, rfl, rfl, rfl, rfl, rfl, rfl, rfl, hl, .inl hjn, hfv⟩
      · rw [hs] at h; cases h
        change s.fop.valid = true at hv
        rw [hfv] at hv; cases hv
  | unlock =>
    have hjn : s.flash.job = none := hj.elim id (fun h => by cases h.1)
    rcases hd with ⟨h, hv⟩ | ⟨v, k, h, hv, hd, he⟩
    · rw [hs] at h; cases h; cases hv
    · rw [hs] at h; cases h
      obtain rfl := presented (j := .flUnlock) rfl rfl hd
      obtain ⟨-, rfl⟩ := (execFlUnlock_next_iff _ t).mp he
      exact ⟨.clearErr, rfl, rfl, rfl, rfl, rfl, rfl, rfl, rfl, .inl hjn, rfl⟩
  | clearErr =>
    have hjn : s.flash.job = none := hj.elim id (fun h => by cases h.1)
    rcases hd with ⟨h, hv⟩ | ⟨v, k, h, hv, hd, he⟩
    · rw [hs] at h; cases h; cases hv
    · rw [hs] at h; cases h
      obtain rfl := presented (j := .flClrerr) rfl rfl hd
      obtain ⟨-, rfl⟩ := (execFlClrerr_next_iff _ t).mp he
      exact ⟨.erase, rfl, rfl, rfl, rfl, rfl, rfl, rfl, hl, .inl hjn, rfl⟩
  | erase =>
    rcases hd with ⟨h, hv⟩ | ⟨v, k, h, hv, hd, he⟩
    · rw [hs] at h; cases h; cases hv
    · rw [hs] at h; cases h
      obtain rfl := presented (j := .flErase) rfl rfl hd
      obtain ⟨-, -, -, rfl⟩ := (execFlErase_next_iff _ t).mp he
      exact ⟨.poll, rfl, rfl, rfl, rfl, rfl, rfl, rfl, hl, .inr ⟨rfl, rfl⟩, rfl⟩
  | lock ok =>
    have hjn : s.flash.job = none := hj.elim id (fun h => by cases h.1)
    rcases hd with ⟨h, hv⟩ | ⟨v, k, h, hv, hd, he⟩
    · rw [hs] at h; cases h; cases hv
    · rw [hs] at h; cases h
      obtain rfl := presented (j := .flLock) rfl rfl hd
      obtain ⟨-, rfl⟩ := (execFlLock_next_iff _ t).mp he
      exact ⟨.done ok, rfl, rfl, rfl, rfl, rfl, rfl, rfl, rfl, .inl hjn, rfl⟩

/-- A store step that presents no flash operation is the machine step itself. -/
theorem plain_arm {s t u : State} (hs : storeStep s = .next u) (hv : u.fop.valid = false) (hd : Driven s t) : t = u :=
    by
  rcases hd with ⟨h, hv'⟩ | ⟨v, k, h, hv', hd, he⟩
  · rw [hs] at h; exact (Host.Outcome.next.inj h).symm
  · rw [hs] at h; cases h; rw [hv] at hv'; cases hv'

theorem tick_next {s : State} (h : TickAllowed s) : ∃ t, exec .tick s = .next t ∧ TickAllowed t ∧ t.inputs = s.inputs ∧ t.params = s.params ∧
    t.envelopes = stepEnvelopes s.params s.inputs s.envelopes ∧
    (∀ j : Fin 6, s.inputs.btnN[j] = true → t.settings[j] = s.settings[j]) ∧
    (∀ k : Fin 3, k ≠ 0 → t.lfo[k].phase = s.lfo[k].phase + freeIncrement s.params (rateOf k t)) := by
  refine ⟨_, exec_tick h, ?_⟩
  have hv := lfo_values (beforeLfos s)
  obtain ⟨l, c, o, ht, -⟩ := lfoPhase_frame (beforeLfos s)
  obtain ⟨p, hp, hb⟩ := beforeLfos_spec s
  obtain ⟨hv1, hv2, hv3, hv4, hv5, -⟩ := hv
  have hph := fun k => (hv5 k).1
  rw [tickEngine_eq]
  rw [ht] at hph ⊢
  rw [hb] at hph ⊢
  have hset : ∀ j : Fin 6, p.settings[j] = (if pressAt j (countTick s) then nextCode s.settings[j] else s.settings[j]) := fun j => (hp.done j (mem_allButtons j)).2
  refine ⟨⟨h.metaValid, h.noRestore, h.samples, fun j => ?_⟩, rfl, rfl, rfl, fun j hj => ?_, fun k hk => ?_⟩
  · change p.settings[j].toNat ≤ 2
    rw [hset]
    split
    · have := nextCode_toNat (h.modes j); omega
    · exact h.modes j
  · change p.settings[j] = _
    rw [hset, if_neg]
    rintro ⟨e, -⟩
    rw [show (countTick s).inputs.btnN[j] = s.inputs.btnN[j] from rfl, hj] at e
    cases e
  · refine (hph k).trans ?_
    unfold incOf
    rw [if_neg (fun e => hk e.1)]
    rfl

/-- Away from the polls no flash operation is awaited. -/
theorem jobAwaited_none {s : State} (h1 : ∀ i ok found, s.store.op ≠ .restoreErase i .poll ok found) (h2 : ∀ i ok,
    s.store.op ≠ .eraseAll i .poll ok)
   (h3 : ∀ u, s.store.op ≠ .saveProgram (.poll u)) : jobAwaited s = none := by
  unfold jobAwaited
  split
  · rename_i h; exact absurd h (h1 _ _ _)
  · rename_i h; exact absurd h (h2 _ _)
  · rename_i h; exact absurd h (h3 _)
  · rfl

/-- A store step that presents no flash operation settles the machine step. -/
theorem drive_plain {s u : State} (hs : storeStep s = .next u) (hv : u.fop.valid = false) :
    driveStore s = .settled (.next u) := by
  unfold driveStore
  rw [hs]
  simp [hv]

/-- A store step that presents a flash operation goes on with that operation. -/
theorem drive_issue {s u : State} {i : Instr} (hs : storeStep s = .next u) (hv : u.fop.valid = true)
    (hd : decode (.fop u.fop.word) = .ok i) : driveStore s = .run i (takeFop u) := by
  unfold driveStore
  rw [hs]
  simp [hv, fetchFlashPort, hd, takeFop]

/-- With nothing scheduled and the controller at rest, a step is a store step. -/
theorem step_unscheduled {s : State} (hp : s.params.wellFormed = true) (hv : s.fop.valid = false)
    (he : s.env.events = []) (hb : s.flash.busy = false) :
    (∀ i u, driveStore (endPulse s) = .run i u → step s = exec i u) ∧
      (∀ r, driveStore (endPulse s) = .settled r → step s = r) := by
  have h : fetch (endPulse s) = driveStore (endPulse s) := by
    unfold fetch
    rw [if_neg (show ¬¬(endPulse s).params.wellFormed = true by simp [endPulse, hp]),
      if_neg (show ¬(endPulse s).fop.valid = true by simp [endPulse, hv]),
      show (endPulse s).env.events = [] from he]
    simp only [fetchUnscheduled]
    rw [if_neg (show ¬(endPulse s).flash.busy = true by
      rw [show (endPulse s).flash.busy = s.flash.busy from rfl, hb]; decide)]
  unfold step
  rw [h]
  exact ⟨fun i u hd => by rw [hd], fun r hd => by rw [hd]⟩

/-- With nothing scheduled and the controller busy, a step is the end of its operation. -/
theorem step_settles {s : State} (hp : s.params.wellFormed = true) (hv : s.fop.valid = false)
    (he : s.env.events = []) (hb : s.flash.busy = true) : step s = .next (flashSettle (endPulse s)) := by
  unfold step fetch
  rw [if_neg (show ¬¬(endPulse s).params.wellFormed = true by simp [endPulse, hp]),
    if_neg (show ¬(endPulse s).fop.valid = true by simp [endPulse, hv]),
    show (endPulse s).env.events = [] from he]
  simp only [fetchUnscheduled]
  rw [if_pos (show (endPulse s).flash.busy = true from hb)]

/-- One step of a run of any machine. -/
theorem core_run_step (M : Host.Core) (n : Nat) (s : M.State) :
    (∀ t, M.step s = .next t → M.run (n + 1) s = M.run n t) ∧
    (∀ f, M.step s = .fault f → M.run (n + 1) s = .fault f) ∧
    (∀ r, M.step s = .refused r → M.run (n + 1) s = .refused r) := by
  refine ⟨?_, ?_, ?_⟩ <;> intro t h <;> rw [Host.Core.run.eq_def] <;> simp only [h]

/-- One step of a run. -/
theorem run_succ {s u : State} (n : Nat) (h : step s = .next u) : run (n + 1) s = run n u := by
  exact (core_run_step Sys2Proof.core n s).1 u h

/-- Runs in sequence. -/
theorem run_add {m n : Nat} {s u : State} (h : run m s = .next u) : run (m + n) s = run n u := by
  induction m generalizing s with
  | zero =>
    cases h
    rw [Nat.zero_add]
  | succ k ih =>
    rw [show k + 1 + n = (k + n) + 1 by omega]
    cases hs : step s with
    | next t =>
      rw [run_succ k hs] at h
      rw [run_succ (k + n) hs]
      exact ih h
    | fault f =>
      have := ((core_run_step Sys2Proof.core k s).2.1 f hs).symm.trans h
      cases this
    | refused r =>
      have := ((core_run_step Sys2Proof.core k s).2.2 r hs).symm.trans h
      cases this

end Sys2Proof.Laws
end

