-- ==== Sys2Proof/Laws/PerInstr.lean ====
section
/-! SUPPORT. PerInstr.lean: what is proved of every instruction, one lemma per constructor. -/

namespace Sys2Proof.Laws.EncodingRoundTrip

/-- The decoder reads the instruction from its own word, and it is well formed (rules R60, R61, R65). -/
def Statement (i : Instr) : Prop := decode (encode i) = .ok i ∧ i.wellFormed = true

theorem tick : Statement .tick := ⟨rfl, rfl⟩

theorem restoreConfig : Statement .restoreConfig := ⟨rfl, rfl⟩

theorem scheduleSave : Statement .scheduleSave := ⟨rfl, rfl⟩

theorem saveConfig (force : Bool) : Statement (.saveConfig force) := by cases force <;> exact ⟨rfl, rfl⟩

theorem eraseConfig : Statement .eraseConfig := ⟨rfl, rfl⟩

theorem flUnlock : Statement .flUnlock := ⟨rfl, rfl⟩

theorem flClrerr : Statement .flClrerr := ⟨rfl, rfl⟩

theorem flProg : Statement .flProg := ⟨rfl, rfl⟩

theorem flErase : Statement .flErase := ⟨rfl, rfl⟩

theorem flLock : Statement .flLock := ⟨rfl, rfl⟩

end Sys2Proof.Laws.EncodingRoundTrip
end

