-- ==== Sys2Proof/Laws/Restore.lean ====
section
/-! SUPPORT. Restore.lean: what the searches of RESTORE_CONFIG find. -/

namespace Sys2Proof.Laws

open Sys2Proof.Machine Sys2Proof.Config

/-- A claim about the four magic bytes, one by one. -/
theorem forall_fin4 {p : Nat → Prop} : (∀ n : Fin 4, p n.val) ↔ (p 0 ∧ p 1 ∧ p 2 ∧ p 3) := by
  constructor
  · intro h; exact ⟨h 0, h 1, h 2, h 3⟩
  · rintro ⟨h0, h1, h2, h3⟩ n
    have : n = 0 ∨ n = 1 ∨ n = 2 ∨ n = 3 := by revert n; decide
    rcases this with rfl | rfl | rfl | rfl <;> assumption

/-- The four bytes at an address are the magic (rule R46). -/
theorem four_bytes (p : Params) (m : Memory) (a : Nat) : readBytes m a 4 = magic p ↔ ∀ n : Fin 4, readByte m
    (a + n.val) = (magic p)[n.val]?.getD 0 := by
  rw [forall_fin4 (p := fun n => readByte m (a + n) = (magic p)[n]?.getD 0)]
  unfold magic
  simp [readBytes, Nat.add_assoc]

/-- The magic at a pool location, byte by byte (rule R46). -/
theorem magicAt_iff (p : Params) (m : Memory) (pos off : Nat) : magicAt p m pos off = true ↔
    ∀ n : Fin 4, readByte m (poolOffset pos (off + n)) = (magic p)[n]?.getD 0 := by
  unfold magicAt
  rw [decide_eq_true_eq, four_bytes]
  have e : ∀ k, poolOffset pos (off + k) = poolOffset pos off + k := fun k => by unfold poolOffset; omega
  simp only [e]
  rfl

/-- The decoder of block headers finds what `blockAt` says (rule R166). -/
theorem blockAt_iff (s : State) (pos off : Nat) : magicAt s.params s.flash.mem pos off = true ↔ blockAt s pos off := by
  rw [magicAt_iff]; rfl

/-- An index is present (rule R163). -/
theorem indexPresent_iff {pages : Vector PageDesc nPages} {e : Nat} (he : e < nPages) :
    indexPresent pages e = true ↔ ∃ i : Fin nPages, pages[i].index.toNat = e := by
  unfold indexPresent
  rw [List.any_eq_true]
  constructor
  · rintro ⟨d, hd, h⟩
    rw [Vector.mem_toList_iff, Vector.mem_iff_getElem] at hd
    obtain ⟨i, hi, rfl⟩ := hd
    simp at h
    exact ⟨⟨i, hi⟩, h.2⟩
  · rintro ⟨i, h⟩
    refine ⟨pages[i], by rw [Vector.mem_toList_iff]; exact Vector.getElem_mem _, ?_⟩
    simp only [Bool.and_eq_true, decide_eq_true_eq]
    refine ⟨fun e' => ?_, h⟩
    rw [e'] at h
    change 255 = e at h
    change e < 20 at he
    omega

/-- The run of present indices from `e`: its end, and that it is unbroken and cannot go on (rule R163). -/
theorem runEnd_spec (pages : Vector PageDesc nPages) (fuel e : Nat) (he : e < nPages) (hf : nPages ≤ e + fuel + 1)
    (hp : indexPresent pages e = true) :
   e ≤ runEnd pages fuel e ∧ runEnd pages fuel e < nPages ∧ (∀ x, e ≤ x → x ≤ runEnd pages fuel e →
       indexPresent pages x = true) ∧
   (runEnd pages fuel e + 1 < nPages → indexPresent pages (runEnd pages fuel e + 1) = false) := by
  induction fuel generalizing e with
  | zero =>
    refine ⟨Nat.le_refl _, he, fun x h1 h2 => ?_, fun h => ?_⟩
    · have : x = e := Nat.le_antisymm h2 h1
      rw [this]; exact hp
    · exact absurd (show e + 1 < nPages from h) (by omega)
  | succ n ih =>
    unfold runEnd
    split
    · rename_i h
      obtain ⟨a, b, c, d⟩ := ih (e + 1) h.1 (by omega) h.2
      refine ⟨by omega, b, fun x h1 h2 => ?_, d⟩
      rcases Nat.lt_or_ge e x with hx | hx
      · exact c x hx h2
      · have : x = e := by omega
        rw [this]; exact hp
    · rename_i h
      refine ⟨Nat.le_refl _, he, fun x h1 h2 => ?_, fun h' => ?_⟩
      · have : x = e := Nat.le_antisymm h2 h1
        rw [this]; exact hp
      · rw [← Bool.not_eq_true]; exact fun hh => h ⟨h', hh⟩

/-- The last block of the unbroken run of blocks from block `j` (rule R166). -/
theorem lastBlock_spec (s : State) (pos fuel j : Nat) (hj : j < 128) (hf : 128 ≤ j + fuel) :
   ∃ k, lastBlock s.params s.flash.mem pos fuel (j * 16) = k * 16 ∧ j ≤ k ∧ k < 128 ∧ (∀ i, j < i → i ≤ k →
       blockAt s pos (i * 16)) ∧
     (k = 127 ∨ ¬blockAt s pos ((k + 1) * 16)) := by
  induction fuel generalizing j with
  | zero => omega
  | succ n ih =>
    unfold lastBlock
    split
    · rename_i h
      have h1 : j * 16 + 2 * 16 ≤ 2048 := h.1
      have e : j * 16 + blk = (j + 1) * 16 := by change j * 16 + 16 = _; omega
      rw [e]
      obtain ⟨k, a, b, c, d, f⟩ := ih (j + 1) (by omega) (by omega)
      refine ⟨k, a, by omega, c, fun i h1 h2 => ?_, f⟩
      rcases Nat.lt_or_ge (j + 1) i with hi | hi
      · exact d i hi h2
      · have : i = j + 1 := by omega
        rw [this, ← e]; exact (blockAt_iff _ _ _).mp h.2
    · rename_i h
      refine ⟨j, rfl, Nat.le_refl _, hj, fun i h1 h2 => by omega, ?_⟩
      by_cases h127 : j = 127
      · exact .inl h127
      · right
        intro hb
        refine h ⟨?_, ?_⟩
        · change j * 16 + 2 * 16 ≤ 2048; omega
        · rw [blockAt_iff]
          have e : j * 16 + blk = (j + 1) * 16 := by change j * 16 + 16 = _; omega
          rw [e]; exact hb

end Sys2Proof.Laws
end

