-- ==== Sys2Proof/Tests/Slice0.lean ====
section
/-! SUPPORT. Slice0.lean: tests of the model against values the spec gives (30_encoding.md, 95_test_vectors.md), and for
every obligation with hypotheses a state that meets them. Each test's comment names where its expected value comes from. -/

set_option Elab.async false

namespace Sys2Proof.Tests

open Sys2Proof.Machine Sys2Proof.Config Sys2Proof.Laws

/-! ### Small states -/

/-- A machine that has booted, with settings (RAMP, SWELL), (NONE, SWELL), (RAMP, RAMP). -/
def ready : State :=
  { State.reset with
    settings := #v[1, 2, 0, 2, 1, 1]
    store := { State.reset.store with metaValid := true } }

/-- The same machine with all settings NONE. -/
def plain : State := { ready with settings := Vector.replicate 6 0 }

/-- A machine whose inputs are these. -/
def sampled (i : Inputs) (s : State) : State := { s with inputs := i }

/-- Samples 4095 on the four envelope controls. -/
def fullControls : Vector Sample 10 := #v[0, 0, 0, 0, 0, 0, 4095, 4095, 4095, 4095]

/-- A machine whose pool starts with these bytes at a pool offset. -/
def holding (a : Nat) (bs : List Byte) (s : State) : State :=
  { s with flash := { s.flash with mem := writeBytes s.flash.mem a bs } }

/-- A machine whose draws of errors are these. -/
def failing (es : List Bool) (s : State) : State := { s with env := { s.env with errors := es } }

/-- A field of the next state; none where the outcome is no next state. -/
def got {α : Type} (f : State → α) : Result → Option α
  | .next t => some (f t)
  | .fault _ => none
  | .refused _ => none

/-- The refusal of an outcome. -/
def refusal : Result → Option Refusal
  | .next _ => none
  | .fault _ => none
  | .refused r => some r

theorem next_of_got {r : Result} (h : got (fun _ => true) r = some true) : ∃ t, r = .next t := by
  cases r with
  | next t => exact ⟨t, rfl⟩
  | fault f => cases h
  | refused q => cases h

/-! ### WellFormed -/

/-- Rule R6 on the reference values of rule R5. -/
theorem test_reference_params : Params.ref.wellFormed = true := by decide +kernel

theorem test_refuses_zero_ramp_increment : { Params.ref with rampInc := 0 }.wellFormed = false := by decide +kernel
theorem test_refuses_zero_swell_increment : { Params.ref with swellInc := 0 }.wellFormed = false := by decide +kernel
theorem test_refuses_zero_release_increment : { Params.ref with releaseInc := 0 }.wellFormed = false := by decide +kernel
theorem test_refuses_swell_fall_one : { Params.ref with swellFall := 1 }.wellFormed = false := by decide +kernel
theorem test_refuses_swell_fall_zero : { Params.ref with swellFall := 0 }.wellFormed = false := by decide +kernel
theorem test_refuses_zero_free_scale : { Params.ref with kFree := 0 }.wellFormed = false := by decide +kernel
/-- 257 × 4095² is above 2^32. -/
theorem test_refuses_large_free_scale : { Params.ref with kFree := 257 }.wellFormed = false := by decide +kernel
theorem test_refuses_zero_second : { Params.ref with secondTicks := 0 }.wellFormed = false := by decide +kernel
theorem test_refuses_odd_write_block : { Params.ref with wblk := 3 }.wellFormed = false := by decide +kernel
theorem test_refuses_zero_write_block : { Params.ref with wblk := 0 }.wellFormed = false := by decide +kernel
theorem test_refuses_repeated_multiplier :
    { Params.ref with ladder := #v[8, 8, 2, 1, 1 / 2, 1 / 4] }.wellFormed = false := by decide +kernel
/-- Rule R70: samples are 0 .. 4095. -/
theorem test_refuses_sample_4096 : sampleLegal 4096 = false ∧ sampleLegal 4095 = true := by decide
theorem test_step_refuses_bad_configuration :
    refusal (step { ready with params := { Params.ref with wblk := 3 } }) = some .badConfiguration := by decide +kernel

/-! ### Decoding: every word of V-EX-1 and of rule R65's table, bit by bit -/

theorem test_decode_tick : decode (.cmd 0b0000#4) = .ok .tick := by rfl
theorem test_decode_restore_config : decode (.cmd 0b0001#4) = .ok .restoreConfig := by rfl
theorem test_decode_schedule_save : decode (.cmd 0b0010#4) = .ok .scheduleSave := by rfl
theorem test_decode_save_config : decode (.cmd 0b0011#4) = .ok (.saveConfig false) := by rfl
theorem test_decode_save_config_force : decode (.cmd 0b1011#4) = .ok (.saveConfig true) := by rfl
theorem test_decode_erase_config : decode (.cmd 0b0100#4) = .ok .eraseConfig := by rfl
theorem test_decode_fl_unlock : decode (.fop 0b000#3) = .ok .flUnlock := by rfl
theorem test_decode_fl_clrerr : decode (.fop 0b001#3) = .ok .flClrerr := by rfl
theorem test_decode_fl_prog : decode (.fop 0b010#3) = .ok .flProg := by rfl
theorem test_decode_fl_erase : decode (.fop 0b011#3) = .ok .flErase := by rfl
theorem test_decode_fl_lock : decode (.fop 0b100#3) = .ok .flLock := by rfl
/-- V-EX-1's refused words. -/
theorem test_decode_reserved : ∀ w ∈ [0b0101#4, 0b0110#4, 0b0111#4, 0b1000#4, 0b1001#4, 0b1010#4, 0b1100#4, 0b1101#4,
    0b1110#4, 0b1111#4], (decode (.cmd w)).toOption = none := by decide
/-- Rule R65: `fop` 101, 110, 111. -/
theorem test_decode_reserved_flash : ∀ w ∈ [0b101#3, 0b110#3, 0b111#3], (decode (.fop w)).toOption = none := by decide
/-- The numbers of spec/opcode_table.json. -/
theorem test_table_words : decodeTableWord 8 0xB = some (.saveConfig true) ∧ decodeTableWord 8 0x4 = some .eraseConfig ∧
    decodeTableWord 3 0x3 = some .flErase ∧ decodeTableWord 8 0x10 = none := by decide

/-! ### The first step after reset -/

/-- Rule R252: before RESTORE_CONFIG a TICK has no meaning (V-EX-2). -/
theorem test_first_tick : refusal (step (State.reset.withFetchWord 8 0x0)) = some .beforeMetadata := by decide +kernel
theorem test_first_restore : got (fun t => t.store.op) (step (State.reset.withFetchWord 8 0x1)) = some .restoreFind := by
  decide +kernel
theorem test_first_schedule : got (fun t => t.store.pending) (step (State.reset.withFetchWord 8 0x2)) = some true := by
  decide +kernel
/-- Rule R252 (V-EX-2). -/
theorem test_first_save : refusal (step (State.reset.withFetchWord 8 0xB)) = some .beforeMetadata := by decide +kernel
theorem test_first_erase :
    got (fun t => t.store.op) (step (State.reset.withFetchWord 8 0x4)) = some (.eraseAll 0 .unlock true) := by decide +kernel
theorem test_first_fl_unlock : got (fun t => t.flash.locked) (step (State.reset.withFetchWord 3 0x0)) = some false := by
  decide +kernel
/-- Rule R207: the flash is locked after reset (rule R30). -/
theorem test_first_fl_prog : refusal (step (State.reset.withFetchWord 3 0x2)) = some .flashLocked := by decide +kernel

/-! ### TICK -/

/-- Rule R20: `ramp_n` is 0 exactly in mode RAMP, `swell_n` exactly in SWELL. -/
theorem test_mode_leds : modeLed 0 = ⟨true, true⟩ ∧ modeLed 1 = ⟨false, true⟩ ∧ modeLed 2 = ⟨true, false⟩ := by decide

/-- V-TK-1: the first tick after boot with the gate active and full controls. -/
theorem test_tick_first : got (fun t => (t.envelopes, t.out.rampDac, t.out.rampLed, t.out.swellDac, t.tickCounter))
    (exec .tick (sampled ⟨fullControls, false, true, Vector.replicate 6 true, 0⟩ plain)) =
      some (⟨⟨1, 512, by decide, by decide⟩, ⟨1, 256, by decide, by decide⟩, 1⟩, 7, 0, 15, 1) := by decide +kernel

/-- V-EN-2, first release tick: 1023/1024, 4091, 4087, and the swell's direction back at +1. -/
theorem test_tick_release : got (fun t => (t.envelopes, t.out.rampDac, t.out.rampLed, t.out.swellDac))
    (exec .tick { sampled ⟨fullControls, true, true, Vector.replicate 6 true, 0⟩ plain with
      envelopes := ⟨1, 0, ⟨-1, 2, by decide, by decide⟩⟩ }) =
      some (⟨⟨1023, 1024, by decide, by decide⟩, 0, 1⟩, 4091, 4087, 0) := by decide +kernel

/-- V-EN-1, ticks 256 and 257: the swell flips at its level and falls at half the rate. -/
theorem test_swell_flips : swellStep Params.ref true 1 1 ⟨255, 256, by decide, by decide⟩ 1 =
      (1, ⟨-1, 2, by decide, by decide⟩) ∧
    swellStep Params.ref true 1 1 1 ⟨-1, 2, by decide, by decide⟩ =
      (⟨511, 512, by decide, by decide⟩, ⟨-1, 2, by decide, by decide⟩) := by decide +kernel

/-- V-EN-4, tick 512: the ramp is clamped at its level bound, 200/819. -/
theorem test_ramp_clamps : rampStep Params.ref true (normalised 4095) (normalised 1000) ⟨1825, 7488, by decide, by decide⟩ =
    ⟨200, 819, by decide, by decide⟩ := by decide +kernel

/-- V-BT-2 whole: exactly one report of the first press, the next at 402. -/
theorem test_bounce_train : reports [(false, 200), (true, 201), (false, 202), (true, 203), (false, 204), (false, 250),
      (true, 301), (false, 302), (false, 401)] ⟨0, 0⟩ = (1, ⟨0, 301⟩) ∧
    pressed ⟨0, 301⟩ false 402 = (⟨402, 301⟩, true) := by decide +kernel

/-- V-BT-3: the counter wraps. -/
theorem test_button_wrap : pressed ⟨0, 4294967246⟩ false 50 = (⟨0, 4294967246⟩, false) ∧
    pressed ⟨0, 4294967246⟩ false 51 = (⟨51, 4294967246⟩, true) := by decide

/-- P1, tick `ms=101`: the press makes the rate mode of oscillator 0 RAMP and schedules a save. -/
theorem test_tick_press : got (fun t => (t.settings.toList, t.store.pending, t.store.anchor))
    (exec .tick (sampled ⟨Vector.replicate 10 0, true, true, #v[false, true, true, true, true, true], 101⟩ plain)) =
      some ([1, 0, 0, 0, 0, 0], true, 101) := by decide +kernel

/-- P2, tick 1: a low first sample is an edge with interval 1; candidate 2400 is adopted with multiplier 1. -/
theorem test_tick_clock : got (fun t => (t.clock, t.lfo[0].phase))
    (exec .tick (sampled ⟨#v[2400, 4095, 0, 2048, 0, 2000, 0, 0, 0, 0], true, false, Vector.replicate 6 true, 0⟩ plain)) =
      some (⟨false, 1, 1, true, 2400, 1⟩, 0) := by decide +kernel

/-- V-CK-2: the bands on both sides of each threshold. -/
theorem test_bands : [0, 681, 682, 1364, 1365, 2047, 2048, 2730, 2731, 3412, 3413, 4095].map band =
    [0, 0, 1, 1, 2, 2, 3, 3, 4, 4, 5, 5] := by decide +kernel

/-- V-CK-3: 3433 is adopted over 3412, 3434 is not adopted over 3433. -/
theorem test_hysteresis : (ladderUpdate Params.ref 3433 ⟨true, 0, 0, true, 3412, 0⟩).hyst = 3433 ∧
    (ladderUpdate Params.ref 3434 ⟨true, 0, 0, true, 3433, 0⟩).hyst = 3433 := by decide +kernel

/-- V-CK-5: intervals 3 and 1000 under the multiplier 8, interval 1 under 1/2. -/
theorem test_clock_increments : clockIncrement ⟨true, 0, 3, true, 0, 8⟩ = 2863311530 ∧
    clockIncrement ⟨true, 0, 1000, true, 0, 8⟩ = 34359738 ∧
    clockIncrement ⟨true, 0, 1, true, 0, ⟨1, 2, by decide, by decide⟩⟩ = 2147483648 := by decide +kernel

/-- V-LF-1. -/
theorem test_free_increments : [(0 : Rat), 1, 64, 2400, 4095].map (freeIncrement Params.ref) =
    [0, 1, 4096, 5760000, 16769025] := by decide +kernel

/-- V-LF-2: the codes at the quadrants for outLevel 4095/2. -/
theorem test_quadrant_codes : [(0 : Rat), 1, -1].map (fun x => bipolarCode x ⟨4095, 2, by decide, by decide⟩) =
    [2047, 4095, 0] := by decide +kernel

/-- P2, tick 5: the FM position of oscillator 1. -/
theorem test_fm_position : fmPosition 0 (1 * ⟨4095, 2, by decide, by decide⟩ * fmScale) = 536739840 ∧
    fmPosition 0 (-1 * ⟨4095, 2, by decide, by decide⟩ * fmScale) = 3758227456 := by decide +kernel

/-! ### The store -/

/-- V-ST-3: 59999 ms after the anchor nothing is due, 60000 ms after it the save begins. -/
theorem test_save_debounce :
    got (fun t => t.store.op) (exec (.saveConfig false)
      (sampled (Inputs.idle 60100) { ready with store := { ready.store with pending := true, anchor := 101 } })) = some .idle ∧
    got (fun t => (t.store.op, t.store.pending)) (exec (.saveConfig false)
      (sampled (Inputs.idle 60101) { ready with store := { ready.store with pending := true, anchor := 101 } })) =
      some (.savePlace, false) := by decide +kernel

/-- V-ST-4 (a), (b) and a good header: indices 255, 255 and 7. -/
theorem test_scan_headers :
    (scanPage Params.ref (writeBytes [] 0 [0x43, 0x46, 0x47, 0x01, 0xC8]) 0).index = 255 ∧
    (scanPage Params.ref (writeBytes [] 0 [0x43, 0x46, 0x47, 0x02, 0x00]) 0).index = 255 ∧
    scanPage Params.ref (writeBytes [] 0 [0x43, 0x46, 0x47, 0x01, 0x07]) 0 = ⟨true, 7⟩ := by decide +kernel

/-- V-ST-6, third example: indices 5 at page 18, 6 at page 19, 8 at page 1: the run ends at 6. -/
theorem test_current_page :
    let pages := ((((Vector.replicate 20 ⟨false, 255⟩ : Vector PageDesc nPages).set 18 ⟨true, 5⟩).set 19 ⟨true, 6⟩).set 1 ⟨true, 8⟩)
    currentIndex pages = some 6 ∧ pageWithIndex pages 6 = some 19 := by decide +kernel

/-- V-ST-7: the torn second block is the snapshot. -/
theorem test_torn_block : lastBlock Params.ref (writeBytes [] 0 [0x43, 0x46, 0x47, 0x01, 0x00, 1, 1, 1, 1, 1, 1, 0xFF, 0xFF,
    0xFF, 0xFF, 0xFF, 0x43, 0x46, 0x47, 0x01, 0x00, 2, 2, 2]) 0 blocksPerPage 0 = 16 := by decide +kernel

/-- P4, save 129: a full page rotates to the next clean one. -/
theorem test_rotation : got (fun t => (t.store.curPage, t.store.curIndex, t.store.nextOffset)) (storeStep
    { ready with store := { ready.store with op := .savePlace, nextOffset := 2048 } }) = some (1, 1, 0) := by decide +kernel

/-- Rule R178: a failed erase raises FlashError and the next page is still erased. -/
theorem test_erase_failure : got (fun t => (t.store.op, t.store.status))
    (storeStep (setOp (.eraseAll 18 (.done false) true) ready)) = some (.eraseAll 19 .unlock false, 1) := by decide +kernel

/-! ### The flash controller -/

/-- An unlocked controller with eight bytes of V-FL-3's data at its port, and the old bytes in the pool. -/
def programming : State :=
  { holding 16 [0x43, 0x06] ready with
    flash := { (holding 16 [0x43, 0x06] ready).flash with locked := false }
    fop := ⟨false, 0, 0, 16, [0x43, 0x46, 0x47, 0x01, 0x00, 0x02, 0x02, 0x02]⟩
    env := { ready.env with errors := [false] } }

/-- V-FL-3: the AND law. -/
theorem test_program_and : got (fun t => readBytes (flashSettle t).flash.mem 16 8) (exec .flProg programming) =
    some [0x43, 0x06, 0x47, 0x01, 0x00, 0x02, 0x02, 0x02] := by decide +kernel

/-- A line the store did not drive is 0 (log entry 25): a program with no data driven clears its eight bytes. -/
theorem test_program_undriven : got (fun t => readBytes (flashSettle t).flash.mem 16 9)
    (exec .flProg { programming with fop := { programming.fop with data := [] } }) = some [0, 0, 0, 0, 0, 0, 0, 0, 0xFF] := by
  decide +kernel

/-- Rule R207: a misaligned program is refused. -/
theorem test_program_misaligned : refusal (exec .flProg { programming with fop := { programming.fop with off := 12 } }) =
    some .flashMisaligned := by decide +kernel

/-- Rule R204: the page reads erased. -/
theorem test_erase_page : got (fun t => (flashSettle t).flash.mem)
    (exec .flErase { programming with fop := { programming.fop with pos := 0 } }) = some [] := by decide +kernel

/-- Rule R205: locking keeps the error flag. -/
theorem test_lock_keeps_error : got (fun t => (t.flash.locked, t.flash.err))
    (exec .flLock { ready with flash := { ready.flash with locked := false, err := true } }) = some (true, true) := by
  decide +kernel

/-- Rule R202. -/
theorem test_clear_error : got (fun t => t.flash.err)
    (exec .flClrerr { ready with flash := { ready.flash with err := true } }) = some false := by decide +kernel

/-! ### Witnesses: a state that meets every hypothesis of the obligation the theorem is named after -/

/-- The schedule holds these events. -/
def given (es : List Event) (s : State) : State := withEvents es s

theorem ready_inv : MachineInv ready where
  params := by decide +kernel
  direction := .inl rfl
  envelopes := by unfold envelopesInRange; decide +kernel
  ladder := by unfold ladderConsistent; decide +kernel
  offset := fun _ => by unfold offsetLegal; decide
  indices := fun _ i => .inl (by
    change (Vector.replicate nPages (⟨false, noIndex⟩ : PageDesc))[i].index = noIndex
    simp)
  modes := .inr (by decide)
  interval := fun h => by cases h
  lock := rfl
  job := .inl rfl
  memory := by decide
  status := by decide
  lfo := by
    intro k
    have : ready.lfo[k] = ⟨0, 0, 0, 0⟩ := by simp [ready, State.reset, State.resetWith]
    rw [this]
    unfold lfoInRange
    norm_num
  port := rfl
  place := rfl

/-- The booted machine with the store command in flight at another place. -/
theorem placed_inv (op : StoreOp) (buf : Option (List Byte)) (h : op.copying = true ∨ settingsLegal ready.settings = true)
    (hl : op.lockedAt = true)
    (hp : opPlaced { ready with store := { ready.store with op := op, buf := buf } }) :
    MachineInv { ready with store := { ready.store with op := op, buf := buf } } :=
  inv_mk ready_inv rfl rfl rfl rfl ready_inv.offset (fun _ => ready_inv.indices (.inl rfl)) h hl.symm (.inl rfl) ready_inv.memory
    ready_inv.status rfl hp

/-- The booted machine with the store command in flight at another place. -/
def placed (op : StoreOp) (buf : Option (List Byte)) : State := { ready with store := { ready.store with op := op, buf := buf } }

theorem test_witness_StepRunsCommandWord : (given [.command 0b0000#4 (Inputs.idle 5)] ready).params.wellFormed = true ∧
    (given [.command 0b0000#4 (Inputs.idle 5)] ready).fop.valid = false ∧
    (given [.command 0b0000#4 (Inputs.idle 5)] ready).env.events = [.command 0b0000#4 (Inputs.idle 5)] ∧
    decode (.cmd 0b0000#4) = .ok .tick ∧ Instr.wellFormed .tick = true := ⟨by decide +kernel, rfl, rfl, rfl, rfl⟩

/-- The controller is erasing page 0. -/
def erasing : State := { ready with flash := { ready.flash with job := some (.erase 0) } }

/-- The flash-operation port holds this word. -/
def requested (w : BitVec 3) : State := { ready with fop := ⟨true, w, 0, 0, []⟩ }

theorem test_witness_StepRunsFlashWord : (requested 0b000#3).params.wellFormed = true ∧ (requested 0b000#3).fop.valid = true ∧
    decode (.fop (requested 0b000#3).fop.word) = .ok .flUnlock ∧ Instr.wellFormed .flUnlock = true :=
  ⟨by decide +kernel, rfl, rfl, rfl⟩

/-- A scheduled step that presents no flash operation, and an unscheduled one that presents FL_UNLOCK. -/
theorem test_witness_StoreStepIsAMachineStep :
    ((given [.storeStep] (placed .savePlace none)).params.wellFormed = true ∧
      (given [.storeStep] (placed .savePlace none)).fop.valid = false ∧
      ∃ t, storeStep { given [.storeStep] (placed .savePlace none) with
          cmd := { ready.cmd with done := false }, env := { ready.env with events := [] } } = .next t ∧ t.fop.valid = false) ∧
    ((placed (.eraseAll 0 .unlock true) none).env.events = [] ∧ (placed (.eraseAll 0 .unlock true) none).flash.busy = false ∧
      ∃ t, storeStep { placed (.eraseAll 0 .unlock true) none with cmd := { ready.cmd with done := false } } = .next t ∧
        t.fop.valid = true ∧ decode (.fop t.fop.word) = .ok .flUnlock) :=
  ⟨⟨by decide +kernel, rfl, _, rfl, rfl⟩, rfl, rfl, _, rfl, rfl, rfl⟩

/-- The second clause: a scheduled end of an operation, and a busy controller with an empty schedule. -/
theorem test_witness_StoreStepIsAMachineStep_settle :
    (given [.flashReady] erasing).params.wellFormed = true ∧ (given [.flashReady] erasing).fop.valid = false ∧
    (given [.flashReady] erasing).env.events = [.flashReady] ∧ erasing.env.events = [] ∧ erasing.flash.busy = true :=
  ⟨by decide +kernel, rfl, rfl, rfl, rfl⟩

/-- The first reserved operation, a force flag where none is admitted, the first reserved flash operation. -/
theorem test_witness_ReservedWordsRefused :
    (given [.command 0b0101#4 (Inputs.idle 0)] ready).params.wellFormed = true ∧ 5 ≤ ((0b0101#4).extractLsb' 0 3).toNat ∧
    (0b1000#4).getLsbD 3 = true ∧ ((0b1000#4).extractLsb' 0 3).toNat ≠ 3 ∧
    (requested 0b101#3).fop.valid = true ∧ 5 ≤ (requested 0b101#3).fop.word.toNat :=
  ⟨by decide +kernel, by decide, by decide, by decide, rfl, by decide⟩

/-! TICK: the machine that may tick, and each clause's case. -/

theorem test_witness_TickAllowed : TickAllowed ready := (tickAdmitted_iff _).mp (by decide +kernel)

/-- Samples at the top of their range, the gate active, the clock line low after high, a press, a release. -/
def busyInputs : Inputs := ⟨Vector.replicate 10 4095, false, false, #v[false, true, true, true, true, true], 101⟩

/-- Every clause of the TICK statements at the edge of its range: allowed with samples of 4095, in the invariant; button 0
presses at exactly 101 ms, at 100 ms it does not; the clock line falls. -/
theorem test_witness_TickEdges : TickAllowed (sampled busyInputs ready) ∧ pressAt 0 (sampled busyInputs ready) ∧
    ¬pressAt 0 (sampled { busyInputs with msNow := 100 } ready) ∧ ¬pressAt 1 (sampled busyInputs ready) ∧
    releaseConfirmed ⟨1, 0⟩ true 102 ∧ ¬releaseConfirmed ⟨1, 0⟩ true 101 ∧
    ((sampled busyInputs ready).clock.prev = true ∧ (sampled busyInputs ready).inputs.clkN = false) ∧
    (sampled busyInputs ready).inputs.gateN = false ∧ ready.inputs.gateN = true ∧ ready.inputs.clkN = true :=
  ⟨(tickAdmitted_iff _).mp (by decide +kernel), by decide +kernel, by decide +kernel, by decide +kernel, by decide +kernel,
    by decide +kernel, ⟨rfl, rfl⟩, rfl, rfl, rfl⟩

/-- TickCounterCounts, second clause; StatusBitsSticky; EngineWrittenByTickOnly: a step that is no TICK and no reset. -/
theorem test_witness_TickCounterCounts : (∃ t, step (given [.command 0b0010#4 (Inputs.idle 7)] ready) = .next t) ∧
    ¬tickNext (given [.command 0b0010#4 (Inputs.idle 7)] ready) ∧ ¬resetNext (given [.command 0b0010#4 (Inputs.idle 7)] ready) := by
  refine ⟨next_of_got (by decide +kernel), ?_, ?_⟩
  · rintro ⟨-, i, h⟩
    cases h
  · rintro ⟨-, h⟩
    cases h

theorem test_witness_TickWritesEnvelopeCodes : MachineInv ready ∧ TickAllowed ready := ⟨ready_inv, test_witness_TickAllowed⟩

/-- Adopting: a valid clock and a candidate 21 away; not adopting: 20 away (rule R111). -/
theorem test_witness_TickUpdatesLadder :
    got (fun t => (t.clock.valid, decide (20 < |rateOf 0 t - plain.clock.hyst|)))
      (exec .tick (sampled ⟨(Vector.replicate 10 0).set 0 21, true, false, Vector.replicate 6 true, 0⟩ plain)) = some (true, true) ∧
    got (fun t => (t.clock.valid, decide (20 < |rateOf 0 t - plain.clock.hyst|)))
      (exec .tick (sampled ⟨(Vector.replicate 10 0).set 0 20, true, false, Vector.replicate 6 true, 0⟩ plain)) =
      some (true, false) := by decide +kernel

theorem test_witness_TickIgnoresStoreAndFlash : TickAllowed ready ∧ ready.store.metaValid = true ∧
    (placed .savePlace none).store.metaValid = true ∧ (placed .savePlace none).store.op.isRestore = false :=
  ⟨test_witness_TickAllowed, rfl, rfl, rfl⟩

theorem test_witness_PhaseAccumulates : TickAllowed plain ∧ (1 : Fin 3) ≠ 0 ∧
    (∀ j : Fin 6, plain.inputs.btnN[j] = true) ∧ plain.settings[2 * (1 : Fin 3).val] = 0 ∧ plain.settings[2 * (2 : Fin 3).val] = 0 :=
  ⟨(tickAdmitted_iff _).mp (by decide +kernel), by decide, by decide, rfl, rfl⟩

theorem test_witness_ReleaseReachesZero : MachineInv ready ∧ TickAllowed ready ∧ ready.inputs.gateN = true :=
  ⟨ready_inv, test_witness_TickAllowed, rfl⟩

/-- A press confirmed at 101 ms, and samples 0, 1 and 100 ms after it. -/
theorem test_witness_BounceTrainReportsOnce : pressConfirmed ⟨0, 0⟩ false 101 ∧ (101 : Word32) ≠ 0 ∧
    ∀ x ∈ [(true, (101 : Word32)), (false, 102), (true, 201)], (x.2 - 101).toNat ≤ debounceMs := by
  refine ⟨by decide, by decide, ?_⟩
  intro x hx
  simp only [List.mem_cons, List.not_mem_nil, or_false] at hx
  rcases hx with rfl | rfl | rfl <;> decide

theorem test_witness_FreeIncrementExactAndMonotone : Params.ref.wellFormed = true ∧ (0 : Rat) ≤ 0 ∧ (0 : Rat) ≤ 4095 ∧
    (4095 : Rat) ≤ 4095 := by decide +kernel

/-! The store. -/

/-- Exactly 60000 ms after the anchor a save is due, 59999 ms after it is not. -/
theorem test_witness_SaveTrigger : MachineInv ready ∧ ready.store.op = .idle ∧ ready.store.metaValid = true ∧
    60000 ≤ ((60101 : Word32) - 101).toNat ∧ ¬60000 ≤ ((60100 : Word32) - 101).toNat :=
  ⟨ready_inv, rfl, rfl, by decide, by decide⟩

/-- A save that stands before its placement, at this offset, with these pages. -/
def placing (off : Nat) (pages : Vector PageDesc nPages) : State :=
  { ready with store := { ready.store with op := .savePlace, nextOffset := off, pages := pages } }

/-- The last offset that fits, a full page with no clean page left, with only the last or only the first candidate clean. -/
theorem test_witness_SavePlacement : (placing 2032 (Vector.replicate 20 ⟨true, 0⟩)).store.nextOffset + 16 ≤ 2048 ∧
    2048 < (placing 2048 (Vector.replicate 20 ⟨true, 0⟩)).store.nextOffset + 16 ∧
    (∀ j : Fin nPages, j ≠ 0 → (placing 2048 (Vector.replicate 20 ⟨true, 0⟩)).store.pages[j].dirty = true) ∧
    (∀ j : Fin nPages, j.val = (0 + 19) % 20 →
      (placing 2048 ((Vector.replicate 20 ⟨true, 0⟩).set 19 ⟨false, 255⟩)).store.pages[j].dirty = false) ∧
    (∀ e : Nat, 1 ≤ e → e < 19 → ∀ j : Fin nPages, j.val = (0 + e) % 20 →
      (placing 2048 ((Vector.replicate 20 ⟨true, 0⟩).set 19 ⟨false, 255⟩)).store.pages[j].dirty = true) ∧
    (∀ j : Fin nPages, j.val = (0 + 1) % 20 →
      (placing 2048 ((Vector.replicate 20 ⟨true, 0⟩).set 1 ⟨false, 255⟩)).store.pages[j].dirty = false) := by
  have h : ∀ e : Nat, e < 19 → 1 ≤ e → ∀ j : Fin nPages, j.val = (0 + e) % 20 →
      (placing 2048 ((Vector.replicate 20 ⟨true, 0⟩).set 19 ⟨false, 255⟩)).store.pages[j].dirty = true := by decide +kernel
  exact ⟨by decide, by decide, by decide +kernel, by decide +kernel, fun e h1 h2 => h e h2 h1, by decide +kernel⟩

theorem test_witness_SaveAssemblesBlock : MachineInv (placed .saveHeader none) ∧ (placed .saveHeader none).store.op = .saveHeader :=
  ⟨placed_inv .saveHeader none (.inr (by decide)) rfl ⟨⟨rfl, by decide, by decide⟩, rfl⟩, rfl⟩

/-- The first and the last settings byte. -/
theorem test_witness_SaveReadsLiveByte : (placed (.saveRead (0 : Fin 6).val) (some [1])).store.op = .saveRead (0 : Fin 6).val ∧
    (placed (.saveRead (5 : Fin 6).val) (some [1])).store.op = .saveRead (5 : Fin 6).val ∧
    (placed (.saveRead 5) (some [1])).store.buf = some [1] := ⟨rfl, rfl, rfl⟩

/-- A save that stands at its program sequence, with these draws of errors to come. -/
def savingWith (es : List Bool) : State := failing es (placed (.saveProgram .unlock) (some (List.replicate 16 0x5A)))

theorem savingWith_inv (es : List Bool) : MachineInv (savingWith es) := by
  have h := placed_inv (.saveProgram .unlock) (some (List.replicate 16 0x5A)) (.inr (by decide)) rfl
    ⟨⟨rfl, by decide, by decide⟩, by decide, trivial⟩
  exact inv_mk h rfl rfl rfl rfl h.offset h.indices h.modes h.lock h.job h.memory h.status h.port h.place

theorem test_witness_ProgramSequenceWritesBlock : MachineInv (savingWith [false, false]) ∧
    (savingWith [false, false]).store.op = .saveProgram .unlock ∧
    (savingWith [false, false]).store.buf = some (List.replicate 16 0x5A) ∧ noErrorFor (16 / 8) (savingWith [false, false]) :=
  ⟨savingWith_inv _, rfl, rfl, List.prefix_refl _⟩

/-- An error at the first and at the last of the two units. -/
theorem test_witness_ProgramSequenceStopsAtError : MachineInv (savingWith [true]) ∧ MachineInv (savingWith [false, true]) ∧
    (0 : Nat) < 16 / (savingWith [true]).params.wblk ∧ (1 : Nat) < 16 / (savingWith [true]).params.wblk ∧
    (List.replicate 0 false ++ [true]) <+: (savingWith [true]).env.errors ∧
    (List.replicate 1 false ++ [true]) <+: (savingWith [false, true]).env.errors :=
  ⟨savingWith_inv _, savingWith_inv _, by decide, by decide, List.prefix_refl _, List.prefix_refl _⟩

theorem test_witness_SaveBookkeeping : (placed (.saveProgram (.done true)) none).store.op = .saveProgram (.done true) ∧
    (placed (.saveProgram (.done false)) none).store.op = .saveProgram (.done false) := ⟨rfl, rfl⟩

/-- A page behind a good magic with the largest usable index, and one with the smallest that is none. -/
theorem test_witness_RestoreScansPool : ready.store.op = .idle ∧ ready.flash.busy = false ∧
    headerAt (holding 0 [0x43, 0x46, 0x47, 0x01, 0x13] ready) 0 ∧
    ¬headerAt (holding 0 [0x43, 0x46, 0x47, 0x01, 0x14] ready) 0 := by
  refine ⟨rfl, rfl, ?_, ?_⟩ <;> unfold headerAt <;> decide +kernel

/-- A restore before its search, over these pages. -/
def finding (pages : Vector PageDesc nPages) : State :=
  { ready with store := { ready.store with op := .restoreFind, pages := pages } }

/-- No header; the smallest and the largest index. -/
theorem test_witness_RestoreFindsCurrentPage : (finding (Vector.replicate 20 ⟨false, 255⟩)).store.op = .restoreFind ∧
    indicesLegal (finding (Vector.replicate 20 ⟨false, 255⟩)).store.pages ∧
    (∀ i : Fin nPages, (finding (Vector.replicate 20 ⟨false, 255⟩)).store.pages[i].index = 255) ∧
    indicesLegal (finding ((Vector.replicate 20 ⟨false, 255⟩).set 3 ⟨true, 19⟩)).store.pages ∧
    (∃ i : Fin nPages, (finding ((Vector.replicate 20 ⟨false, 255⟩).set 3 ⟨true, 19⟩)).store.pages[i].index ≠ 255) ∧
    (∃ i : Fin nPages, (finding ((Vector.replicate 20 ⟨false, 255⟩).set 3 ⟨true, 0⟩)).store.pages[i].index ≠ 255) := by
  unfold indicesLegal
  decide

theorem test_witness_RestoreReclaimsStalePages : MachineInv (failing (List.replicate 20 false) (placed (.restoreReclaim 0 true true) none)) ∧
    (failing (List.replicate 20 false) (placed (.restoreReclaim 0 true true) none)).store.op = .restoreReclaim 0 true true ∧
    noErrorFor 20 (failing (List.replicate 20 false) (placed (.restoreReclaim 0 true true) none)) := by
  have h := placed_inv (.restoreReclaim 0 true true) none (.inr (by decide)) rfl rfl
  exact ⟨inv_mk h rfl rfl rfl rfl h.offset h.indices h.modes h.lock h.job h.memory h.status h.port h.place, rfl,
    List.prefix_refl _⟩

theorem test_witness_ReclaimRecordsErase :
    (placed (.restoreErase (19 : Fin nPages).val (.done false) true true) none).store.op =
      .restoreErase (19 : Fin nPages).val (.done false) true true := rfl

theorem test_witness_RestoreFindsSnapshot : (placed (.restoreSnapshot true true) none).store.op = .restoreSnapshot true true ∧
    (placed (.restoreSnapshot true false) none).store.op = .restoreSnapshot true false ∧
    (placed (.restoreSnapshot true true) none).flash.busy = false := ⟨rfl, rfl, rfl⟩

/-- A restore before its copy, from a block that holds this byte in all six places. -/
def copying (b : Byte) : State := holding 5 (List.replicate 6 b) (placed (.restoreCopy 0 0 true) none)

theorem copying_inv (b : Byte) (h : (copying b).flash.mem.wf) : MachineInv (copying b) :=
  have h0 := placed_inv (.restoreCopy 0 0 true) none (.inl rfl) rfl
    ⟨by decide, by decide, by unfold offsetLegal; decide, rfl⟩
  inv_mk h0 rfl rfl rfl rfl h0.offset h0.indices h0.modes h0.lock h0.job h h0.status h0.port h0.place

/-- The largest legal settings byte, and the smallest illegal one. -/
theorem test_witness_RestoreCopiesAndValidates : MachineInv (copying 2) ∧ MachineInv (copying 3) ∧
    (copying 2).store.op = .restoreCopy 0 0 true ∧
    (∀ n : Fin 6, (poolByte (copying 2) 0 (0 + 5 + n.val)).toNat ≤ 2) ∧
    (∃ n : Fin 6, 2 < (poolByte (copying 3) 0 (0 + 5 + n.val)).toNat) :=
  ⟨copying_inv 2 (by decide +kernel), copying_inv 3 (by decide +kernel), rfl, by decide +kernel, ⟨0, by decide +kernel⟩⟩

theorem test_witness_RestoreCompletes : (placed (.restoreFinish false) none).store.op = .restoreFinish false := rfl

/-- EraseConfigStarts, BootReachesTicking, ErasedPoolRestoresNothing, SaveThenRestoreRoundTrip, EraseConfigErasesPool. -/
theorem test_witness_WholeCommands : MachineInv ready ∧ ready.store.op = .idle ∧ ready.store.metaValid = true ∧
    ready.store.nextOffset = 0 ∧ (∀ a, readByte ready.flash.mem a = 0xFF) ∧
    MachineInv (failing (false :: true :: List.replicate 18 false) ready) ∧
    (false :: true :: List.replicate 18 false).length = 20 ∧
    (false :: true :: List.replicate 18 false) <+: (failing (false :: true :: List.replicate 18 false) ready).env.errors ∧
    MachineInv (failing [false, false] ready) ∧ noErrorFor (16 / 8) (failing [false, false] ready) :=
  ⟨ready_inv, rfl, rfl, rfl, fun _ => rfl,
    inv_mk ready_inv rfl rfl rfl rfl ready_inv.offset ready_inv.indices ready_inv.modes rfl (.inl rfl) ready_inv.memory
      ready_inv.status rfl rfl,
    rfl, List.prefix_refl _,
    inv_mk ready_inv rfl rfl rfl rfl ready_inv.offset ready_inv.indices ready_inv.modes rfl (.inl rfl) ready_inv.memory
      ready_inv.status rfl rfl,
    List.prefix_refl _⟩

/-- A save scheduled at 101 ms. -/
def anchored : State := { ready with store := { ready.store with pending := true, anchor := 101 } }

theorem test_witness_StoreCommandCompletes : MachineInv (savingWith []) ∧ (savingWith []).store.op ≠ .idle :=
  ⟨savingWith_inv _, by decide⟩

/-- A step that ends a command, a SAVE_CONFIG with nothing due, 59999 ms after its anchor, and an idle step. -/
theorem test_witness_CompletionPulses :
    ((placed (.eraseFinish true) none).store.op ≠ .idle ∧ ¬resetNext (placed (.eraseFinish true) none) ∧
      got (fun t => (t.cmd.done, t.store.op)) (step (placed (.eraseFinish true) none)) = some (true, .idle)) ∧
    (idleSaveNext (given [.command 0b0011#4 (Inputs.idle 60100)] anchored) ∧
      got (fun t => t.cmd.done) (step (given [.command 0b0011#4 (Inputs.idle 60100)] anchored)) = some true) ∧
    got (fun t => t.cmd.done) (step { ready with cmd := ⟨true, true⟩ }) = some false := by
  refine ⟨⟨by decide, ?_, by decide +kernel⟩, ⟨⟨rfl, _, rfl, by decide⟩, by decide +kernel⟩, by decide +kernel⟩
  rintro ⟨-, h⟩
  cases h

/-! The flash controller. -/

theorem test_witness_FlashBitOperations : ready.flash.busy = false := rfl

/-- The last program unit of the last page, with and without an error drawn. -/
def lastUnit (e : Bool) : State :=
  { ready with
    flash := { ready.flash with locked := false }
    fop := ⟨false, 0, 19, 2040, List.replicate 8 0x0F⟩
    env := { ready.env with errors := [e] } }

theorem test_witness_FlashProgramEffect : (lastUnit true).flash.mem.wf ∧ (lastUnit true).flash.busy = false ∧
    (lastUnit true).flash.locked = false ∧ (lastUnit true).fop.off % (lastUnit true).params.wblk = 0 ∧ (lastUnit true).fop.pos < 20 ∧
    (lastUnit true).fop.off + (lastUnit true).params.wblk ≤ 2048 ∧
    (drawError (lastUnit false).env).1 = false ∧ (drawError (lastUnit true).env).1 = true :=
  ⟨by decide, rfl, rfl, by decide, by decide, by decide, rfl, rfl⟩

theorem test_witness_FlashEraseEffect : (lastUnit true).flash.mem.wf ∧ (lastUnit true).flash.busy = false ∧
    (lastUnit true).flash.locked = false ∧ (lastUnit true).fop.pos < 20 ∧
    (drawError (lastUnit false).env).1 = false ∧ (drawError (lastUnit true).env).1 = true :=
  ⟨by decide, rfl, rfl, by decide, rfl, rfl⟩

/-- Each reason for a refusal at its boundary: busy, locked, the first page outside the pool, one byte off, past the end. -/
theorem test_witness_FlashOperationsRefused : erasing.flash.busy = true ∧ ready.flash.locked = true ∧
    20 ≤ { lastUnit true with fop := ⟨false, 0, 20, 0, []⟩ }.fop.pos ∧
    { lastUnit true with fop := ⟨false, 0, 0, 1, []⟩ }.fop.off % (lastUnit true).params.wblk ≠ 0 ∧
    2048 < { lastUnit true with fop := ⟨false, 0, 0, 2048, []⟩ }.fop.off + (lastUnit true).params.wblk :=
  ⟨rfl, rfl, by decide, by decide, by decide⟩

/-- The booted machine with a sample of 4096 on the last channel. -/
def oversampled : State := sampled { ready.inputs with adc := (Vector.replicate 10 0).set 9 4096 } ready

/-- A restore in flight; no metadata; a sample of 4096; a save in flight; an idle store with and without metadata; a busy
flash. Each a whole state that meets its clause. -/
theorem test_witness_CommandsRefused : (placed .restoreFind none).store.op.isRestore = true ∧
    (State.reset.store.op.isRestore = false ∧ State.reset.store.metaValid = false) ∧
    (oversampled.store.op.isRestore = false ∧ oversampled.store.metaValid = true ∧
      ∃ i : Fin 10, 4095 < oversampled.inputs.adc[i].toNat) ∧
    (placed .savePlace none).store.op ≠ .idle ∧
    (State.reset.store.op = .idle ∧ State.reset.store.metaValid = false) ∧
    (erasing.store.op = .idle ∧ erasing.flash.busy = true) :=
  ⟨rfl, ⟨rfl, rfl⟩, ⟨rfl, rfl, 9, by decide⟩, by decide, ⟨rfl, rfl⟩, rfl, rfl⟩

/-! Script lines. -/

/-- Rule R72: operands left out are idle, `ms` left out is that of the line before. -/
theorem test_line_operands_left_out :
    lineInputs { clkN := some false } (sampled { busyInputs with msNow := 50 } plain) =
      ⟨Vector.replicate 10 0, true, false, Vector.replicate 6 true, 50⟩ := rfl

/-- Rule R72: a TICK line without `ms` runs at the time of the line before. -/
theorem test_line_tick_without_ms :
    got (fun t => (t.inputs.msNow, t.tickCounter)) (runLine (.tick { clkN := some false }) (sampled (Inputs.idle 50) plain)) =
      some (50, 1) := by decide +kernel

/-- Rule R73: `TICK*2 ms=7+`. -/
theorem test_line_ticks_rising : ticksRising 2 7 {} = [.tick { ms := some 7 }, .tick { ms := some 8 }] := rfl

/-! The whole machine. -/

theorem test_witness_ResetGivesTableValues : (given [.reset] ready).params.wellFormed = true ∧
    (given [.reset] ready).fop.valid = false ∧ (given [.reset] ready).env.events = [.reset] :=
  ⟨by decide +kernel, rfl, rfl⟩

/-- InvariantKept, OnlyEnvironmentBreachesStop, FlashChangesOnlyInItsOperation, StatusBitsSticky, EngineWrittenByTickOnly. -/
theorem test_witness_InvariantKept : MachineInv ready ∧ (∃ t, step ready = .next t) ∧ ¬resetNext ready ∧ ¬tickNext ready ∧
    (∀ a, ∀ j, ready.flash.job = some j → ¬jobTarget j a) := by
  refine ⟨ready_inv, next_of_got (by decide +kernel), ?_, ?_, ?_⟩
  · rintro ⟨-, h⟩
    cases h
  · rintro ⟨-, i, h⟩
    cases h
  · intro a j h
    cases h

/-- FlashChangesOnlyInItsOperation with the controller busy: the erase of page 0 ends, and the first byte of page 1 is no
target of it while the last of page 0 is one. -/
theorem test_witness_FlashChangesOnlyInItsOperation : (∃ t, step (failing [false] erasing) = .next t) ∧
    (failing [false] erasing).flash.job = some (.erase 0) ∧
    (∀ j, (failing [false] erasing).flash.job = some j → ¬jobTarget j 2048) ∧ jobTarget (.erase 0) 2047 := by
  refine ⟨next_of_got (by decide +kernel), rfl, ?_, by unfold jobTarget; decide⟩
  intro j h
  cases h
  unfold jobTarget
  decide

/-- A step that changes the settings: the copy of RESTORE_CONFIG, which is the next thing to happen. -/
theorem test_witness_SettingsWriters : (∃ t, step (copying 2) = .next t) ∧ storeStepNext (copying 2) ∧
    got (fun t => decide (t.settings ≠ (copying 2).settings)) (step (copying 2)) = some true :=
  ⟨next_of_got (by decide +kernel), ⟨rfl, .inr ⟨rfl, rfl⟩⟩, by decide +kernel⟩

end Sys2Proof.Tests
end

section
/-! The state family, part 1: what each step writes (10_state.md R10, R12, R14, R27; 20_memory.md R44). -/

namespace Sys2Proof.Proofs

open Sys2Proof.Machine Sys2Proof.Config Sys2Proof.Laws

/-! ### Frames of a step -/

/-- The only command word that is a TICK is 0000 (rule R61). -/
theorem eq_zero_of_decode_tick {w : BitVec 4} (h : decode (.cmd w) = .ok .tick) : w = 0b0000#4 := by
  revert w
  decide

/-- A machine step of the store changes the sequencer's registers, the flash controller and the draws, and no more. -/
theorem driven_frame {s t : State} (h : Driven s t) :
    t = { s with
      settings := t.settings, store := t.store, flash := t.flash, cmd := t.cmd, fop := t.fop, env := t.env } ∧
    t.flash.mem = s.flash.mem ∧ t.env.events = s.env.events ∧ (s.store.op.copying = false → t.settings = s.settings) ∧
    ∃ v, storeStep s = .next v ∧ t.store = v.store ∧ t.cmd = v.cmd := by
  cases h with
  | plain hs hv =>
    have hf := storeStep_frame hs
    have hflash : t.flash = s.flash := by rw [hf.same]
    exact ⟨by rw [hflash]; exact hf.same, by rw [hflash], hf.events, hf.settings, t, hs, rfl, rfl⟩
  | issued v i hs hv hd he =>
    have hf := storeStep_frame hs
    obtain ⟨ht, hm, -⟩ := exec_fop_frame hd he
    have hflash : v.flash = s.flash := by rw [hf.same]
    have hvm : v.flash.mem = s.flash.mem := by rw [hflash]
    rw [ht]
    refine ⟨?_, hm.trans hvm, hf.events, hf.settings, v, hs, rfl, rfl⟩
    have hsame := hf.same
    generalize v.settings = a at hsame
    generalize v.store = b at hsame
    generalize v.cmd = c at hsame
    generalize v.fop = d at hsame
    generalize v.env = e at hsame
    subst hsame
    rfl

/-- What a step that is neither a TICK nor the reset event writes: the settings only where RESTORE_CONFIG copies and
validates, and of the engine nothing. -/
structure QuietStep (s t : State) : Prop where
  tickCounter : t.tickCounter = s.tickCounter
  lfo : t.lfo = s.lfo
  buttons : t.buttons = s.buttons
  envelopes : t.envelopes = s.envelopes
  clock : t.clock = s.clock
  out : t.out = s.out
  settings : t.settings = s.settings ∨ (s.store.op.copying = true ∧ storeStepNext s)

/-- Every step is a TICK, the reset event, or writes nothing of the engine. -/
theorem step_quiet {s t : State} (h : step s = .next t) (hnt : ¬tickNext s) (hnr : ¬resetNext s) : QuietStep s t := by
  obtain ⟨-, hstep⟩ := step_cases h
  cases hstep with
  | flashWord i hv hd he =>
    obtain ⟨ht, -⟩ := exec_fop_frame hd he
    rw [ht]
    exact ⟨rfl, rfl, rfl, rfl, rfl, rfl, .inl rfl⟩
  | command w port rest i hv hs hd he =>
    have hi : i ≠ .tick := by
      rintro rfl
      exact hnt ⟨hv, port, by rw [hs, eq_zero_of_decode_tick hd]; rfl⟩
    obtain ⟨ht, -⟩ := exec_store_frame hd hi he
    rw [ht]
    exact ⟨rfl, rfl, rfl, rfl, rfl, rfl, .inl rfl⟩
  | store rest hv hs hd =>
    obtain ⟨ht, -, -, hset, -⟩ := driven_frame hd
    have hnext : storeStepNext s := ⟨hv, hs.imp (fun e => by rw [e]; rfl) (fun ⟨e, _, hb⟩ => ⟨e, hb⟩)⟩
    have hwrites : t.settings = s.settings ∨ (s.store.op.copying = true ∧ storeStepNext s) := by
      cases hc : s.store.op.copying with
      | false => exact .inl (hset hc)
      | true => exact .inr ⟨rfl, hnext⟩
    generalize t.settings = a at ht hwrites
    rw [ht]
    exact ⟨rfl, rfl, rfl, rfl, rfl, rfl, hwrites⟩
  | settle rest hv hs ht =>
    obtain ⟨mem, err, e, hf, -⟩ := flashSettle_spec (takeEvent rest s)
    rw [ht, hf]
    exact ⟨rfl, rfl, rfl, rfl, rfl, rfl, .inl rfl⟩
  | reset rest hv hs ht => exact absurd ⟨hv, by rw [hs]; rfl⟩ hnr

/-- What a TICK does to the counter and the store, and what it leaves alone (rules R12, R150). -/
theorem tick_frame {s t : State} (h : exec .tick s = .next t) : ∃ pending anchor,
    t.tickCounter = s.tickCounter + 1 ∧ t.store = { s.store with pending := pending, anchor := anchor } ∧
    t.flash = s.flash ∧ t.fop = s.fop ∧ t.params = s.params := by
  obtain ⟨-, rfl⟩ := (execTick_next_iff s t).mp h
  obtain ⟨p, -, hb⟩ := beforeLfos_spec s
  obtain ⟨l, c, o, ht, -⟩ := lfoPhase_frame (beforeLfos s)
  rw [tickEngine_eq, ht, hb]
  exact ⟨p.store.pending, p.store.anchor, rfl, rfl, rfl, rfl, rfl⟩

/-- No step but the end of a flash operation and the reset event writes a byte of the pool. -/
theorem step_memory {s t : State} (h : step s = .next t) :
    t.flash.mem = s.flash.mem ∨ (∃ rest, t = flashSettle (takeEvent rest s)) ∨
      ∃ rest, t = resetMachine (takeEvent rest s) := by
  obtain ⟨-, hstep⟩ := step_cases h
  cases hstep with
  | flashWord i hv hd he => exact .inl (exec_fop_frame hd he).2.1
  | command w port rest i hv hs hd he =>
    left
    by_cases hi : i = .tick
    · subst hi
      obtain ⟨-, -, -, -, hf, -⟩ := tick_frame he
      rw [hf]
      rfl
    · rw [(exec_store_frame hd hi he).1]
      rfl
  | store rest hv hs hd => exact .inl (driven_frame hd).2.1
  | settle rest hv hs ht => exact .inr (.inl ⟨rest, ht⟩)
  | reset rest hv hs ht => exact .inr (.inr ⟨rest, ht⟩)

/-- Settles O9: an allowed TICK counts, and every other step but the reset event is quiet. -/
theorem tickCounterCounts : Obligations.TickCounterCounts := by
  refine ⟨fun s h => ?_, fun s t h hnt hnr => (step_quiet h hnt hnr).tickCounter⟩
  obtain ⟨t, ht, -⟩ := tick_next h
  obtain ⟨-, -, hcount, -⟩ := tick_frame ht
  exact ⟨t, ht, hcount⟩

/-- Settles O60: a quiet step writes nothing of the engine. -/
theorem engineWrittenByTickOnly : Obligations.EngineWrittenByTickOnly := by
  intro s t h hnt hnr
  have hq := step_quiet h hnt hnr
  exact ⟨hq.lfo, hq.buttons, hq.envelopes, hq.clock, hq.out⟩

/-- Settles O59: a quiet step writes the settings only as a copy or validator step. -/
theorem settingsWriters : Obligations.SettingsWriters := by
  intro s t h hne
  by_cases hnt : tickNext s
  · exact .inl hnt
  · by_cases hnr : resetNext s
    · exact .inr (.inl hnr)
    · exact .inr (.inr ((step_quiet h hnt hnr).settings.resolve_left hne))

/-- Settles O58: the two steps that write the pool write the target of the operation under way. -/
theorem flashChangesOnlyInItsOperation : Obligations.FlashChangesOnlyInItsOperation := by
  intro s t h a ha
  rcases step_memory h with hm | ⟨rest, rfl⟩ | ⟨rest, rfl⟩
  · rw [hm]
  · exact flashSettle_outside (takeEvent rest s) ha
  · exact cutFlashJob_outside s.flash (takeEvent rest s).env ha

end Sys2Proof.Proofs
end

section
/-! The state family, part 2: the state after reset (10_state.md R30, R31; 70_reset_and_hazards.md R250 to R254). -/

namespace Sys2Proof.Proofs

open Sys2Proof.Machine Sys2Proof.Config Sys2Proof.Laws

/-! ### Reset -/

/-- Every state that `resetWith` builds has the values of rule R30's table. -/
theorem resetWith_values (p : Params) (i : Inputs) (e : Env) (m : Memory) : ResetValues (State.resetWith p i e m) where
  tickCounter := rfl
  lfo := fun _ => Vector.getElem_replicate _
  settings := fun _ => Vector.getElem_replicate _
  buttons := fun _ => Vector.getElem_replicate _
  envelopes := rfl
  clock := rfl
  indicators := by
    intro k
    unfold rateLed levelLed rateModeByte levelModeByte State.resetWith
    simp only [Vector.getElem_replicate]
    decide
  pending := rfl
  anchor := rfl
  metaValid := rfl
  status := rfl
  op := rfl
  buf := rfl
  locked := rfl
  err := rfl
  busy := rfl

/-- The ladder's first band is in force at candidate 0 (rules R30, R110). -/
theorem ladderAt_band_zero (p : Params) : ladderAt p (band 0) = p.ladder[0] := by
  rw [band_of_range (b := 0) (v := 0) (show (0 : Rat) < 682 by norm_num)]
  rfl

/-- Every state that `resetWith` builds over a legal configuration and a canonical memory is in the invariant. -/
theorem resetWith_inv {p : Params} (hp : p.wellFormed = true) (i : Inputs) (e : Env) {m : Memory} (hm : m.wf) :
    MachineInv (State.resetWith p i e m) where
  params := hp
  direction := .inl rfl
  envelopes := ⟨le_refl _, zero_le_one, le_refl _, zero_le_one⟩
  ladder := (ladderAt_band_zero p).symm
  offset := fun h => absurd h Bool.false_ne_true
  indices := fun h => absurd (h.elim id id) Bool.false_ne_true
  modes := .inr (show settingsLegal (Vector.replicate 6 0) = true by decide)
  interval := fun h => absurd h Bool.false_ne_true
  lock := rfl
  job := .inl rfl
  memory := hm
  status := show (0 : Byte) &&& 0xF8 = 0 by decide
  lfo := by
    intro k
    rw [show (State.resetWith p i e m).lfo[k] = ⟨0, 0, 0, 0⟩ from Vector.getElem_replicate _]
    unfold lfoInRange
    norm_num
  port := rfl
  place := rfl

/-- The reset event keeps the invariant, also inside a flash operation. -/
theorem resetMachine_inv {s : State} (h : MachineInv s) : MachineInv (resetMachine s) :=
  resetWith_inv h.params _ _ (cutFlashJob_wf s.env h.memory (awaited_inPool h))

/-- A scheduled reset is what the step does (rules R235, R250). -/
theorem step_reset {s : State} {rest : List Event} (hp : s.params.wellFormed = true) (hv : s.fop.valid = false)
    (he : s.env.events = .reset :: rest) : step s = .next (resetMachine (takeEvent rest s)) := by
  unfold step fetch
  rw [if_neg (show ¬¬(endPulse s).params.wellFormed = true by simp [hp]),
    if_neg (show ¬(endPulse s).fop.valid = true by simp [hv]), show (endPulse s).env.events = .reset :: rest from he]
  rfl

/-- Settles O54: `resetWith` gives the table's values, and the reset event is a `resetWith` over the cut flash. -/
theorem resetGivesTableValues : Obligations.ResetGivesTableValues := by
  refine ⟨resetWith_values _ _ _ _, fun _ _ => rfl, fun s rest hp hv he => ?_⟩
  exact ⟨_, step_reset hp hv he, resetWith_values _ _ _ _, cutFlashJob_events s.flash (takeEvent rest s).env, rfl,
    fun a ha => cutFlashJob_outside s.flash (takeEvent rest s).env ha⟩

/-- Settles O55: State.reset is `resetWith` over REF and the factory-fresh pool. -/
theorem invariantAtReset : Obligations.InvariantAtReset :=
  resetWith_inv (by decide) _ _ reset_memory_wf

end Sys2Proof.Proofs
end

section
/-! The state family, part 3: a TICK, the commands of the store and the end of a flash operation keep the invariant
(10_state.md R31, R13; 41_envelopes.md R97). -/

namespace Sys2Proof.Proofs

open Sys2Proof.Machine Sys2Proof.Config Sys2Proof.Laws

/-! ### TICK -/

/-- The detector never calls a clock valid whose interval is 0 (rules R31 f, R106). -/
theorem clockDetect_interval {c : ClockSync} (h : c.valid = true → c.interval ≠ 0) (p : Params) (n : Word32)
    (clkN : Bool) (hv : (clockDetect p n clkN c).valid = true) : (clockDetect p n clkN c).interval ≠ 0 := by
  unfold clockDetect at hv ⊢
  split at hv
  · rename_i hedge
    rw [if_pos hedge]
    simpa using hv
  · rename_i hedge
    rw [if_neg hedge]
    exact h (Bool.and_eq_true_iff.mp hv).1

/-- The ladder adopts a candidate together with its band's multiplier (rules R31 c, R111). -/
theorem ladderUpdate_consistent {p : Params} {c : ClockSync} (h : c.mult = ladderAt p (band c.hyst)) (v : Rat) :
    (ladderUpdate p v c).mult = ladderAt p (band (ladderUpdate p v c).hyst) := by
  unfold ladderUpdate
  split
  · rfl
  · exact h

/-- The oscillators leave the clock valid with the interval it had, and keep the ladder consistent (rule R31 c, f). -/
theorem clockAfter_inv {q : State} (hl : q.clock.mult = ladderAt q.params (band q.clock.hyst))
    (hi : q.clock.valid = true → q.clock.interval ≠ 0) :
    (clockAfter q).mult = ladderAt q.params (band (clockAfter q).hyst) ∧
      ((clockAfter q).valid = true → (clockAfter q).interval ≠ 0) := by
  unfold clockAfter
  split
  · obtain ⟨hvalid, -, hinterval, -⟩ := ladderUpdate_valid q.params (rateOf 0 q) q.clock
    rw [hvalid, hinterval]
    exact ⟨ladderUpdate_consistent hl _, hi⟩
  · exact ⟨hl, hi⟩

/-- The clock part of the invariant after a TICK (rule R31 c, f). -/
theorem tick_clock_inv {s t : State} (h : MachineInv s) (ht : exec .tick s = .next t) (ha : TickAllowed s) :
    t.clock.mult = ladderAt s.params (band t.clock.hyst) ∧ (t.clock.valid = true → t.clock.interval ≠ 0) := by
  obtain ⟨q, t', ht', hclock, -, hparams, -, -, -, -, -, hafter, -⟩ := tick_spec ha
  obtain rfl : t' = t := Host.Outcome.next.inj (ht'.symm.trans ht)
  obtain ⟨hhyst, hmult⟩ := clockDetect_hyst s.params (s.tickCounter + 1) s.inputs.clkN s.clock
  rw [hafter, ← hparams]
  refine clockAfter_inv ?_ ?_
  · rw [hclock, hhyst, hmult, hparams]
    exact h.ladder
  · rw [hclock]
    exact clockDetect_interval h.interval _ _ _

/-- The oscillator registers after a TICK are in range (rule R13). -/
theorem tick_lfo_inv {s t : State} (h : MachineInv s) (ht : exec .tick s = .next t) (ha : TickAllowed s) (k : Fin 3) :
    lfoInRange t.lfo[k] := by
  obtain ⟨q, t', ht', -, hlfo, -, hinputs, henv, -, -, -, -, hvalues, hfm0, hfm1, hfm2, -⟩ := tick_spec ha
  obtain rfl : t' = t := Host.Outcome.next.inj (ht'.symm.trans ht)
  obtain ⟨-, hsine, hlevel, -⟩ := hvalues k
  obtain ⟨hsine0, hsine1⟩ := sin_range t'.lfo[k].phase
  have hfm : -1 ≤ t'.lfo[k].fm ∧ t'.lfo[k].fm ≤ 1 := by
    match k with
    | 0 =>
      obtain ⟨-, -, hlo, hhi, -⟩ := h.lfo 0
      rw [← hlfo] at hlo hhi
      exact hfm0 ▸ ⟨hlo, hhi⟩
    | 1 => exact hfm1 ▸ sin_range _
    | 2 => exact hfm2 ▸ sin_range _
  obtain ⟨hlevel0, hlevel1⟩ := tick_ranges h ha q henv hinputs k
  rw [← hlevel] at hlevel0 hlevel1
  rw [← hsine] at hsine0 hsine1
  exact ⟨hsine0, hsine1, hfm.1, hfm.2, hlevel0, hlevel1⟩

/-- TICK keeps the invariant. -/
theorem tick_inv {s t : State} (h : MachineInv s) (ht : exec .tick s = .next t) : MachineInv t := by
  have ha : TickAllowed s := (tickAdmitted_iff s).mp ((execTick_next_iff s t).mp ht).1
  obtain ⟨t', ht', ha', -, -, henvelopes, -⟩ := tick_next ha
  obtain rfl : t' = t := Host.Outcome.next.inj (ht'.symm.trans ht)
  obtain ⟨pending, anchor, -, hstore, hflash, hfop, hparams⟩ := tick_frame ht
  obtain ⟨hladder, hinterval⟩ := tick_clock_inv h ht ha
  obtain ⟨ramp0, ramp1, swell0, swell1⟩ := h.envelopes
  obtain ⟨hdir, hrange⟩ := stepEnvelopes_range h.params ha.samples h.direction ramp0 ramp1 swell0 swell1
  exact {
    params := by rw [hparams]; exact h.params
    direction := by unfold directionLegal; rw [henvelopes, hparams]; exact hdir
    envelopes := by unfold envelopesInRange; rw [henvelopes]; exact hrange
    ladder := by unfold ladderConsistent; rw [hparams]; exact hladder
    offset := by rw [hstore]; exact h.offset
    indices := by rw [hstore]; exact h.indices
    modes := .inr ((settings_legal_iff _).mpr ha'.modes)
    interval := hinterval
    lock := by rw [hflash, hstore]; exact h.lock
    job := by
      rw [hflash, jobAwaited_congr (s := s) (t := t') (by rw [hstore]) (by rw [hstore]) (by rw [hstore])
        (by rw [hstore]) hparams]
      exact h.job
    memory := by rw [hflash]; exact h.memory
    status := by rw [hstore]; exact h.status
    lfo := tick_lfo_inv h ht ha
    port := by rw [hfop]; exact h.port
    place := opPlaced_congr (by rw [hstore]) (by rw [hstore]) (by rw [hstore]) (by rw [hstore]) hparams h.place }

/-! ### The commands of the store -/

/-- A store command's step that leaves the controller at rest and the settings alone keeps the invariant, when the new
place is one whose own conditions hold. -/
theorem store_inv {s : State} (h : MachineInv s) (st : Store) (c : CommandPort) (hjob : s.flash.job = none)
    (offset : st.metaValid = true → offsetLegal st.nextOffset)
    (indices : st.metaValid = true ∨ st.op.isRestore = true → indicesLegal st.pages)
    (modes : st.op.copying = true ∨ settingsLegal s.settings = true)
    (lock : st.op.lockedAt = s.store.op.lockedAt) (status : st.status &&& 0xF8 = 0)
    (place : opPlaced { s with store := st, cmd := c }) : MachineInv { s with store := st, cmd := c } :=
  inv_mk h rfl rfl rfl rfl offset indices modes (h.lock.trans lock.symm) (.inl hjob) h.memory status h.port place

/-- RESTORE_CONFIG's first step keeps the invariant. -/
theorem restoreConfig_inv {s t : State} (h : MachineInv s) (ht : exec .restoreConfig s = .next t) : MachineInv t := by
  obtain ⟨hop, -, rfl⟩ := (execRestoreConfig_next_iff s t).mp ht
  obtain ⟨-, hjob, hbuf, hmodes⟩ := idle_facts h hop
  exact store_inv h _ s.cmd hjob h.offset (fun _ => scanPages_legal _ _) (.inr hmodes) (by rw [hop]; rfl) h.status hbuf

/-- SCHEDULE_SAVE keeps the invariant; it may come at any time (rule R170). -/
theorem scheduleSave_inv {s t : State} (h : MachineInv s) (ht : exec .scheduleSave s = .next t) : MachineInv t := by
  cases ht
  exact inv_mk h rfl rfl rfl rfl h.offset h.indices h.modes h.lock h.job h.memory h.status h.port h.place

/-- SAVE_CONFIG's first step keeps the invariant. -/
theorem saveConfig_inv {s t : State} {force : Bool} (h : MachineInv s) (ht : exec (.saveConfig force) s = .next t) :
    MachineInv t := by
  obtain ⟨hop, hmeta, rfl⟩ := (execSaveConfig_next_iff force s t).mp ht
  obtain ⟨-, hjob, hbuf, hmodes⟩ := idle_facts h hop
  have hindices := h.indices (.inl hmeta)
  split
  · exact store_inv h _ s.cmd hjob h.offset (fun _ => hindices) (.inr hmodes) (by rw [hop]; rfl) h.status ⟨hmeta, hbuf⟩
  · exact store_inv h _ _ hjob h.offset (fun _ => hindices) (.inr hmodes) (by rw [hop]) h.status rfl

/-- ERASE_CONFIG's first step keeps the invariant. -/
theorem eraseConfig_inv {s t : State} (h : MachineInv s) (ht : exec .eraseConfig s = .next t) : MachineInv t := by
  obtain ⟨hop, rfl⟩ := (execEraseConfig_next_iff s t).mp ht
  obtain ⟨-, hjob, hbuf, hmodes⟩ := idle_facts h hop
  refine store_inv h _ s.cmd hjob h.offset (fun hm => h.indices (.inl ?_)) (.inr hmodes) (by rw [hop]; rfl) h.status
    ⟨by decide, hbuf⟩
  exact hm.resolve_right Bool.false_ne_true

/-- Every command that the environment presents keeps the invariant. -/
theorem command_inv {s t : State} {w : BitVec 4} {i : Instr} (h : MachineInv s) (hd : decode (.cmd w) = .ok i)
    (ht : exec i s = .next t) : MachineInv t := by
  rcases decode_cmd hd with rfl | rfl | rfl | ⟨force, rfl⟩ | rfl
  · exact tick_inv h ht
  · exact restoreConfig_inv h ht
  · exact scheduleSave_inv h ht
  · exact saveConfig_inv h ht
  · exact eraseConfig_inv h ht

/-! ### The end of a flash operation -/

/-- The end of a flash operation keeps the invariant (rules R203, R204). -/
theorem flashSettle_inv {s : State} (h : MachineInv s) : MachineInv (flashSettle s) := by
  have hwf := flashSettle_wf h.memory (awaited_inPool h)
  obtain ⟨mem, err, e, hs, -⟩ := flashSettle_spec s
  rw [hs] at hwf ⊢
  exact inv_mk h rfl rfl rfl rfl h.offset h.indices h.modes h.lock (.inl rfl) hwf h.status h.port h.place

end Sys2Proof.Proofs
end

section
/-! The state family, part 4: from every state of the invariant the store sequencer has its next step, together with the
flash operation it issues, and that step keeps the invariant (10_state.md R29, R31; 46_config_store.md). -/

namespace Sys2Proof.Proofs

open Sys2Proof.Machine Sys2Proof.Config Sys2Proof.Laws

/-! ### What the invariant says where the store stands -/

/-- The store waits for a flash operation (rules R208, R209). -/
def polls : StoreOp → Bool
  | .restoreErase _ .poll _ _ => true
  | .eraseAll _ .poll _ => true
  | .saveProgram (.poll _) => true
  | _ => false

/-- A flash operation is awaited only where the store polls. -/
theorem jobAwaited_of_not_polls {s : State} (hp : polls s.store.op = false) : jobAwaited s = none := by
  refine jobAwaited_none (fun i ok found ho => ?_) (fun i ok ho => ?_) (fun u ho => ?_) <;>
    · rw [ho] at hp
      cases hp

/-- The controller is busy only where the store polls. -/
theorem busy_polls {s : State} (h : MachineInv s) (hb : s.flash.busy = true) : polls s.store.op = true := by
  by_contra hp
  have hjob := h.job.elim id (fun e => e.trans (jobAwaited_of_not_polls (Bool.not_eq_true _ ▸ hp)))
  rw [Flash.busy, hjob] at hb
  cases hb

/-- Where the store does not poll the controller is at rest. -/
theorem job_none {s : State} {op : StoreOp} (h : MachineInv s) (ho : s.store.op = op) (hp : polls op = false) :
    s.flash.job = none :=
  h.job.elim id (fun e => e.trans (jobAwaited_of_not_polls (ho ▸ hp)))

/-- Where RESTORE_CONFIG does not copy the settings are legal (rule R31 e). -/
theorem settings_legal {s : State} {op : StoreOp} (h : MachineInv s) (ho : s.store.op = op) (hc : op.copying = false) :
    settingsLegal s.settings = true :=
  h.modes.resolve_left (by rw [ho, hc]; exact Bool.false_ne_true)

/-- Where a RESTORE_CONFIG is in flight the page indices are legal (rule R24). -/
theorem restore_indices {s : State} {op : StoreOp} (h : MachineInv s) (ho : s.store.op = op)
    (hr : op.isRestore = true) : indicesLegal s.store.pages :=
  h.indices (.inr (by rw [ho, hr]))

/-- What the invariant says of the place where the store stands. -/
theorem place_at {s : State} {op : StoreOp} (h : MachineInv s) (ho : s.store.op = op) : opPlaced (setOp op s) := by
  subst ho
  exact h.place

/-- The start of a page is a legal offset (rule R31 d). -/
theorem offsetLegal_zero : offsetLegal 0 := ⟨rfl, Nat.zero_le _⟩

/-- The end of a block that fits its page is a legal offset (rule R31 d). -/
theorem offsetLegal_next {o : Nat} (ho : o % blk = 0) (hfits : o + blk ≤ pageSize) : offsetLegal (o + blk) :=
  ⟨by rw [Nat.add_mod_right, ho], hfits⟩

/-! ### A step without a flash operation -/

/-- A store step that presents no flash operation, from its own invariant. -/
theorem plain_kept {s u : State} (hs : storeStep s = .next u) (hu : MachineInv u) : ∃ t, Driven s t ∧ MachineInv t :=
  ⟨u, .plain hs hu.port, hu⟩

/-! ### RESTORE_CONFIG: each of its steps keeps the invariant (rules R160 to R169) -/

theorem restoreFindStep_inv {s : State} (h : MachineInv s) (ho : s.store.op = .restoreFind) :
    MachineInv (restoreFindStep s) := by
  have hjob := job_none h ho rfl
  have hset := settings_legal h ho rfl
  have hind := restore_indices h ho rfl
  have hbuf : s.store.buf = none := place_at h ho
  unfold restoreFindStep
  split <;>
    exact store_inv h _ s.cmd hjob h.offset (fun _ => hind) (.inr hset) (by rw [ho]; rfl) h.status hbuf

theorem restoreReclaimStep_inv {s : State} {i : Nat} {ok found : Bool} (h : MachineInv s)
    (ho : s.store.op = .restoreReclaim i ok found) : MachineInv (restoreReclaimStep i ok found s) := by
  have hjob := job_none h ho rfl
  have hset := settings_legal h ho rfl
  have hind := restore_indices h ho rfl
  have hbuf : s.store.buf = none := place_at h ho
  unfold restoreReclaimStep
  split
  · rename_i hi
    split
    · exact store_inv h _ s.cmd hjob h.offset (fun _ => hind) (.inr hset) (by rw [ho]; rfl) h.status ⟨hi, hbuf⟩
    · exact store_inv h _ s.cmd hjob h.offset (fun _ => hind) (.inr hset) (by rw [ho]; rfl) h.status hbuf
  · exact store_inv h _ s.cmd hjob h.offset (fun _ => hind) (.inr hset) (by rw [ho]; rfl) h.status hbuf

theorem reclaimed_inv {s : State} {i : Nat} {erased ok found : Bool} (h : MachineInv s)
    (ho : s.store.op = .restoreErase i (.done erased) ok found) : MachineInv (reclaimed i erased ok found s) := by
  have hjob := job_none h ho rfl
  have hset := settings_legal h ho rfl
  have hind := restore_indices h ho rfl
  obtain ⟨-, hbuf⟩ : i < nPages ∧ s.store.buf = none := place_at h ho
  have hpages := fun dirty : PageDesc → Bool =>
    updatePage_legal hind i (f := fun d => ⟨dirty d, noIndex⟩) (fun _ => rfl)
  unfold reclaimed
  simp only
  split
  · exact store_inv h _ s.cmd hjob h.offset (fun _ => hpages _) (.inr hset) (by rw [ho]; rfl) h.status hbuf
  · exact store_inv h _ s.cmd hjob h.offset (fun _ => hpages _) (.inr hset) (by rw [ho]; rfl)
      (status_or h.status (by decide)) hbuf

theorem restoreSnapshotStep_inv {s : State} {ok found : Bool} (h : MachineInv s)
    (ho : s.store.op = .restoreSnapshot ok found) : MachineInv (restoreSnapshotStep ok found s) := by
  have hjob := job_none h ho rfl
  have hset := settings_legal h ho rfl
  have hind := restore_indices h ho rfl
  have hbuf : s.store.buf = none := place_at h ho
  unfold restoreSnapshotStep
  split
  · obtain ⟨halign, hfits⟩ :=
      lastBlock_legal s.params s.flash.mem s.store.curPage.val blocksPerPage 0 (by decide)
    have hoff := offsetLegal_next halign hfits
    exact store_inv h _ s.cmd hjob (fun _ => hoff) (fun _ => hind) (.inr hset) (by rw [ho]; rfl) h.status
      ⟨by decide, hfits, hoff, hbuf⟩
  · exact store_inv h _ s.cmd hjob (fun _ => offsetLegal_zero) (fun _ => hind) (.inr hset) (by rw [ho]; rfl) h.status
      ⟨offsetLegal_zero, hbuf⟩

/-- A copy step always reads a byte of the pool (rule R42), and keeps the invariant. -/
theorem restoreCopy_kept {s : State} {snapshot n : Nat} {ok : Bool} (h : MachineInv s)
    (ho : s.store.op = .restoreCopy snapshot n ok) : ∃ t, restoreCopyStep snapshot n ok s = .next t ∧ MachineInv t := by
  have hjob := job_none h ho rfl
  have hind := restore_indices h ho rfl
  obtain ⟨hn, hsnap, hoff, hbuf⟩ :
      n < 6 ∧ snapshot + blk ≤ pageSize ∧ offsetLegal s.store.nextOffset ∧ s.store.buf = none := place_at h ho
  have hfits : snapshot + hdrSize + n + 1 ≤ pageSize := by
    change snapshot + 16 ≤ 2048 at hsnap
    change snapshot + 5 + n + 1 ≤ 2048
    omega
  have hread := (flashRead_ok s.flash s.store.curPage.val (snapshot + hdrSize + n) 1 _).mpr
    ⟨by rw [Flash.busy, hjob]; rfl, s.store.curPage.isLt, hfits, rfl⟩
  unfold restoreCopyStep
  rw [dif_pos hn, hread]
  refine ⟨_, rfl, ?_⟩
  split
  · rename_i hnext
    exact inv_mk h rfl rfl rfl rfl h.offset (fun _ => hind) (.inl rfl) (h.lock.trans (by rw [ho]; rfl)) (.inl hjob)
      h.memory h.status h.port ⟨hnext, hsnap, hoff, hbuf⟩
  · exact inv_mk h rfl rfl rfl rfl h.offset (fun _ => hind) (.inl rfl) (h.lock.trans (by rw [ho]; rfl)) (.inl hjob)
      h.memory h.status h.port ⟨hoff, hbuf⟩

theorem validate_inv {s : State} {ok : Bool} (h : MachineInv s) (ho : s.store.op = .restoreValidate ok) :
    MachineInv (setOp (.restoreFinish ok) (validate s)) := by
  have hjob := job_none h ho rfl
  have hind := restore_indices h ho rfl
  have hplace : offsetLegal s.store.nextOffset ∧ s.store.buf = none := place_at h ho
  unfold validate
  split
  · rename_i hset
    exact store_inv h _ s.cmd hjob h.offset (fun _ => hind) (.inr hset) (by rw [ho]; rfl) h.status hplace
  · exact inv_mk h rfl rfl rfl rfl h.offset (fun _ => hind)
      (.inr (show settingsLegal (Vector.replicate 6 0) = true by decide)) (h.lock.trans (by rw [ho]; rfl)) (.inl hjob)
      h.memory (status_or h.status (by decide)) h.port hplace

theorem restoreFinishStep_inv {s : State} {ok : Bool} (h : MachineInv s) (ho : s.store.op = .restoreFinish ok) :
    MachineInv (restoreFinishStep ok s) := by
  have hjob := job_none h ho rfl
  have hset := settings_legal h ho rfl
  have hind := restore_indices h ho rfl
  obtain ⟨hoff, -⟩ : offsetLegal s.store.nextOffset ∧ s.store.buf = none := place_at h ho
  exact store_inv h _ _ hjob (fun _ => hoff) (fun _ => hind) (.inr hset) (by rw [ho]; rfl) h.status rfl

/-! ### SAVE_CONFIG: each of its steps keeps the invariant (rules R171 to R175) -/

theorem savePlaceStep_inv {s : State} (h : MachineInv s) (ho : s.store.op = .savePlace) :
    MachineInv (savePlaceStep s) := by
  have hjob := job_none h ho rfl
  have hset := settings_legal h ho rfl
  obtain ⟨hmeta, hbuf⟩ : s.store.metaValid = true ∧ s.store.buf = none := place_at h ho
  have hind := h.indices (.inl hmeta)
  unfold savePlaceStep
  split
  · split
    · exact store_inv h _ _ hjob h.offset (fun _ => hind) (.inr hset) (by rw [ho]; rfl)
        (status_or h.status (by decide)) rfl
    · exact store_inv h _ s.cmd hjob (fun _ => offsetLegal_zero) (fun _ => hind) (.inr hset)
        (by rw [ho]; rfl) h.status ⟨⟨hmeta, rfl, show 0 + blk ≤ pageSize by decide⟩, hbuf⟩
  · rename_i hfits
    exact store_inv h _ s.cmd hjob h.offset (fun _ => hind) (.inr hset) (by rw [ho]; rfl) h.status
      ⟨⟨hmeta, (h.offset hmeta).1, Nat.not_lt.mp hfits⟩, hbuf⟩

theorem saveHeaderStep_inv {s : State} (h : MachineInv s) (ho : s.store.op = .saveHeader) :
    MachineInv (saveHeaderStep s) := by
  have hjob := job_none h ho rfl
  have hset := settings_legal h ho rfl
  obtain ⟨hplaced, -⟩ : savePlaced s ∧ s.store.buf = none := place_at h ho
  exact store_inv h _ s.cmd hjob h.offset (fun _ => h.indices (.inl hplaced.1)) (.inr hset) (by rw [ho]; rfl) h.status
    ⟨hplaced, by decide, rfl⟩

/-- Appending to the block buffer adds to its length (rule R29 b). -/
theorem appendBuf_length {st : Store} {n : Nat} (h : st.buf.map List.length = some n) (bs : List Byte) :
    (appendBuf bs st).buf.map List.length = some (n + bs.length) := by
  obtain ⟨b, hb, rfl⟩ := Option.map_eq_some_iff.mp h
  simp [appendBuf, hb]

theorem saveReadStep_inv {s : State} {n : Nat} (h : MachineInv s) (ho : s.store.op = .saveRead n) :
    MachineInv (saveReadStep n s) := by
  have hjob := job_none h ho rfl
  have hset := settings_legal h ho rfl
  obtain ⟨hplaced, hn, hlen⟩ : savePlaced s ∧ n < 6 ∧ bufLength s = some (hdrSize + n) := place_at h ho
  have hind := h.indices (.inl hplaced.1)
  have hlen' := appendBuf_length hlen [s.settings[n]]
  unfold saveReadStep
  rw [dif_pos hn]
  split
  · rename_i hnext
    exact store_inv h _ s.cmd hjob h.offset (fun _ => hind) (.inr hset) (by rw [ho]; rfl) h.status
      ⟨hplaced, hnext, hlen'⟩
  · rename_i hlast
    obtain rfl : n = 5 := by omega
    exact store_inv h _ s.cmd hjob h.offset (fun _ => hind) (.inr hset) (by rw [ho]; rfl) h.status ⟨hplaced, hlen'⟩

theorem savePadStep_inv {s : State} (h : MachineInv s) (ho : s.store.op = .savePad) : MachineInv (savePadStep s) := by
  have hjob := job_none h ho rfl
  have hset := settings_legal h ho rfl
  obtain ⟨hplaced, hlen⟩ : savePlaced s ∧ bufLength s = some (hdrSize + settingsSize) := place_at h ho
  have hlen' := appendBuf_length hlen (drawBytes (blk - (hdrSize + settingsSize)) s.env).1
  rw [drawBytes_length] at hlen'
  exact inv_mk h rfl rfl rfl rfl h.offset (fun _ => h.indices (.inl hplaced.1)) (.inr hset)
    (h.lock.trans (by rw [ho]; rfl)) (.inl hjob) h.memory h.status h.port ⟨hplaced, hlen', trivial⟩

/-- Replacing one descriptor by a legal one keeps the indices legal (rule R24). -/
theorem setPage_legal {pages : Vector PageDesc nPages} (h : indicesLegal pages) (i : Fin nPages) {d : PageDesc}
    (hd : d.index = noIndex ∨ d.index.toNat < nPages) : indicesLegal (pages.set i d) := by
  intro j
  by_cases hij : i = j
  · subst hij
    simpa using hd
  · have hne : (pages.set i d)[j] = pages[j] := Vector.getElem_set_ne _ _ (fun e => hij (Fin.ext e))
    rw [hne]
    exact h j

theorem saveProgramDone_inv {s : State} {ok : Bool} (h : MachineInv s) (ho : s.store.op = .saveProgram (.done ok)) :
    MachineInv (saveProgramDone ok s) := by
  have hjob := job_none h ho rfl
  have hset := settings_legal h ho rfl
  obtain ⟨⟨hmeta, halign, hfits⟩, -⟩ : savePlaced s ∧ bufLength s = some blk ∧ True :=
    place_at h ho
  have hind := h.indices (.inl hmeta)
  unfold saveProgramDone
  split
  · have hindex : (BitVec.ofNat 8 s.store.curIndex.val).toNat < nPages := by
      have := s.store.curIndex.isLt
      rw [BitVec.toNat_ofNat]
      exact lt_of_le_of_lt (Nat.mod_le _ _) this
    exact store_inv h _ _ hjob (fun _ => offsetLegal_next halign hfits)
      (fun _ => setPage_legal hind _ (.inr hindex)) (.inr hset) (by rw [ho]; rfl) h.status rfl
  · exact store_inv h _ _ hjob h.offset (fun _ => setPage_legal hind _ (hind s.store.curPage)) (.inr hset)
      (by rw [ho]; rfl) (status_or h.status (by decide)) rfl

/-! ### ERASE_CONFIG: its book-keeping keeps the invariant (rule R178) -/

theorem pageErased_inv {s : State} {i : Nat} {erased ok : Bool} (h : MachineInv s)
    (ho : s.store.op = .eraseAll i (.done erased) ok) : MachineInv (pageErased i erased ok s) := by
  have hjob := job_none h ho rfl
  have hset := settings_legal h ho rfl
  obtain ⟨-, hbuf⟩ : i < nPages ∧ s.store.buf = none := place_at h ho
  have hmoved : MachineInv
      (setOp (if i + 1 < nPages then .eraseAll (i + 1) .unlock (ok && erased) else .eraseFinish (ok && erased)) s) := by
    split
    · rename_i hnext
      exact store_inv h _ s.cmd hjob h.offset (fun hm => h.indices (.inl (hm.resolve_right Bool.false_ne_true)))
        (.inr hset) (by rw [ho]; rfl) h.status ⟨hnext, hbuf⟩
    · exact store_inv h _ s.cmd hjob h.offset (fun hm => h.indices (.inl (hm.resolve_right Bool.false_ne_true)))
        (.inr hset) (by rw [ho]; rfl) h.status hbuf
  unfold pageErased
  simp only
  split
  · exact hmoved
  · exact inv_mk hmoved rfl rfl rfl rfl hmoved.offset hmoved.indices hmoved.modes hmoved.lock hmoved.job hmoved.memory
      (status_or hmoved.status (by decide)) hmoved.port hmoved.place

theorem eraseFinishStep_inv {s : State} {ok : Bool} (h : MachineInv s) (ho : s.store.op = .eraseFinish ok) :
    MachineInv (eraseFinishStep ok s) := by
  have hjob := job_none h ho rfl
  have hset := settings_legal h ho rfl
  refine store_inv h _ _ hjob (fun _ => offsetLegal_zero) (fun _ i => .inl ?_) (.inr hset) (by rw [ho]; rfl)
    h.status rfl
  exact congrArg PageDesc.index (Vector.getElem_replicate _)

end Sys2Proof.Proofs
end

section
/-! The state family, part 5: the flash sequences of the store, and with them O56 (10_state.md R31;
47_flash_controller.md R208, R209). -/

namespace Sys2Proof.Proofs

open Sys2Proof.Machine Sys2Proof.Config Sys2Proof.Laws

/-! ### EraseSeq -/

/-- The places `f` of a store command in which it erases page `i`. -/
structure ErasesPage (f : EraseStep → StoreOp) (i : Nat) : Prop where
  restore : ∀ p q, (f q).isRestore = (f p).isRestore
  copying : ∀ q, (f q).copying = false
  locked : ∀ q, (f q).lockedAt = q.lockedAt
  awaited : ∀ s q, jobAwaited (setOp (f q) s) = if q = .poll then some (.erase i) else none
  placed : ∀ s q, opPlaced (setOp (f q) s) ↔ i < nPages ∧ s.store.buf = none

theorem restoreErase_erasesPage (i : Nat) (ok found : Bool) : ErasesPage (fun q => .restoreErase i q ok found) i where
  restore := fun _ _ => rfl
  copying := fun _ => rfl
  locked := fun _ => rfl
  awaited := fun _ q => by cases q <;> rfl
  placed := fun _ _ => Iff.rfl

theorem eraseAll_erasesPage (i : Nat) (ok : Bool) : ErasesPage (fun q => .eraseAll i q ok) i where
  restore := fun _ _ => rfl
  copying := fun _ => rfl
  locked := fun _ => rfl
  awaited := fun _ q => by cases q <;> rfl
  placed := fun _ _ => Iff.rfl

/-- Each step of `EraseSeq` has its next state: the operation it issues meets the preconditions of rule R207. -/
theorem eraseSeq_driven {s : State} {i : Nat} {f : EraseStep → StoreOp} {p : EraseStep} (hi : i < nPages)
    (hfv : s.fop.valid = false) (hl : s.flash.locked = p.lockedAt) (hj : p = .poll ∨ s.flash.busy = false)
    (hs : storeStep s = .next (eraseSeqStep i f p s)) : ∃ t, Driven s t := by
  cases p with
  | unlock =>
    have hb := hj.resolve_left EraseStep.noConfusion
    exact ⟨_, .issued _ .flUnlock hs rfl rfl ((execFlUnlock_next_iff _ _).mpr ⟨hb, rfl⟩)⟩
  | clearErr =>
    have hb := hj.resolve_left EraseStep.noConfusion
    exact ⟨_, .issued _ .flClrerr hs rfl rfl ((execFlClrerr_next_iff _ _).mpr ⟨hb, rfl⟩)⟩
  | erase =>
    have hb := hj.resolve_left EraseStep.noConfusion
    exact ⟨_, .issued _ .flErase hs rfl rfl ((execFlErase_next_iff _ _).mpr ⟨hb, hl, hi, rfl⟩)⟩
  | poll =>
    refine ⟨_, .plain hs ?_⟩
    simp only [eraseSeqStep]
    split <;> exact hfv
  | lock ok =>
    have hb := hj.resolve_left EraseStep.noConfusion
    exact ⟨_, .issued _ .flLock hs rfl rfl ((execFlLock_next_iff _ _).mpr ⟨hb, rfl⟩)⟩
  | done ok => exact ⟨_, .plain hs hfv⟩

/-- Each step of `EraseSeq` short of its last place has its next state, which keeps the invariant (rule R209). -/
theorem eraseSeq_kept {s : State} {i : Nat} {f : EraseStep → StoreOp} {p : EraseStep} (h : MachineInv s)
    (hf : ErasesPage f i) (ho : s.store.op = f p) (hnd : ∀ ok, p ≠ .done ok)
    (hs : storeStep s = .next (eraseSeqStep i f p s)) : ∃ t, Driven s t ∧ MachineInv t := by
  obtain ⟨hi, hbuf⟩ := (hf.placed s p).mp (place_at h ho)
  have hl : s.flash.locked = p.lockedAt := by rw [h.lock, ho, hf.locked]
  have hself : setOp (f p) s = s := by rw [← ho]; rfl
  have hj : s.flash.job = none ∨ (p = .poll ∧ s.flash.job = some (.erase i)) := by
    have hjob := h.job
    rw [← hself, hf.awaited, hself] at hjob
    by_cases hp : p = .poll
    · exact hjob.imp id (fun e => ⟨hp, by rw [e, if_pos hp]⟩)
    · exact .inl (hjob.elim id (fun e => by rw [e, if_neg hp]))
  have hrest : p = .poll ∨ s.flash.busy = false :=
    hj.symm.imp And.left (fun e => by rw [Flash.busy, e]; rfl)
  obtain ⟨t, hd⟩ := eraseSeq_driven hi h.port hl hrest hs
  obtain ⟨q, hst, hp, he, hc, hlfo, hset, hmem, hlock, hjob, hv⟩ := erase_arm hnd h.port hl hj ho hs hd
  have hop : t.store.op = f q := by rw [hst]
  have htself : setOp (f q) t = t := by rw [← hop]; rfl
  refine ⟨t, hd, inv_mk h hp he hc hlfo ?_ ?_ ?_ ?_ ?_ ?_ ?_ hv ?_⟩
  · rw [hst]
    exact h.offset
  · rw [hst]
    have hind := h.indices
    rwa [ho, hf.restore q p] at hind
  · rw [hset]
    exact .inr (settings_legal h ho (hf.copying p))
  · rw [hop, hf.locked, hlock]
  · rw [← htself, hf.awaited, htself]
    exact hjob.imp id (fun ⟨hq, e⟩ => by rw [e, if_pos hq])
  · rw [hmem]
    exact h.memory
  · rw [hst]
    exact h.status
  · rw [← htself, hf.placed]
    exact ⟨hi, by rw [hst]; exact hbuf⟩

/-! ### ProgramSeq -/

/-- Moving on inside a program sequence, with what the operation leaves in the controller, keeps the invariant. -/
theorem saveProgram_moved {s : State} {p q : ProgStep} (h : MachineInv s) (ho : s.store.op = .saveProgram p)
    (hq : q.unitLegal s.params) (fl : Flash) (fp : FlashPort) (hl : fl.locked = q.lockedAt)
    (hm : fl.mem = s.flash.mem) (hv : fp.valid = false)
    (hj : fl.job = none ∨ fl.job = jobAwaited (setOp (.saveProgram q) s)) :
    MachineInv { setOp (.saveProgram q) s with flash := fl, fop := fp } := by
  obtain ⟨hplaced, hlen, -⟩ : savePlaced s ∧ bufLength s = some blk ∧ p.unitLegal s.params := place_at h ho
  have hset := settings_legal h ho rfl
  exact inv_mk h rfl rfl rfl rfl h.offset (fun _ => h.indices (.inl hplaced.1)) (.inr hset) hl hj
    (by rw [hm]; exact h.memory) h.status hv ⟨hplaced, hlen, hq⟩

/-- What rule R207 asks of the program operation of a unit: the unit is aligned and lies in its page. -/
theorem unit_aligned {p : Params} (hp : p.wellFormed = true) {o u : Nat} (ho : o % blk = 0)
    (hfits : o + blk ≤ pageSize) (hu : u < unitCount p) :
    (o + u * p.wblk) % p.wblk = 0 ∧ o + u * p.wblk + p.wblk ≤ pageSize := by
  obtain ⟨-, -, -, -, -, -, -, hdiv, -⟩ := params_pos hp
  have hdvd : p.wblk ∣ o := (Nat.dvd_of_mod_eq_zero hdiv).trans (Nat.dvd_of_mod_eq_zero ho)
  have hunit := unit_le hp hu
  change o + 16 ≤ 2048 at hfits
  refine ⟨Nat.mod_eq_zero_of_dvd (hdvd.add (Dvd.intro_left u rfl)), ?_⟩
  change o + u * p.wblk + p.wblk ≤ 2048
  omega

/-- A block has at least one program unit (rule R208). -/
theorem unitCount_pos {p : Params} (hp : p.wellFormed = true) : 0 < unitCount p := by
  have hmul := unitCount_mul hp
  by_contra hz
  rw [Nat.eq_zero_of_not_pos hz, Nat.zero_mul] at hmul
  cases hmul

/-- Each step of `ProgramSeq` short of its last place has its next state, which keeps the invariant (rule R208). -/
theorem programSeq_kept {s : State} {p : ProgStep} (h : MachineInv s) (ho : s.store.op = .saveProgram p)
    (hs : storeStep s = .next (programSeqStep s.store.curPage.val s.store.nextOffset (s.store.buf.getD [])
      .saveProgram p s)) : ∃ t, Driven s t ∧ MachineInv t := by
  obtain ⟨⟨-, halign, hfits⟩, hlen, hunit⟩ : savePlaced s ∧ bufLength s = some blk ∧ p.unitLegal s.params :=
    place_at h ho
  have hl : s.flash.locked = p.lockedAt := by rw [h.lock, ho]; rfl
  have hrest : polls (.saveProgram p) = false → s.flash.job = none := job_none h ho
  have hidle : s.flash.job = none → s.flash.busy = false := fun e => by rw [Flash.busy, e]; rfl
  cases p with
  | unlock =>
    have hjob := hrest rfl
    exact ⟨_, .issued _ .flUnlock hs rfl rfl ((execFlUnlock_next_iff _ _).mpr ⟨hidle hjob, rfl⟩),
      saveProgram_moved h ho (q := .clearErr) trivial _ _ rfl rfl rfl (.inl hjob)⟩
  | clearErr =>
    have hjob := hrest rfl
    exact ⟨_, .issued _ .flClrerr hs rfl rfl ((execFlClrerr_next_iff _ _).mpr ⟨hidle hjob, rfl⟩),
      saveProgram_moved h ho (q := .prog 0) (unitCount_pos h.params) _ _ hl rfl rfl (.inl hjob)⟩
  | prog u =>
    have hjob := hrest rfl
    obtain ⟨hmod, hpage⟩ := unit_aligned h.params halign hfits hunit
    obtain ⟨buf, hbuf, hbufLen⟩ := Option.map_eq_some_iff.mp hlen
    have hdata : (unitBytes s.params.wblk u (s.store.buf.getD [])).length = s.params.wblk := by
      rw [hbuf]
      exact unitBytes_length h.params hunit hbufLen
    refine ⟨_, .issued _ .flProg hs rfl rfl
      ((execFlProg_next_iff _ _).mpr ⟨hidle hjob, hl, hmod, s.store.curPage.isLt, hpage, rfl⟩), ?_⟩
    refine saveProgram_moved h ho (q := .poll u) hunit _ _ hl rfl rfl (.inr ?_)
    exact congrArg (fun d => some (FlashJob.prog s.store.curPage.val (s.store.nextOffset + u * s.params.wblk) d))
      (portData_eq hdata)
  | poll u =>
    refine plain_kept hs ?_
    simp only [programSeqStep]
    split
    · exact h
    · rename_i hb
      have hjob : s.flash.job = none := by simpa using hb
      split
      · exact saveProgram_moved h ho (q := .lock false) trivial _ _ hl rfl h.port (.inl hjob)
      · split
        · rename_i hnext
          exact saveProgram_moved h ho (q := .prog (u + 1)) hnext _ _ hl rfl h.port (.inl hjob)
        · exact saveProgram_moved h ho (q := .lock true) trivial _ _ hl rfl h.port (.inl hjob)
  | lock ok =>
    have hjob := hrest rfl
    exact ⟨_, .issued _ .flLock hs rfl rfl ((execFlLock_next_iff _ _).mpr ⟨hidle hjob, rfl⟩),
      saveProgram_moved h ho (q := .done ok) trivial _ _ rfl rfl rfl (.inl hjob)⟩
  | done ok => exact plain_kept hs h

/-! ### Every step of the store -/

/-- A machine step of the store has at most one next state. -/
theorem driven_unique {s t u : State} (ht : Driven s t) (hu : Driven s u) : t = u := by
  cases ht with
  | plain hs hv => exact (plain_arm hs hv hu).symm
  | issued v i hs hv hd he =>
    cases hu with
    | plain hs' hv' =>
      cases hs.symm.trans hs'
      rw [hv] at hv'
      cases hv'
    | issued v' i' hs' hv' hd' he' =>
      cases hs.symm.trans hs'
      cases hd.symm.trans hd'
      exact Host.Outcome.next.inj (he.symm.trans he')

/-- A store command in an erase short of its book-keeping takes a step of `EraseSeq` (rule R209). -/
theorem storeStep_restoreErase {s : State} {i : Nat} {p : EraseStep} {ok found : Bool}
    (ho : s.store.op = .restoreErase i p ok found) (hnd : ∀ e, p ≠ .done e) :
    storeStep s = .next (eraseSeqStep i (fun q => .restoreErase i q ok found) p s) := by
  unfold storeStep
  rw [ho]
  cases p with
  | done e => exact absurd rfl (hnd e)
  | _ => rfl

theorem storeStep_eraseAll {s : State} {i : Nat} {p : EraseStep} {ok : Bool} (ho : s.store.op = .eraseAll i p ok)
    (hnd : ∀ e, p ≠ .done e) : storeStep s = .next (eraseSeqStep i (fun q => .eraseAll i q ok) p s) := by
  unfold storeStep
  rw [ho]
  cases p with
  | done e => exact absurd rfl (hnd e)
  | _ => rfl

/-- A save short of its book-keeping takes a step of `ProgramSeq` (rule R208). -/
theorem storeStep_saveProgram {s : State} {p : ProgStep} (ho : s.store.op = .saveProgram p) (hnd : ∀ e, p ≠ .done e) :
    storeStep s =
      .next (programSeqStep s.store.curPage.val s.store.nextOffset (s.store.buf.getD []) .saveProgram p s) := by
  unfold storeStep
  rw [ho]
  cases p with
  | done e => exact absurd rfl (hnd e)
  | _ => rfl

/-- From every state of the invariant the store has its next machine step, which keeps the invariant. -/
theorem driven_kept {s : State} (h : MachineInv s) : ∃ t, Driven s t ∧ MachineInv t := by
  cases ho : s.store.op with
  | idle => exact plain_kept (by rw [storeStep, ho]) h
  | restoreFind => exact plain_kept (by rw [storeStep, ho]) (restoreFindStep_inv h ho)
  | restoreReclaim i ok found => exact plain_kept (by rw [storeStep, ho]) (restoreReclaimStep_inv h ho)
  | restoreErase i p ok found =>
    by_cases hnd : ∀ e, p ≠ .done e
    · exact eraseSeq_kept h (restoreErase_erasesPage i ok found) ho hnd (storeStep_restoreErase ho hnd)
    · push Not at hnd
      obtain ⟨erased, rfl⟩ := hnd
      exact plain_kept (by rw [storeStep, ho]) (reclaimed_inv h ho)
  | restoreSnapshot ok found =>
    have hb : ¬s.flash.busy = true := by rw [Flash.busy, job_none h ho rfl]; exact Bool.false_ne_true
    exact plain_kept (by rw [storeStep, ho]; exact if_neg hb) (restoreSnapshotStep_inv h ho)
  | restoreCopy snapshot n ok =>
    obtain ⟨t, hs, ht⟩ := restoreCopy_kept h ho
    exact plain_kept (by rw [storeStep, ho]; exact hs) ht
  | restoreValidate ok => exact plain_kept (by rw [storeStep, ho]) (validate_inv h ho)
  | restoreFinish ok => exact plain_kept (by rw [storeStep, ho]) (restoreFinishStep_inv h ho)
  | savePlace => exact plain_kept (by rw [storeStep, ho]) (savePlaceStep_inv h ho)
  | saveHeader => exact plain_kept (by rw [storeStep, ho]) (saveHeaderStep_inv h ho)
  | saveRead n => exact plain_kept (by rw [storeStep, ho]) (saveReadStep_inv h ho)
  | savePad => exact plain_kept (by rw [storeStep, ho]) (savePadStep_inv h ho)
  | saveProgram p =>
    by_cases hnd : ∀ e, p ≠ .done e
    · exact programSeq_kept h ho (storeStep_saveProgram ho hnd)
    · push Not at hnd
      obtain ⟨ok, rfl⟩ := hnd
      exact plain_kept (by rw [storeStep, ho]) (saveProgramDone_inv h ho)
  | eraseAll i p ok =>
    by_cases hnd : ∀ e, p ≠ .done e
    · exact eraseSeq_kept h (eraseAll_erasesPage i ok) ho hnd (storeStep_eraseAll ho hnd)
    · push Not at hnd
      obtain ⟨erased, rfl⟩ := hnd
      exact plain_kept (by rw [storeStep, ho]) (pageErased_inv h ho)
  | eraseFinish ok => exact plain_kept (by rw [storeStep, ho]) (eraseFinishStep_inv h ho)

/-- Every machine step of the store keeps the invariant. -/
theorem driven_inv {s t : State} (h : MachineInv s) (hd : Driven s t) : MachineInv t := by
  obtain ⟨u, hu, hinv⟩ := driven_kept h
  rwa [driven_unique hd hu]

/-- Settles O56, by what a step can do: a command, a step of the store, the end of a flash operation, or a reset. -/
theorem invariantKept : Obligations.InvariantKept := by
  intro s t h hstep
  cases (step_cases hstep).2 with
  | flashWord i hv hd he => exact absurd hv (by rw [h.port]; exact Bool.false_ne_true)
  | command w port rest i hv hs hd he => exact command_inv (takeCommand_inv (takeEvent_inv h rest) i port) hd he
  | store rest hv hs hd => exact driven_inv (takeEvent_inv h rest) hd
  | settle rest hv hs ht => exact ht ▸ flashSettle_inv (takeEvent_inv h rest)
  | reset rest hv hs ht => exact ht ▸ resetMachine_inv (takeEvent_inv h rest)

end Sys2Proof.Proofs
end

section
/-! The state family, part 6: every store command in flight comes to its end (10_state.md R29; 30_encoding.md R62;
47_flash_controller.md R206; 60_exceptions.md R235). -/

namespace Sys2Proof.Proofs

open Sys2Proof.Machine Sys2Proof.Config Sys2Proof.Laws

/-! ### How many steps are left

A bound on the undisturbed steps from a place of a store command to its end, with the controller at rest; each step that
starts a flash operation counts twice, once more for the step in which the controller finishes it. -/

/-- Steps left of `EraseSeq` and its book-keeping (rule R209). -/
def eraseStepsLeft : EraseStep → Nat
  | .unlock => 7
  | .clearErr => 6
  | .erase => 5
  | .poll => 3
  | .lock _ => 2
  | .done _ => 1

/-- Steps left of `ProgramSeq` over `units` program units and its book-keeping (rule R208). -/
def programStepsLeft (units : Nat) : ProgStep → Nat
  | .unlock => 7 + 3 * units
  | .clearErr => 6 + 3 * units
  | .prog u => 5 + 3 * (units - (u + 1))
  | .poll u => 3 + 3 * (units - (u + 1))
  | .lock _ => 2
  | .done _ => 1

/-- Steps left of a store command (rules R160, R171, R178). -/
def stepsLeft (units : Nat) : StoreOp → Nat
  | .idle => 0
  | .restoreFind => 12 + 8 * nPages
  | .restoreReclaim i _ _ => 11 + 8 * (nPages - i)
  | .restoreErase i p _ _ => eraseStepsLeft p + 11 + 8 * (nPages - (i + 1))
  | .restoreSnapshot _ _ => 10
  | .restoreCopy _ n _ => 3 + (6 - n)
  | .restoreValidate _ => 2
  | .restoreFinish _ => 1
  | .savePlace => 17 + 3 * units
  | .saveHeader => 16 + 3 * units
  | .saveRead n => 9 + 3 * units + (6 - n)
  | .savePad => 8 + 3 * units
  | .saveProgram p => programStepsLeft units p
  | .eraseAll i p _ => eraseStepsLeft p + 1 + 7 * (nPages - (i + 1))
  | .eraseFinish _ => 1

/-- Steps left where the controller may still be busy: one more where the store polls. -/
def stepsLeftBusy (units : Nat) (op : StoreOp) : Nat := stepsLeft units op + (polls op).toNat

/-- Steps left from a state. -/
def remaining (s : State) : Nat := stepsLeft (unitCount s.params) s.store.op + s.flash.busy.toNat

/-- A block has at most 16 program units (rules R6, R208). -/
theorem unitCount_le (p : Params) : unitCount p ≤ 16 := Nat.div_le_self 16 p.wblk

theorem eraseStepsLeft_le (p : EraseStep) : eraseStepsLeft p ≤ 7 := by
  cases p <;> simp only [eraseStepsLeft] <;> omega

theorem programStepsLeft_le (units : Nat) (p : ProgStep) : programStepsLeft units p ≤ 7 + 3 * units := by
  cases p <;> simp only [programStepsLeft] <;> omega

/-- No place of a store command is more than 172 steps from its end. -/
theorem stepsLeft_le {units : Nat} (hu : units ≤ 16) (op : StoreOp) : stepsLeft units op ≤ 172 := by
  cases op with
  | restoreErase i p ok found =>
    have := eraseStepsLeft_le p
    simp only [stepsLeft, nPages]
    omega
  | eraseAll i p ok =>
    have := eraseStepsLeft_le p
    simp only [stepsLeft, nPages]
    omega
  | saveProgram p =>
    have := programStepsLeft_le units p
    simp only [stepsLeft]
    omega
  | _ => simp only [stepsLeft, nPages]; omega

/-! ### Every step of the sequencer comes closer to the end -/

/-- A step of `EraseSeq` with the controller at rest. -/
theorem eraseSeqStep_advances {s : State} (hb : s.flash.busy = false) (i : Nat) (f : EraseStep → StoreOp)
    {p : EraseStep} (hnd : ∀ e, p ≠ .done e) :
    ∃ q, (eraseSeqStep i f p s).store.op = f q ∧
      eraseStepsLeft q + (decide (q = .poll)).toNat < eraseStepsLeft p := by
  cases p with
  | unlock => exact ⟨.clearErr, rfl, by decide⟩
  | clearErr => exact ⟨.erase, rfl, by decide⟩
  | erase => exact ⟨.poll, rfl, by decide⟩
  | poll =>
    refine ⟨.lock (!s.flash.err), ?_, Nat.lt_succ_self 2⟩
    rw [eraseSeqStep, hb]
    rfl
  | lock ok => exact ⟨.done ok, rfl, Nat.lt_succ_self 1⟩
  | done e => exact absurd rfl (hnd e)

/-- A step of `ProgramSeq` with the controller at rest. -/
theorem programSeqStep_advances {s : State} (hb : s.flash.busy = false) (pos off : Nat) (buf : List Byte)
    {p : ProgStep} (hnd : ∀ e, p ≠ .done e) :
    ∃ q, (programSeqStep pos off buf .saveProgram p s).store.op = .saveProgram q ∧
      programStepsLeft (unitCount s.params) q + (polls (.saveProgram q)).toNat <
        programStepsLeft (unitCount s.params) p := by
  cases p with
  | unlock => exact ⟨.clearErr, rfl, by simp [programStepsLeft, polls]⟩
  | clearErr =>
    refine ⟨.prog 0, rfl, ?_⟩
    simp only [programStepsLeft, polls, Bool.toNat_false]
    omega
  | prog u =>
    refine ⟨.poll u, rfl, ?_⟩
    simp only [programStepsLeft, polls, Bool.toNat_true]
    omega
  | poll u =>
    have hend : 2 < 3 + 3 * (unitCount s.params - (u + 1)) := by omega
    rw [programSeqStep, hb, if_neg Bool.false_ne_true]
    split
    · exact ⟨.lock false, rfl, hend⟩
    · split
      · refine ⟨.prog (u + 1), rfl, ?_⟩
        simp only [programStepsLeft, polls, Bool.toNat_false]
        omega
      · exact ⟨.lock true, rfl, hend⟩
  | lock ok => exact ⟨.done ok, rfl, Nat.lt_succ_self 1⟩
  | done e => exact absurd rfl (hnd e)

/-- The store polls inside an erase exactly at the poll of `EraseSeq` (rule R209). -/
theorem polls_restoreErase (i : Nat) (q : EraseStep) (ok found : Bool) :
    polls (.restoreErase i q ok found) = decide (q = .poll) := by
  cases q <;> rfl

theorem polls_eraseAll (i : Nat) (q : EraseStep) (ok : Bool) : polls (.eraseAll i q ok) = decide (q = .poll) := by
  cases q <;> rfl

/-- Where step 2 of RESTORE_CONFIG leads (rule R163). -/
theorem restoreFindStep_op (s : State) : ∃ found, (restoreFindStep s).store.op = .restoreReclaim 0 true found := by
  unfold restoreFindStep
  split
  · exact ⟨false, rfl⟩
  · exact ⟨true, rfl⟩

/-- Where a turn of step 3's loop leads (rule R165). -/
theorem restoreReclaimStep_op (i : Nat) (ok found : Bool) (s : State) :
    (i < nPages ∧ ((restoreReclaimStep i ok found s).store.op = .restoreErase i .unlock ok found ∨
      (restoreReclaimStep i ok found s).store.op = .restoreReclaim (i + 1) ok found)) ∨
    (restoreReclaimStep i ok found s).store.op = .restoreSnapshot ok found := by
  unfold restoreReclaimStep
  split
  · rename_i hi
    split
    · exact .inl ⟨hi, .inl rfl⟩
    · exact .inl ⟨hi, .inr rfl⟩
  · exact .inr rfl

/-- Where an erase of step 3 leads (rule R165). -/
theorem reclaimed_op (i : Nat) (erased ok found : Bool) (s : State) :
    (reclaimed i erased ok found s).store.op = .restoreReclaim (i + 1) (ok && erased) found := by
  cases erased <;> rfl

/-- Where step 4 leads (rule R166). -/
theorem restoreSnapshotStep_op (ok found : Bool) (s : State) :
    (∃ o, (restoreSnapshotStep ok found s).store.op = .restoreCopy o 0 ok) ∨
      (restoreSnapshotStep ok found s).store.op = .restoreFinish ok := by
  cases found
  · exact .inr rfl
  · exact .inl ⟨_, rfl⟩

/-- Where a step of the copy leads (rule R168). -/
theorem restoreCopyStep_op {snapshot n : Nat} {ok : Bool} {s t : State}
    (h : restoreCopyStep snapshot n ok s = .next t) :
    (n + 1 < 6 ∧ t.store.op = .restoreCopy snapshot (n + 1) ok) ∨ t.store.op = .restoreValidate ok := by
  unfold restoreCopyStep at h
  split at h
  · split at h
    · cases h
      simp only [setOp_store_op]
      split
      · rename_i hn
        exact .inl ⟨hn, rfl⟩
      · exact .inr rfl
    · cases h
  · cases h
    exact .inr rfl

/-- Where step 2 of SAVE_CONFIG leads (rule R173). -/
theorem savePlaceStep_op (s : State) :
    (savePlaceStep s).store.op = .idle ∨ (savePlaceStep s).store.op = .saveHeader := by
  unfold savePlaceStep
  split
  · split
    · exact .inl rfl
    · exact .inr rfl
  · exact .inr rfl

/-- Where a read of step 3 leads (rule R174). -/
theorem saveReadStep_op (n : Nat) (s : State) :
    (n + 1 < 6 ∧ (saveReadStep n s).store.op = .saveRead (n + 1)) ∨ (saveReadStep n s).store.op = .savePad := by
  unfold saveReadStep
  split
  · simp only [setOp_store_op]
    split
    · rename_i hn
      exact .inl ⟨hn, rfl⟩
    · exact .inr rfl
  · exact .inr rfl

/-- Where an erase of ERASE_CONFIG leads (rule R178). -/
theorem pageErased_op (i : Nat) (erased ok : Bool) (s : State) :
    (i + 1 < nPages ∧ (pageErased i erased ok s).store.op = .eraseAll (i + 1) .unlock (ok && erased)) ∨
      (pageErased i erased ok s).store.op = .eraseFinish (ok && erased) := by
  have hop : (pageErased i erased ok s).store.op =
      if i + 1 < nPages then .eraseAll (i + 1) .unlock (ok && erased) else .eraseFinish (ok && erased) := by
    cases erased <;> rfl
  rw [hop]
  split
  · rename_i hi
    exact .inl ⟨hi, rfl⟩
  · exact .inr rfl

/-- A save's book-keeping ends it (rule R175). -/
theorem saveProgramDone_op (ok : Bool) (s : State) : (saveProgramDone ok s).store.op = .idle := by
  cases ok <;> rfl

/-- With the controller at rest a step of the store command in flight ends it or comes closer to its end. -/
theorem storeStep_advances {s v : State} (hs : storeStep s = .next v) (hb : s.flash.busy = false)
    (hop : s.store.op ≠ .idle) :
    v.store.op = .idle ∨ stepsLeftBusy (unitCount s.params) v.store.op < stepsLeft (unitCount s.params) s.store.op := by
  cases ho : s.store.op with
  | idle => exact absurd ho hop
  | restoreFind =>
    cases hs.symm.trans (by rw [storeStep, ho])
    obtain ⟨found, hv⟩ := restoreFindStep_op s
    rw [hv]
    exact .inr (Nat.lt_succ_self _)
  | restoreReclaim i ok found =>
    cases hs.symm.trans (by rw [storeStep, ho])
    right
    rcases restoreReclaimStep_op i ok found s with ⟨hi, hv | hv⟩ | hv <;> rw [hv] <;>
      simp only [stepsLeftBusy, stepsLeft, eraseStepsLeft, polls, Bool.toNat_false] <;> omega
  | restoreErase i p ok found =>
    right
    by_cases hnd : ∀ e, p ≠ .done e
    · obtain ⟨q, hv, hlt⟩ := eraseSeqStep_advances hb i (fun q => .restoreErase i q ok found) hnd
      cases hs.symm.trans (storeStep_restoreErase ho hnd)
      rw [hv, stepsLeftBusy, polls_restoreErase]
      simp only [stepsLeft]
      omega
    · push Not at hnd
      obtain ⟨erased, rfl⟩ := hnd
      cases hs.symm.trans (by rw [storeStep, ho])
      rw [reclaimed_op]
      simp only [stepsLeftBusy, stepsLeft, eraseStepsLeft, polls, Bool.toNat_false]
      omega
  | restoreSnapshot ok found =>
    rw [storeStep, ho] at hs
    simp only [hb, Bool.false_eq_true, if_false] at hs
    cases hs
    right
    rcases restoreSnapshotStep_op ok found s with ⟨o, hv⟩ | hv <;> rw [hv]
    · exact Nat.lt_succ_self 9
    · exact (show 1 < 10 by decide)
  | restoreCopy snapshot n ok =>
    rw [storeStep, ho] at hs
    right
    rcases restoreCopyStep_op hs with ⟨hn, hv⟩ | hv <;> rw [hv] <;>
      simp only [stepsLeftBusy, stepsLeft, polls, Bool.toNat_false] <;> omega
  | restoreValidate ok =>
    cases hs.symm.trans (by rw [storeStep, ho])
    exact .inr (Nat.lt_succ_self 1)
  | restoreFinish ok =>
    cases hs.symm.trans (by rw [storeStep, ho])
    exact .inl rfl
  | savePlace =>
    cases hs.symm.trans (by rw [storeStep, ho])
    refine (savePlaceStep_op s).imp id (fun hv => ?_)
    rw [hv]
    exact Nat.add_lt_add_right (Nat.lt_succ_self 16) _
  | saveHeader =>
    cases hs.symm.trans (by rw [storeStep, ho])
    right
    simp only [saveHeaderStep, stepsLeftBusy, stepsLeft, polls, Bool.toNat_false]
    omega
  | saveRead n =>
    cases hs.symm.trans (by rw [storeStep, ho])
    right
    rcases saveReadStep_op n s with ⟨hn, hv⟩ | hv <;> rw [hv] <;>
      simp only [stepsLeftBusy, stepsLeft, polls, Bool.toNat_false] <;> omega
  | savePad =>
    cases hs.symm.trans (by rw [storeStep, ho])
    exact .inr (Nat.add_lt_add_right (Nat.lt_succ_self 7) _)
  | saveProgram p =>
    by_cases hnd : ∀ e, p ≠ .done e
    · obtain ⟨q, hv, hlt⟩ := programSeqStep_advances hb s.store.curPage.val s.store.nextOffset (s.store.buf.getD []) hnd
      cases hs.symm.trans (storeStep_saveProgram ho hnd)
      rw [hv]
      exact .inr hlt
    · push Not at hnd
      obtain ⟨ok, rfl⟩ := hnd
      cases hs.symm.trans (by rw [storeStep, ho])
      exact .inl (saveProgramDone_op ok s)
  | eraseAll i p ok =>
    right
    by_cases hnd : ∀ e, p ≠ .done e
    · obtain ⟨q, hv, hlt⟩ := eraseSeqStep_advances hb i (fun q => .eraseAll i q ok) hnd
      cases hs.symm.trans (storeStep_eraseAll ho hnd)
      rw [hv, stepsLeftBusy, polls_eraseAll]
      simp only [stepsLeft]
      omega
    · push Not at hnd
      obtain ⟨erased, rfl⟩ := hnd
      cases hs.symm.trans (by rw [storeStep, ho])
      rcases pageErased_op i erased ok s with ⟨hi, hv⟩ | hv <;> rw [hv] <;>
        simp only [stepsLeftBusy, stepsLeft, eraseStepsLeft, polls, Bool.toNat_false] <;> omega
  | eraseFinish ok =>
    cases hs.symm.trans (by rw [storeStep, ho])
    exact .inl rfl

/-! ### An undisturbed run -/

/-- With nothing scheduled and the controller at rest, a step is the machine step of the store. -/
theorem step_of_driven {s t : State} (hp : s.params.wellFormed = true) (hv : s.fop.valid = false)
    (he : s.env.events = []) (hb : s.flash.busy = false) (hd : Driven (endPulse s) t) : step s = .next t := by
  obtain ⟨hrun, hsettled⟩ := step_unscheduled hp hv he hb
  cases hd with
  | plain hs hv' => exact hsettled _ (drive_plain hs hv')
  | issued v i hs hv' hd' he' => exact (hrun i _ (drive_issue hs hv' hd')).trans he'

/-- The controller is busy only where the store polls, so the steps left are at most those of the place. -/
theorem remaining_le {s : State} (h : MachineInv s) : remaining s ≤ stepsLeftBusy (unitCount s.params) s.store.op := by
  unfold remaining stepsLeftBusy
  cases hb : s.flash.busy with
  | false => exact Nat.le_add_right _ _
  | true => rw [busy_polls h hb]

/-- With nothing scheduled a machine whose store command is in flight takes a step, which ends the command with
`cmd_done` or leaves fewer steps (rules R206, R235). -/
theorem undisturbed_step {s : State} (h : MachineInv s) (hop : s.store.op ≠ .idle) (he : s.env.events = []) :
    ∃ t, step s = .next t ∧ MachineInv t ∧ t.env.events = [] ∧
      ((t.store.op = .idle ∧ t.cmd.done = true) ∨ (t.store.op ≠ .idle ∧ remaining t < remaining s)) := by
  cases hb : s.flash.busy with
  | true =>
    have hstep := step_settles h.params h.port he hb
    have hinv := invariantKept s _ h hstep
    obtain ⟨mem, err, e, hf, hevents, -⟩ := flashSettle_spec (endPulse s)
    rw [hf] at hstep hinv
    refine ⟨_, hstep, hinv, hevents.trans he, .inr ⟨hop, ?_⟩⟩
    unfold remaining
    rw [hb]
    exact Nat.lt_succ_self _
  | false =>
    obtain ⟨t, hd, hinv⟩ := driven_kept (takeEvent_inv h [])
    rw [takeEvent_nil he] at hd
    obtain ⟨ht, -, hevents, -, v, hs, hstore, hcmd⟩ := driven_frame hd
    refine ⟨t, step_of_driven h.params h.port he hb hd, hinv, hevents.trans he, ?_⟩
    by_cases hidle : t.store.op = .idle
    · left
      rw [hcmd]
      exact ⟨hidle, (storeStep_frame hs).ended hop (by rw [← hstore]; exact hidle)⟩
    · right
      have hlt := (storeStep_advances hs hb hop).resolve_left (by rw [← hstore]; exact hidle)
      have hparams : t.params = s.params := by rw [ht]; rfl
      have hle := remaining_le hinv
      rw [hparams, hstore] at hle
      exact ⟨hidle, lt_of_le_of_lt hle (lt_of_lt_of_le hlt (Nat.le_add_right _ _))⟩

/-- A machine with at most `n` steps left ends its command within `n + 1`. -/
theorem completes_within (n : Nat) {s : State} (h : MachineInv s) (hop : s.store.op ≠ .idle)
    (he : s.env.events = []) (hn : remaining s ≤ n) :
    ∃ m t, m ≤ n + 1 ∧ run m s = .next t ∧ t.store.op = .idle ∧ t.cmd.done = true := by
  induction n generalizing s with
  | zero =>
    obtain ⟨t, hstep, -, -, ⟨hidle, hdone⟩ | ⟨-, hlt⟩⟩ := undisturbed_step h hop he
    · exact ⟨1, t, Nat.le_refl _, run_succ 0 hstep, hidle, hdone⟩
    · omega
  | succ n ih =>
    obtain ⟨t, hstep, hinv, hevents, ⟨hidle, hdone⟩ | ⟨hop', hlt⟩⟩ := undisturbed_step h hop he
    · exact ⟨1, t, by omega, run_succ 0 hstep, hidle, hdone⟩
    · obtain ⟨m, u, hm, hrun, hend⟩ := ih hinv hop' hevents (by omega)
      exact ⟨m + 1, u, by omega, (run_succ m hstep).trans hrun, hend⟩

/-- Emptying the schedule keeps the invariant. -/
theorem undisturbed_inv {s : State} (h : MachineInv s) : MachineInv (undisturbed s) :=
  inv_mk h rfl rfl rfl rfl h.offset h.indices h.modes h.lock h.job h.memory h.status h.port h.place

/-- Settles O45: every undisturbed step leaves fewer steps, and there are at most 172 from any place, 173 where the
controller is still busy. -/
theorem storeCommandCompletes : Obligations.StoreCommandCompletes := by
  intro s h hop
  have hleft : remaining (undisturbed s) ≤ 173 :=
    Nat.add_le_add (stepsLeft_le (unitCount_le s.params) s.store.op) (Bool.toNat_le _)
  obtain ⟨m, t, hm, hrun⟩ := completes_within 173 (undisturbed_inv h) hop rfl hleft
  exact ⟨m, t, by omega, hrun⟩

end Sys2Proof.Proofs
end

section
/-! The encoding family, part 1: the words of both ports, what a step takes from them, and where a command is taken
(30_encoding.md R60 to R65, R70; 45_tick.md R155; 70_reset_and_hazards.md R252, R262). -/

namespace Sys2Proof.Proofs

open Sys2Proof.Machine Sys2Proof.Config Sys2Proof.Laws

/-! ### Decoding and encoding -/

/-- The decoder reads every instruction from its own word (rules R60, R61, R65). -/
theorem decode_encode (i : Instr) : decode (encode i) = .ok i := by
  cases i with
  | tick => exact EncodingRoundTrip.tick.1
  | restoreConfig => exact EncodingRoundTrip.restoreConfig.1
  | scheduleSave => exact EncodingRoundTrip.scheduleSave.1
  | saveConfig force => exact (EncodingRoundTrip.saveConfig force).1
  | eraseConfig => exact EncodingRoundTrip.eraseConfig.1
  | flUnlock => exact EncodingRoundTrip.flUnlock.1
  | flClrerr => exact EncodingRoundTrip.flClrerr.1
  | flProg => exact EncodingRoundTrip.flProg.1
  | flErase => exact EncodingRoundTrip.flErase.1
  | flLock => exact EncodingRoundTrip.flLock.1

/-- A command word that is decoded is its instruction's word: no two words are the same command (rule R61). -/
theorem encode_of_decode_cmd {w : BitVec 4} {i : Instr} (h : decode (.cmd w) = .ok i) : encode i = .cmd w := by
  rcases decode_cmd h with rfl | rfl | rfl | ⟨force, rfl⟩ | rfl
  case inr.inr.inr.inl => revert w force; decide
  all_goals revert w; decide

/-- A flash-operation word that is decoded is its instruction's word (rule R65). -/
theorem encode_of_decode_fop {w : BitVec 3} {i : Instr} (h : decode (.fop w) = .ok i) : encode i = .fop w := by
  rcases decode_fop h with rfl | rfl | rfl | rfl | rfl <;> revert w <;> decide

/-- Settles O1: the decoder is a left and a right inverse of the encoder. -/
theorem decodeEncodeAgree : Obligations.DecodeEncodeAgree := by
  intro w i
  constructor
  · intro h
    cases w with
    | cmd w => exact encode_of_decode_cmd h
    | fop w => exact encode_of_decode_fop h
  · rintro rfl
    exact decode_encode i

/-- Settles O2: the five words are the encoder's. -/
theorem tableWordsDecode : Obligations.TableWordsDecode :=
  ⟨decode_encode .tick, decode_encode (.saveConfig true), decode_encode .eraseConfig, decode_encode .flProg,
    decode_encode .flLock⟩

/-! ### The reserved words -/

/-- An operation without force is rejected exactly where the force flag is set (rule R64). -/
theorem withoutForce_rejects_iff (w : BitVec 4) (i : Instr) :
    (∃ e, withoutForce w i = .error e) ↔ forceField w = true := by
  unfold withoutForce
  cases forceField w <;> simp

/-- The command words that are rejected (rule R64). -/
theorem decodeCommand_rejects_iff (w : BitVec 4) :
    (∃ e, decodeCommand w = .error e) ↔
      (5 ≤ (opField w).toNat ∨ (forceField w = true ∧ (opField w).toNat ≠ 3)) := by
  unfold decodeCommand
  generalize (opField w).toNat = op
  match op with
  | 0 | 1 | 2 | 4 => simpa using withoutForce_rejects_iff w _
  | 3 => simp
  | op + 5 => simp

/-- The flash-operation words that are rejected (rule R64). -/
theorem decodeFlashOperation_rejects_iff (w : BitVec 3) :
    (∃ e, decodeFlashOperation w = .error e) ↔ 5 ≤ w.toNat := by
  unfold decodeFlashOperation
  generalize w.toNat = op
  match op with
  | 0 | 1 | 2 | 3 | 4 => simp
  | op + 5 => simp

/-! ### What the start of a step finds -/

/-- A step runs the instruction that `fetch` finds. -/
theorem step_of_run {s u : State} {i : Instr} (h : fetch (endPulse s) = .run i u) : step s = exec i u := by
  unfold step
  rw [h]

/-- A step answers the outcome that `fetch` finds without an instruction. -/
theorem step_of_settled {s : State} {r : Result} (h : fetch (endPulse s) = .settled r) : step s = r := by
  unfold step
  rw [h]

/-- With the flash-operation port empty the next scheduled event is taken (rule R235). -/
theorem fetch_event {s : State} {e : Event} {rest : List Event} (hp : s.params.wellFormed = true)
    (hv : s.fop.valid = false) (he : s.env.events = e :: rest) :
    fetch (endPulse s) = fetchEvent (takeEvent rest s) e := by
  unfold fetch
  rw [if_neg (show ¬¬(endPulse s).params.wellFormed = true by simp [hp]),
    if_neg (show ¬(endPulse s).fop.valid = true by simp [hv]), show (endPulse s).env.events = e :: rest from he]
  rfl

/-- A word on the flash-operation port is met first (log entry 26). -/
theorem fetch_flashPort {s : State} (hp : s.params.wellFormed = true) (hv : s.fop.valid = true) :
    fetch (endPulse s) = fetchFlashPort (endPulse s) := by
  unfold fetch
  rw [if_neg (show ¬¬(endPulse s).params.wellFormed = true by simp [hp]),
    if_pos (show (endPulse s).fop.valid = true from hv)]

theorem fetchCommandPort_ok {w : BitVec 4} {i : Instr} (h : decode (.cmd w) = .ok i) (port : Inputs) (s : State) :
    fetchCommandPort w port s = .run i (takeCommand i port s) := by
  simp only [fetchCommandPort, h, takeCommand]

theorem fetchCommandPort_error {w : BitVec 4} {e : DecodeError} (h : decode (.cmd w) = .error e) (port : Inputs)
    (s : State) : fetchCommandPort w port s = .settled (.refused .reservedCommandWord) := by
  simp only [fetchCommandPort, h]

theorem fetchFlashPort_ok {s : State} {i : Instr} (h : decode (.fop s.fop.word) = .ok i) :
    fetchFlashPort s = .run i (takeFop s) := by
  simp only [fetchFlashPort, h, takeFop]

theorem fetchFlashPort_error {s : State} {e : DecodeError} (h : decode (.fop s.fop.word) = .error e) :
    fetchFlashPort s = .settled (.refused .reservedFlashWord) := by
  simp only [fetchFlashPort, h]

/-- A step runs the command word presented to it, on the inputs that command samples (rules R60, R63). -/
theorem step_command {s : State} {w : BitVec 4} {port : Inputs} {rest : List Event} {i : Instr}
    (hp : s.params.wellFormed = true) (hv : s.fop.valid = false) (he : s.env.events = .command w port :: rest)
    (hd : decode (.cmd w) = .ok i) : step s = exec i (takeCommand i port (takeEvent rest s)) :=
  step_of_run ((fetch_event hp hv he).trans (fetchCommandPort_ok hd port _))

/-- Settles O3. -/
theorem stepRunsCommandWord : Obligations.StepRunsCommandWord :=
  fun _ _ _ _ _ hp hv he hd _ => step_command hp hv he hd

/-- Settles O4: the arms of `sampleInputs`. -/
theorem commandsSampleTheirInputs : Obligations.CommandsSampleTheirInputs :=
  fun _ _ _ => ⟨rfl, rfl, rfl, rfl, rfl⟩

/-- Settles O5. -/
theorem stepRunsFlashWord : Obligations.StepRunsFlashWord :=
  fun _ _ hp hv hd _ => step_of_run ((fetch_flashPort hp hv).trans (fetchFlashPort_ok hd))

/-- Settles O7: the decoders reject exactly the reserved words, and `fetch` refuses what they reject. -/
theorem reservedWordsRefused : Obligations.ReservedWordsRefused := by
  refine ⟨decodeCommand_rejects_iff, decodeFlashOperation_rejects_iff, ?_, ?_⟩
  · intro s w port rest hp hv he hw
    obtain ⟨e, hd⟩ := (decodeCommand_rejects_iff w).mpr hw
    exact step_of_settled ((fetch_event hp hv he).trans (fetchCommandPort_error hd port _))
  · intro s hp hv hw
    obtain ⟨e, hd⟩ := (decodeFlashOperation_rejects_iff s.fop.word).mpr hw
    exact step_of_settled ((fetch_flashPort hp hv).trans (fetchFlashPort_error hd))

/-! ### Where a command is taken and where it is refused -/

/-- Settles O8: `tickAdmitted` guards the TICK. -/
theorem tickRunsExactlyWhenAllowed : Obligations.TickRunsExactlyWhenAllowed := by
  intro s
  constructor
  · rintro ⟨t, h⟩
    exact (tickAdmitted_iff s).mp ((execTick_next_iff s t).mp h).1
  · intro h
    exact ⟨_, exec_tick h⟩

/-- A sample above full scale takes the inputs out of range (rule R70). -/
theorem inputs_outOfRange {i : Inputs} (h : ∃ n : Fin 10, 4095 < i.adc[n].toNat) : ¬i.wellFormed = true := by
  obtain ⟨n, hn⟩ := h
  unfold Inputs.wellFormed
  rw [forall_toList]
  intro hall
  have hle : i.adc[n].toNat ≤ 4095 := of_decide_eq_true (hall n)
  omega

/-- The three refusals of a TICK that a run can meet (rules R70, R155, R252), in the order of its checks. -/
theorem execTick_refused (s : State) :
    (s.store.op.isRestore = true → execTick s = .refused .tickDuringRestore) ∧
    (s.store.op.isRestore = false → s.store.metaValid = false → execTick s = .refused .beforeMetadata) ∧
    (s.store.op.isRestore = false → s.store.metaValid = true → ¬s.inputs.wellFormed = true →
      execTick s = .refused .sampleOutOfRange) := by
  unfold execTick
  refine ⟨fun hr => ?_, fun hr hm => ?_, fun hr hm hi => ?_⟩
  · rw [if_pos hr]
  · simp [hr, hm]
  · simp [hr, hm, hi]

/-- One store command at a time (rule R262). -/
theorem storeCommand_refused {s : State} (h : s.store.op ≠ .idle) (force : Bool) :
    execRestoreConfig s = .refused .storeCommandInFlight ∧
    execSaveConfig force s = .refused .storeCommandInFlight ∧ execEraseConfig s = .refused .storeCommandInFlight :=
  ⟨if_pos h, if_pos h, if_pos h⟩

/-- A save needs the metadata (rule R252). -/
theorem execSaveConfig_beforeMetadata {s : State} (h : s.store.op = .idle) (hm : s.store.metaValid = false)
    (force : Bool) : execSaveConfig force s = .refused .beforeMetadata := by
  simp [execSaveConfig, h, hm]

/-- A busy flash is not read (rule R42). -/
theorem execRestoreConfig_busy {s : State} (h : s.store.op = .idle) (hb : s.flash.busy = true) :
    execRestoreConfig s = .fault .flashReadWhileBusy := by
  unfold execRestoreConfig
  rw [if_neg (not_not.mpr h), if_pos hb]

/-- Settles O51, each clause by the check of the command that answers it. -/
theorem commandsRefused : Obligations.CommandsRefused := by
  intro s force
  obtain ⟨hrestore, hmeta, hsample⟩ := execTick_refused s
  exact ⟨hrestore, hmeta, fun hr hm hi => hsample hr hm (inputs_outOfRange hi), fun h => storeCommand_refused h force,
    fun h hm => execSaveConfig_beforeMetadata h hm force, fun h hb => execRestoreConfig_busy h hb⟩

end Sys2Proof.Proofs
end

section
/-! The encoding family, part 2: the completion pulse (30_encoding.md R62; 46_config_store.md R172; 10_state.md R29). -/

namespace Sys2Proof.Proofs

open Sys2Proof.Machine Sys2Proof.Config Sys2Proof.Laws

/-! ### When `cmd_done` is high -/

/-- A state in which `cmd_done` is high exactly if `ended` holds, and in that case no store command is left. -/
def PulsesIff (ended : Prop) (t : State) : Prop :=
  (t.cmd.done = true ↔ ended) ∧ (t.cmd.done = true → t.store.op = .idle ∧ t.store.buf = none)

theorem pulsesIff_low {ended : Prop} {t : State} (hlow : t.cmd.done = false) (h : ¬ended) : PulsesIff ended t := by
  have hd : ¬t.cmd.done = true := by rw [hlow]; exact Bool.false_ne_true
  exact ⟨iff_of_false hd h, fun e => absurd e hd⟩

theorem pulsesIff_high {ended : Prop} {t : State} (h : ended)
    (hhigh : t.cmd.done = true ∧ t.store.op = .idle ∧ t.store.buf = none) : PulsesIff ended t :=
  ⟨iff_of_true hhigh.1 h, fun _ => hhigh.2⟩

/-- The step from `s` to `t` ends a store command (rules R62, R172). -/
def EndsCommand (s t : State) : Prop :=
  (s.store.op ≠ .idle ∧ t.store.op = .idle ∧ ¬resetNext s) ∨ idleSaveNext s

/-- A step that is no save to be ended at once and leaves the place of the store command ends none. -/
theorem not_endsCommand_of_op_eq {s t : State} (hop : t.store.op = s.store.op) (hsave : ¬idleSaveNext s) :
    ¬EndsCommand s t := by
  rintro (⟨hbusy, hidle, -⟩ | h)
  · exact hbusy (hop.symm.trans hidle)
  · exact hsave h

/-- Where no store command is in flight, only a save for which nothing is due ends one. -/
theorem endsCommand_iff_of_idle {s t : State} (hop : s.store.op = .idle) : EndsCommand s t ↔ idleSaveNext s :=
  or_iff_right (fun h => h.1 hop)

/-- An occupied flash-operation port goes before any save (log entry 26). -/
theorem not_idleSaveNext_of_fop {s : State} (hv : s.fop.valid = true) : ¬idleSaveNext s :=
  fun h => absurd (hv.symm.trans h.1) (by decide)

/-- What a schedule that is empty or begins with another event does not begin with. -/
theorem head_ne_of_events {es rest : List Event} {e e' : Event} {p : Prop} (h : es = e :: rest ∨ (es = [] ∧ p))
    (hne : e ≠ e') : es.head? ≠ some e' := by
  rcases h with rfl | ⟨rfl, -⟩
  · simpa using hne
  · simp

/-- The next thing to happen is a save only if a command is scheduled. -/
theorem not_idleSaveNext_of_events {s : State} (h : ∀ w port, s.env.events.head? ≠ some (.command w port)) :
    ¬idleSaveNext s := by
  rintro ⟨-, port, he, -⟩
  exact h _ port he

/-! ### The commands -/

/-- The trigger of an unforced save (rule R172). -/
theorem saveDue_false_iff (now : Word32) (st : Store) :
    saveDue false now st = true ↔ (st.pending = true ∧ 60000 ≤ (now - st.anchor).toNat) := by
  unfold saveDue elapsed
  rw [Bool.false_or, Bool.and_eq_true, decide_eq_true_eq]

/-- A presented command is a save to be ended at once exactly if it is unforced and nothing is due (rule R172). -/
theorem idleSaveNext_command {s : State} {w : BitVec 4} {port : Inputs} {rest : List Event} {i : Instr}
    (hv : s.fop.valid = false) (he : s.env.events = .command w port :: rest) (hd : decode (.cmd w) = .ok i) :
    idleSaveNext s ↔ i = .saveConfig false ∧ saveDue false port.msNow s.store = false := by
  have hword : w = 0b0011#4 ↔ i = .saveConfig false := by
    constructor
    · rintro rfl
      exact (Except.ok.inj hd).symm
    · rintro rfl
      exact (PortWord.cmd.inj (encode_of_decode_cmd hd)).symm
  rw [← hword, ← Bool.not_eq_true, saveDue_false_iff]
  unfold idleSaveNext
  rw [he]
  constructor
  · rintro ⟨-, _, hhead, hdue⟩
    cases hhead
    exact ⟨rfl, hdue⟩
  · rintro ⟨rfl, hdue⟩
    exact ⟨hv, port, rfl, hdue⟩

/-- TICK answers 1 and does not pulse (rule R62; log entry 11). -/
theorem tick_cmd {s t : State} (h : exec .tick s = .next t) : t.cmd = ⟨s.cmd.done, true⟩ := by
  obtain ⟨-, rfl⟩ := (execTick_next_iff s t).mp h
  obtain ⟨p, -, hb⟩ := beforeLfos_spec s
  obtain ⟨l, c, o, ht, -⟩ := lfoPhase_frame (beforeLfos s)
  rw [tickEngine_eq, ht, hb]

/-- The only command that ends at once is a save for which nothing is due (rule R172). -/
theorem command_pulse {s t : State} {w : BitVec 4} {port : Inputs} {rest : List Event} {i : Instr}
    (hv : s.fop.valid = false) (hs : s.env.events = .command w port :: rest) (hd : decode (.cmd w) = .ok i)
    (he : exec i (takeCommand i port (takeEvent rest s)) = .next t) : PulsesIff (EndsCommand s t) t := by
  have hsave := idleSaveNext_command hv hs hd
  have hnot : i ≠ .saveConfig false → ¬idleSaveNext s := fun hi h => hi (hsave.mp h).1
  rcases decode_cmd hd with rfl | rfl | rfl | ⟨force, rfl⟩ | rfl
  · obtain ⟨pending, anchor, -, hstore, -⟩ := tick_frame he
    exact pulsesIff_low (by rw [tick_cmd he]; rfl)
      (not_endsCommand_of_op_eq (by rw [hstore]; rfl) (hnot Instr.noConfusion))
  · obtain ⟨hop, -, rfl⟩ := (execRestoreConfig_next_iff _ t).mp he
    exact pulsesIff_low rfl (mt (endsCommand_iff_of_idle (s := s) hop).mp (hnot Instr.noConfusion))
  · cases he
    exact pulsesIff_low rfl (not_endsCommand_of_op_eq rfl (hnot Instr.noConfusion))
  · obtain ⟨hop, -, rfl⟩ := (execSaveConfig_next_iff force _ t).mp he
    have hidle : s.store.op = .idle := hop
    split
    · rename_i hdue
      refine pulsesIff_low rfl (fun h => ?_)
      obtain ⟨hf, hnone⟩ := hsave.mp ((endsCommand_iff_of_idle hidle).mp h)
      cases hf
      exact Bool.false_ne_true (hnone.symm.trans hdue)
    · rename_i hdue
      refine pulsesIff_high (.inr (hsave.mpr ?_)) ⟨rfl, rfl, rfl⟩
      cases force with
      | true => exact absurd rfl hdue
      | false => exact ⟨rfl, Bool.not_eq_true _ ▸ hdue⟩
  · obtain ⟨hop, rfl⟩ := (execEraseConfig_next_iff _ t).mp he
    exact pulsesIff_low rfl (mt (endsCommand_iff_of_idle (s := s) hop).mp (hnot Instr.noConfusion))

/-! ### The store -/

/-- A store step with no command in flight waits. -/
theorem storeStep_idle {s : State} (h : s.store.op = .idle) : storeStep s = .next s := by
  rw [storeStep, h]

/-- A machine step of the store pulses exactly if it ends the command in flight. -/
theorem driven_pulse {u t : State} (hlow : u.cmd.done = false) (hd : Driven u t) :
    PulsesIff (u.store.op ≠ .idle ∧ t.store.op = .idle) t := by
  obtain ⟨-, -, -, -, v, hs, hstore, hcmd⟩ := driven_frame hd
  by_cases hop : u.store.op = .idle
  · cases hs.symm.trans (storeStep_idle hop)
    exact pulsesIff_low (by rw [hcmd, hlow]) (fun h => h.1 hop)
  · have hf := storeStep_frame hs
    unfold PulsesIff
    rw [hstore, hcmd]
    have hgone : v.cmd.done = true → v.store.op = .idle ∧ v.store.buf = none := by
      rcases hf.done with hsame | ⟨-, hidle, hbuf⟩
      · intro h
        rw [hsame, hlow] at h
        cases h
      · exact fun _ => ⟨hidle, hbuf⟩
    exact ⟨⟨fun h => ⟨hop, (hgone h).1⟩, fun h => hf.ended hop h.2⟩, hgone⟩

/-- Settles O46, by what a step can do. -/
theorem completionPulses : Obligations.CompletionPulses := by
  intro s t hstep
  change PulsesIff (EndsCommand s t) t
  cases (step_cases hstep).2 with
  | flashWord i hv hd he =>
    obtain ⟨ht, -⟩ := exec_fop_frame hd he
    rw [ht]
    exact pulsesIff_low rfl (not_endsCommand_of_op_eq rfl (not_idleSaveNext_of_fop hv))
  | command w port rest i hv hs hd he => exact command_pulse hv hs hd he
  | store rest hv hs hd =>
    have hreset : ¬resetNext s := fun h => head_ne_of_events (e' := .reset) hs nofun h.2
    have hsave : ¬idleSaveNext s := not_idleSaveNext_of_events (fun _ _ => head_ne_of_events hs nofun)
    have hends : EndsCommand s t ↔ (s.store.op ≠ .idle ∧ t.store.op = .idle) := by
      unfold EndsCommand
      simp only [hreset, hsave, not_false_eq_true, and_true, or_false]
    rw [hends]
    exact driven_pulse (u := takeEvent rest s) rfl hd
  | settle rest hv hs ht =>
    have hsave : ¬idleSaveNext s := not_idleSaveNext_of_events (fun _ _ => head_ne_of_events hs nofun)
    obtain ⟨mem, err, e, hf, -⟩ := flashSettle_spec (takeEvent rest s)
    rw [ht, hf]
    exact pulsesIff_low rfl (not_endsCommand_of_op_eq rfl hsave)
  | reset rest hv hs ht =>
    have hsave : ¬idleSaveNext s :=
      not_idleSaveNext_of_events (fun _ _ => head_ne_of_events (p := False) (.inl hs) nofun)
    have hreset : resetNext s := ⟨hv, by rw [hs]; rfl⟩
    rw [ht]
    exact pulsesIff_low rfl (by rintro (⟨-, -, h⟩ | h); exacts [h hreset, hsave h])

end Sys2Proof.Proofs
end

section
/-! The encoding family, part 3: script lines, and the way from BOOT to the first TICK (30_encoding.md R72, R73;
70_reset_and_hazards.md R252, R253). -/

namespace Sys2Proof.Proofs

open Sys2Proof.Machine Sys2Proof.Config Sys2Proof.Laws

/-! ### Script lines -/

/-- Rescheduling the environment keeps the invariant. -/
theorem withEvents_inv {s : State} (h : MachineInv s) (es : List Event) : MachineInv (withEvents es s) :=
  inv_mk h rfl rfl rfl rfl h.offset h.indices h.modes h.lock h.job h.memory h.status h.port h.place

/-- With no store command in flight a line is at its end. -/
theorem finishStore_idle (n : Nat) {s : State} (h : s.store.op = .idle) : finishStore n s = .next s := by
  cases n with
  | zero => rfl
  | succ n => rw [finishStore, if_pos h]

/-- A line goes on with the next step of the command in flight. -/
theorem finishStore_step (n : Nat) {s t : State} (hop : s.store.op ≠ .idle) (h : step s = .next t) :
    finishStore (n + 1) s = finishStore n t := by
  rw [finishStore, if_neg hop, h]

/-- A line is its event's step and the rest of its command (rule R72). -/
theorem runLine_next {l : Line} {s t u : State} (hstep : step (withEvents [lineEvent l s] s) = .next t)
    (hfin : finishStore storeFuel t = .next u) : runLine l s = .next (withEvents s.env.events u) := by
  simp only [runLine, hstep, hfin]

/-- A script is its first line and the rest. -/
theorem runScript_cons {l : Line} (ls : List Line) {s t : State} (h : runLine l s = .next t) :
    runScript (l :: ls) s = runScript ls t := by
  rw [runScript.eq_def]
  simp only [h]

/-- A line's store command comes to its end with the invariant, and with whatever else its steps keep. -/
theorem finishStore_ends {P : State → Prop}
    (hP : ∀ s t, MachineInv s → s.store.op ≠ .idle → s.env.events = [] → step s = .next t → P s → P t)
    (n : Nat) {s : State} (h : MachineInv s) (hs : P s) (hop : s.store.op ≠ .idle) (he : s.env.events = [])
    (hn : remaining s < n) :
    ∃ t, finishStore n s = .next t ∧ MachineInv t ∧ P t ∧ t.store.op = .idle ∧ t.cmd.done = true := by
  induction n generalizing s with
  | zero => exact absurd hn (Nat.not_lt_zero _)
  | succ n ih =>
    obtain ⟨t, hstep, hinv, hevents, hend⟩ := undisturbed_step h hop he
    have ht := hP s t h hop he hstep hs
    have hfin := finishStore_step n hop hstep
    rcases hend with ⟨hidle, hdone⟩ | ⟨hop', hlt⟩
    · exact ⟨t, hfin.trans (finishStore_idle n hidle), hinv, ht, hidle, hdone⟩
    · obtain ⟨u, hrun, hu⟩ := ih hinv ht hop' hevents (by omega)
      exact ⟨u, hfin.trans hrun, hu⟩

/-- A script line has more steps than any place of a store command is from its end (log entry 19). -/
theorem remaining_lt_storeFuel (s : State) : remaining s < storeFuel :=
  lt_of_le_of_lt (Nat.add_le_add (stepsLeft_le (unitCount_le s.params) s.store.op) (Bool.toNat_le _)) (by decide)

/-! ### RESTORE_CONFIG leaves the metadata valid -/

/-- A RESTORE_CONFIG is in flight, or has come to its end and left the store metadata (rules R155, R160). -/
def RestoringOrRestored (s : State) : Prop :=
  s.store.op.isRestore = true ∨ (s.store.op = .idle ∧ s.store.metaValid = true)

/-- A step of `EraseSeq` stays in its sequence (rule R209). -/
theorem eraseSeqStep_op {s : State} (i : Nat) (f : EraseStep → StoreOp) {p : EraseStep} (ho : s.store.op = f p) :
    ∃ q, (eraseSeqStep i f p s).store.op = f q := by
  cases p with
  | unlock => exact ⟨.clearErr, rfl⟩
  | clearErr => exact ⟨.erase, rfl⟩
  | erase => exact ⟨.poll, rfl⟩
  | poll =>
    rw [eraseSeqStep]
    split
    · exact ⟨.poll, ho⟩
    · exact ⟨.lock (!s.flash.err), rfl⟩
  | lock ok => exact ⟨.done ok, rfl⟩
  | done ok => exact ⟨.done ok, ho⟩

/-- Each step of a RESTORE_CONFIG leads to the next, and the last makes the metadata valid (rules R160 to R169). -/
theorem storeStep_restoring {s v : State} (hs : storeStep s = .next v) (hr : s.store.op.isRestore = true) :
    RestoringOrRestored v := by
  cases ho : s.store.op with
  | restoreFind =>
    cases hs.symm.trans (by rw [storeStep, ho])
    obtain ⟨found, hv⟩ := restoreFindStep_op s
    exact .inl (by rw [hv]; rfl)
  | restoreReclaim i ok found =>
    cases hs.symm.trans (by rw [storeStep, ho])
    rcases restoreReclaimStep_op i ok found s with ⟨-, hv | hv⟩ | hv <;> exact .inl (by rw [hv]; rfl)
  | restoreErase i p ok found =>
    by_cases hnd : ∀ e, p ≠ .done e
    · cases hs.symm.trans (storeStep_restoreErase ho hnd)
      obtain ⟨q, hv⟩ := eraseSeqStep_op i (fun q => .restoreErase i q ok found) ho
      exact .inl (by rw [hv]; rfl)
    · push Not at hnd
      obtain ⟨erased, rfl⟩ := hnd
      cases hs.symm.trans (by rw [storeStep, ho])
      exact .inl (by rw [reclaimed_op]; rfl)
  | restoreSnapshot ok found =>
    rw [storeStep, ho] at hs
    simp only at hs
    split at hs
    · cases hs
    · cases hs
      rcases restoreSnapshotStep_op ok found s with ⟨o, hv⟩ | hv <;> exact .inl (by rw [hv]; rfl)
  | restoreCopy snapshot n ok =>
    rw [storeStep, ho] at hs
    rcases restoreCopyStep_op hs with ⟨-, hv⟩ | hv <;> exact .inl (by rw [hv]; rfl)
  | restoreValidate ok =>
    cases hs.symm.trans (by rw [storeStep, ho])
    exact .inl rfl
  | restoreFinish ok =>
    cases hs.symm.trans (by rw [storeStep, ho])
    exact .inr ⟨rfl, rfl⟩
  | _ =>
    rw [ho] at hr
    cases hr

/-- A step that finishes a RESTORE_CONFIG undisturbed leaves the metadata valid. -/
theorem step_restoring {s t : State} (h : MachineInv s) (he : s.env.events = []) (hstep : step s = .next t)
    (hr : s.store.op.isRestore = true) : RestoringOrRestored t := by
  cases (step_cases hstep).2 with
  | flashWord i hv hd _ => exact absurd (h.port.symm.trans hv) (by decide)
  | command w port rest i hv hs hd _ => cases he.symm.trans hs
  | store rest hv hs hd =>
    obtain ⟨-, -, -, -, v, hv', hstore, -⟩ := driven_frame hd
    have hend := storeStep_restoring hv' hr
    unfold RestoringOrRestored at hend ⊢
    rwa [hstore]
  | settle rest hv hs ht =>
    obtain ⟨mem, err, e, hf, -⟩ := flashSettle_spec (takeEvent rest s)
    rw [ht, hf]
    exact .inl hr
  | reset rest hv hs ht => cases he.symm.trans hs

/-! ### BOOT -/

/-- RESTORE_CONFIG is taken wherever no store command is in flight (rule R160). -/
theorem exec_restoreConfig_idle {s : State} (h : MachineInv s) (hop : s.store.op = .idle) :
    exec .restoreConfig s =
      .next { s with store := { s.store with pages := scanPages s.params s.flash.mem, op := .restoreFind } } := by
  obtain ⟨-, hjob, -⟩ := idle_facts h hop
  exact (execRestoreConfig_next_iff s _).mpr ⟨hop, by rw [Flash.busy, hjob]; rfl, rfl⟩

/-- A RESET line is the reset event (rules R72, R250). -/
theorem runLine_reset {s : State} (h : MachineInv s) : ∃ t, runLine .reset s = .next t ∧ MachineInv t ∧
    t.store.op = .idle := by
  have hs := withEvents_inv h [.reset]
  have hstep := step_reset hs.params hs.port (rest := []) rfl
  exact ⟨_, runLine_next hstep (finishStore_idle _ rfl), withEvents_inv (resetMachine_inv (takeEvent_inv hs [])) _, rfl⟩

/-- A RESTORE_CONFIG line ends with the metadata valid and the settings legal (rules R72, R160, R169). -/
theorem runLine_restoreConfig {s : State} (h : MachineInv s) (hop : s.store.op = .idle) :
    ∃ t, runLine .restoreConfig s = .next t ∧ t.store.op = .idle ∧ t.store.metaValid = true ∧ t.cmd.done = true ∧
      settingsLegal t.settings = true ∧ MachineInv t := by
  have hs := withEvents_inv h [lineEvent .restoreConfig s]
  have htaken := takeCommand_inv (takeEvent_inv hs []) .restoreConfig (lineInputs {} s)
  have hstep := (step_command hs.params hs.port (rest := []) rfl (decode_encode .restoreConfig)).trans
    (exec_restoreConfig_idle htaken hop)
  have hkept : ∀ u v, MachineInv u → u.store.op ≠ .idle → u.env.events = [] → step u = .next v →
      RestoringOrRestored u → RestoringOrRestored v :=
    fun u v hu hbusy he hnext hP => step_restoring hu he hnext (hP.resolve_right (fun e => hbusy e.1))
  obtain ⟨t, hfin, hinv, hend, hidle, hdone⟩ := finishStore_ends hkept _ (invariantKept _ _ hs hstep) (.inl rfl)
    StoreOp.noConfusion rfl (remaining_lt_storeFuel _)
  obtain ⟨-, -, -, hlegal⟩ := idle_facts hinv hidle
  obtain ⟨-, hmeta⟩ := hend.resolve_left (by rw [hidle]; exact Bool.false_ne_true)
  exact ⟨_, runLine_next hstep hfin, hidle, hmeta, hdone, hlegal, withEvents_inv hinv _⟩

/-- Settles O40: a reset line from any state of the invariant, then a restore line from an idle one. -/
theorem bootReachesTicking : Obligations.BootReachesTicking := by
  intro s h
  obtain ⟨t, hreset, hinv, hidle⟩ := runLine_reset h
  obtain ⟨u, hrestore, hu⟩ := runLine_restoreConfig hinv hidle
  exact ⟨u, (runScript_cons _ hreset).trans (runScript_cons _ hrestore), hu⟩

end Sys2Proof.Proofs
end

section
/-! The button family (40_buttons.md R82, R84; 44_routing.md R141, R142; 45_tick.md R151). -/

namespace Sys2Proof.Proofs

open Sys2Proof.Machine Sys2Proof.Config Sys2Proof.Laws

/-! ### The two guards of `Pressed` -/

/-- A confirmed press is reported and its time kept as `down` (rule R82). -/
theorem pressed_of_pressConfirmed {b : Button} {pinN : Bool} {now : Word32} (h : pressConfirmed b pinN now) :
    pressed b pinN now = (⟨now, b.up⟩, true) := by
  obtain ⟨hreport, hbutton⟩ := pressed_spec b pinN now
  have hrel : ¬releaseConfirmed b pinN now := fun hr => hr.2.1 h.2.1
  rw [if_neg hrel, if_pos h] at hbutton
  exact Prod.ext hbutton (hreport.mpr h)

/-- A button that is down, sampled no later than the window after its press, reports nothing and is unchanged, whatever
its pin: `down` bars a second press, the window bars the release (rules R82, R83 d). -/
theorem pressed_of_withinWindow {b : Button} {now : Word32} (hdown : b.down ≠ 0)
    (hwin : (now - b.down).toNat ≤ debounceMs) (pinN : Bool) : pressed b pinN now = (b, false) := by
  obtain ⟨hreport, hbutton⟩ := pressed_spec b pinN now
  have hrel : ¬releaseConfirmed b pinN now := fun hr => absurd hr.2.2 (Nat.not_lt.mpr hwin)
  have hpress : ¬pressConfirmed b pinN now := fun hp => hdown hp.2.1
  rw [if_neg hrel, if_neg hpress] at hbutton
  exact Prod.ext hbutton (Bool.eq_false_iff.mpr (fun e => hpress (hreport.mp e)))

/-! ### A bounce train -/

/-- A train inside the window of a button that is down reports nothing and leaves the button as it is (rule R84). -/
theorem reports_withinWindow {b : Button} (hdown : b.down ≠ 0) (train : List (Bool × Word32))
    (hwin : ∀ x ∈ train, (x.2 - b.down).toNat ≤ debounceMs) : reports train b = (0, b) := by
  induction train with
  | nil => rfl
  | cons x xs ih =>
    have hx := pressed_of_withinWindow hdown (hwin x List.mem_cons_self) x.1
    have hxs := ih (fun y hy => hwin y (List.mem_cons_of_mem x hy))
    simp only [reports, hx, hxs, Bool.false_eq_true, if_false]

/-- Settles O23: the first sample is the press, and the rest stays inside its window. -/
theorem bounceTrainReportsOnce : Obligations.BounceTrainReportsOnce := by
  intro b t0 train hpress ht0 hwin
  have hrest : reports train ⟨t0, b.up⟩ = (0, ⟨t0, b.up⟩) := reports_withinWindow ht0 train hwin
  simp only [reports, pressed_of_pressConfirmed hpress, hrest, if_true]

/-! ### The indicators -/

/-- `ramp_n` is low exactly for the code of RAMP (rules R20, R66). -/
theorem modeLed_rampN_iff (code : Byte) : (modeLed code).rampN = false ↔ code = 1 :=
  decide_eq_false_iff_not.trans not_not

/-- `swell_n` is low exactly for the code of SWELL (rules R20, R66). -/
theorem modeLed_swellN_iff (code : Byte) : (modeLed code).swellN = false ↔ code = 2 :=
  decide_eq_false_iff_not.trans not_not

/-! ### The button phase of a TICK -/

/-- An allowed TICK leaves in the buttons, the settings and the store what polling the buttons put there: the later
phases write none of them (rule R151). -/
theorem exec_tick_polled {s : State} (h : TickAllowed s) : ∃ t p, exec .tick s = .next t ∧
    Polled [5, 4, 3, 2, 1, 0] (countTick s) p ∧ t.buttons = p.buttons ∧ t.settings = p.settings ∧
    t.store = { s.store with pending := p.store.pending, anchor := p.store.anchor } := by
  obtain ⟨p, hp, hb⟩ := beforeLfos_spec s
  obtain ⟨l, c, o, hlfo, -⟩ := lfoPhase_frame (beforeLfos s)
  refine ⟨_, p, exec_tick h, hp, ?_⟩
  rw [tickEngine_eq, hlfo, hb]
  exact ⟨rfl, rfl, rfl⟩

section
variable {s p : State} (hp : Polled [5, 4, 3, 2, 1, 0] (countTick s) p)
include hp

/-- A polled button, by the two guards (rule R82). -/
theorem polled_button (j : Fin 6) : p.buttons[j] =
    if releaseConfirmed s.buttons[j] s.inputs.btnN[j] s.inputs.msNow then ⟨0, s.inputs.msNow⟩
    else if pressAt j s then ⟨s.inputs.msNow, s.buttons[j].up⟩ else s.buttons[j] :=
  (hp.done j (mem_allButtons j)).1.trans (pressed_spec _ _ _).2

/-- A legal settings byte after the poll: a press advances it modulo 3 (rule R141). -/
theorem polled_setting (j : Fin 6) (hlegal : s.settings[j].toNat ≤ 2) :
    p.settings[j].toNat = if pressAt j s then (s.settings[j].toNat + 1) % 3 else s.settings[j].toNat := by
  have hset : p.settings[j] = if pressAt j s then nextCode s.settings[j] else s.settings[j] :=
    (hp.done j (mem_allButtons j)).2
  rw [hset, apply_ite BitVec.toNat, nextCode_toNat hlegal]

/-- The pending flag after the poll: as it was, or set by a press (rules R141, R170). -/
theorem polled_pending : p.store.pending = true ↔ s.store.pending = true ∨ ∃ j, pressAt j s :=
  hp.pending.trans (or_congr_right (exists_congr fun j => and_iff_right (mem_allButtons j)))

/-- A press sets the anchor to the time of the TICK (rules R141, R170). -/
theorem polled_anchor_of_press (h : ∃ j, pressAt j s) : p.store.anchor = s.inputs.msNow :=
  hp.anchor (h.imp fun j hj => ⟨mem_allButtons j, hj⟩)

/-- Without a press the anchor stays (rule R141). -/
theorem polled_anchor_of_quiet (h : ∀ j, ¬pressAt j s) : p.store.anchor = s.store.anchor :=
  hp.quiet (fun j _ => h j)

end

/-- Settles O10: each button and mode by the poll, the indicators by the modes after it, the save by the presses. -/
theorem tickPollsButtons : Obligations.TickPollsButtons := by
  intro s h
  obtain ⟨t, p, ht, hp, hbuttons, hsettings, hstore⟩ := exec_tick_polled h
  refine ⟨t, ht, fun j => ?_, fun k => ?_, ?_⟩
  · rw [hbuttons, hsettings]
    exact ⟨polled_button hp j, polled_setting hp j (h.modes j)⟩
  · exact ⟨modeLed_rampN_iff _, modeLed_swellN_iff _, modeLed_rampN_iff _, modeLed_swellN_iff _⟩
  · rw [hstore]
    exact ⟨polled_pending hp, polled_anchor_of_press hp, polled_anchor_of_quiet hp⟩

end Sys2Proof.Proofs
end

section
/-! The envelope family (41_envelopes.md R90, R91, R93, R95, R96, R97; 45_tick.md R151). -/

namespace Sys2Proof.Proofs

open Sys2Proof.Machine Sys2Proof.Config Sys2Proof.Laws

/-! ### The two integrators, gate inactive and gate active -/

/-- With the gate inactive both envelopes release and the swell's direction is back at +1 (rules R91, R93, R95). -/
theorem stepEnvelopes_of_inactive {i : Inputs} (hgate : i.gateN = true) (p : Params) (e : Envelopes) :
    stepEnvelopes p i e = ⟨release p e.rampOut, release p e.swellOut, 1⟩ := by
  have hg : gateActive i = false := by simp [gateActive, hgate]
  simp [stepEnvelopes, rampStep, swellStep, hg]

/-- With the gate active the ramp rises by its scaled increment, clamped at its level (rule R91). -/
theorem stepEnvelopes_rampOut_of_active {i : Inputs} (hgate : i.gateN = false) (p : Params) (e : Envelopes) :
    (stepEnvelopes p i e).rampOut = min (e.rampOut + p.rampInc * rampLevel i * rampRate i) (rampLevel i) := by
  have hg : gateActive i = true := by simp [gateActive, hgate]
  simp [stepEnvelopes, rampStep, hg]

/-- With the gate active the swell's output and direction are those of an active `SwellStep` (rule R93). -/
theorem stepEnvelopes_swell_of_active {i : Inputs} (hgate : i.gateN = false) (p : Params) (e : Envelopes) :
    ((stepEnvelopes p i e).swellOut, (stepEnvelopes p i e).swellDir) =
      swellStep p true (swellRate i) (swellLevel i) e.swellOut e.swellDir := by
  have hg : gateActive i = true := by simp [gateActive, hgate]
  simp [stepEnvelopes, hg]

section
variable {p : Params} {rate level out dir : Rat}

/-- A rising swell that reaches its level bound takes the bound itself and flips its direction (rule R93). -/
theorem swellStep_flip (hdir : 0 < dir) (hreach : level ≤ out + p.swellInc * level * rate * dir) :
    swellStep p true rate level out dir = (level, -p.swellFall) := by
  simp [swellStep, hdir, hreach]

/-- A rising swell below its level bound keeps its direction (rule R93). -/
theorem swellStep_rise (hdir : 0 < dir) (hbelow : out + p.swellInc * level * rate * dir < level) :
    swellStep p true rate level out dir = (out + p.swellInc * level * rate * dir, dir) := by
  simp [swellStep, hdir, hbelow.not_ge]

/-- A falling swell stops at zero and keeps its direction (rule R93). -/
theorem swellStep_fall (hdir : dir ≤ 0) :
    swellStep p true rate level out dir = (max (out + p.swellInc * level * rate * dir) 0, dir) := by
  simp [swellStep, hdir.not_gt]

end

/-- A sample divided by `ADC_MAX`, with the constant's value (rule R90). -/
theorem normalised_eq (a : Sample) : normalised a = (a.toNat : Rat) / 4095 := by
  simp [normalised]

/-- Settles O12: the envelopes of a TICK are `stepEnvelopes`, whose cases are the gate's and the swell's. -/
theorem tickStepsEnvelopes : Obligations.TickStepsEnvelopes := by
  intro s h
  obtain ⟨t, ht, -, -, -, henv, -⟩ := tick_next h
  refine ⟨t, ht, fun hgate => ?inactive, fun hgate rr lr rs ls new hrr hlr hrs hls hnew => ?active⟩
  case inactive => rw [henv, stepEnvelopes_of_inactive hgate]; rfl
  case active =>
    rw [← normalised_eq] at hrr hlr hrs hls
    have hramp := stepEnvelopes_rampOut_of_active hgate s.params s.envelopes
    have hswell := stepEnvelopes_swell_of_active hgate s.params s.envelopes
    rw [← henv] at hramp hswell
    subst hrr hlr hrs hls hnew
    refine ⟨hramp, fun hdir hreach => ?_, fun hdir hbelow => ?_, fun hdir => ?_⟩
    · exact Prod.ext_iff.mp (hswell.trans (swellStep_flip hdir hreach))
    · exact Prod.ext_iff.mp (hswell.trans (swellStep_rise hdir hbelow))
    · exact Prod.ext_iff.mp (hswell.trans (swellStep_fall hdir))

/-! ### The codes -/

/-- The four codes of an allowed TICK are those of the envelopes it leaves: the oscillators write neither (rules R96,
R151). -/
theorem exec_tick_envelopeCodes {s : State} (h : TickAllowed s) : ∃ t, exec .tick s = .next t ∧
    t.out.rampDac = outputCode (t.envelopes.rampOut * dacMax) ∧
    t.out.rampLed = outputCode (t.envelopes.rampOut * t.envelopes.rampOut * dacMax) ∧
    t.out.swellDac = outputCode (t.envelopes.swellOut * dacMax) ∧
    t.out.swellLed = outputCode (t.envelopes.swellOut * dacMax) := by
  obtain ⟨p, -, hb⟩ := beforeLfos_spec s
  obtain ⟨l, c, o, hlfo, -, -, -, -, hrampDac, hrampLed, hswellDac, hswellLed⟩ := lfoPhase_frame (beforeLfos s)
  refine ⟨_, exec_tick h, ?_⟩
  rw [tickEngine_eq, hlfo]
  rw [hb] at hrampDac hrampLed hswellDac hswellLed ⊢
  exact ⟨hrampDac, hrampLed, hswellDac, hswellLed⟩

/-- The code of a value in [0, 1] is the floor of the value on the DAC scale (rules R96, R97). -/
theorem outputCode_unit {q : Rat} (h0 : 0 ≤ q) (h1 : q ≤ 1) :
    ((outputCode (q * dacMax)).toNat : Int) = ⌊q * 4095⌋ := by
  have hscale : ((dacMax : Nat) : Rat) = 4095 := by norm_num
  rw [hscale]
  exact outputCode_toNat (by linarith) (by linarith)

/-- Settles O13: the invariant of the next state has both envelopes in [0, 1], and with the ramp its square. -/
theorem tickWritesEnvelopeCodes : Obligations.TickWritesEnvelopeCodes := by
  intro s hI h
  obtain ⟨t, ht, hrampDac, hrampLed, hswellDac, hswellLed⟩ := exec_tick_envelopeCodes h
  obtain ⟨ramp0, ramp1, swell0, swell1⟩ := (tick_inv hI ht).envelopes
  refine ⟨t, ht, ?_⟩
  rw [hrampDac, hrampLed, hswellDac, hswellLed]
  exact ⟨outputCode_unit ramp0 ramp1, outputCode_unit (mul_nonneg ramp0 ramp0) (mul_le_one₀ ramp1 ramp0 ramp1),
    outputCode_unit swell0 swell1, outputCode_unit swell0 swell1⟩

/-! ### The release over several TICKs -/

/-- `n` releases of a value take `n` increments off it, down to zero (rule R95). -/
theorem release_iterate {p : Params} (hinc : 0 < p.releaseInc) {v : Rat} (hv : 0 ≤ v) (n : Nat) :
    (release p)^[n] v = max (v - n * p.releaseInc) 0 := by
  induction n with
  | zero => simp [hv]
  | succ n ih =>
    calc (release p)^[n + 1] v = max (max (v - n * p.releaseInc) 0 - p.releaseInc) 0 := by
          rw [Function.iterate_succ_apply', ih, release]
      _ = max (v - n * p.releaseInc - p.releaseInc) 0 := by
          rw [← max_sub_sub_right, max_assoc, max_eq_right (show 0 - p.releaseInc ≤ 0 by linarith)]
      _ = max (v - (n + 1 : Nat) * p.releaseInc) 0 := by
          rw [sub_sub, Nat.cast_succ, add_one_mul]

/-- A released value is zero exactly from the ceiling of the value over the increment on (rule R95). -/
theorem released_eq_zero_iff {r : Rat} (hr : 0 < r) (v : Rat) (n : Nat) :
    max (v - n * r) 0 = 0 ↔ ⌈v / r⌉ ≤ (n : Int) := by
  rw [max_eq_right_iff, sub_nonpos, Int.ceil_le, Int.cast_natCast, div_le_iff₀ hr]

/-- `n + 1` TICKs are a TICK and then `n`. -/
theorem tickRun_succ (n : Nat) {s t : State} (h : exec .tick s = .next t) : tickRun (n + 1) s = tickRun n t := by
  simp only [tickRun, h]

/-- `n` TICKs with the gate inactive release both envelopes `n` times (rules R91, R93). -/
theorem tickRun_inactive (n : Nat) {s : State} (h : TickAllowed s) (hgate : s.inputs.gateN = true) :
    ∃ t, tickRun n s = .next t ∧ t.envelopes.rampOut = (release s.params)^[n] s.envelopes.rampOut ∧
      t.envelopes.swellOut = (release s.params)^[n] s.envelopes.swellOut := by
  induction n generalizing s with
  | zero => exact ⟨s, rfl, rfl, rfl⟩
  | succ n ih =>
    obtain ⟨u, hu, hallowed, hinputs, hparams, henv, -⟩ := tick_next h
    obtain ⟨t, ht, hramp, hswell⟩ := ih hallowed (hinputs ▸ hgate)
    rw [hparams, henv, stepEnvelopes_of_inactive hgate] at hramp hswell
    exact ⟨t, (tickRun_succ n hu).trans ht, hramp, hswell⟩

/-- Settles O22: the run releases each envelope `n` times; the invariant has both values at least 0 and the increment
positive. -/
theorem releaseReachesZero : Obligations.ReleaseReachesZero := by
  intro s n hI h hgate
  obtain ⟨-, -, hinc, -⟩ := params_pos hI.params
  obtain ⟨ramp0, -, swell0, -⟩ := hI.envelopes
  obtain ⟨t, ht, hramp, hswell⟩ := tickRun_inactive n h hgate
  rw [release_iterate hinc ramp0] at hramp
  rw [release_iterate hinc swell0] at hswell
  refine ⟨t, ht, hramp, hswell, ?_, ?_⟩
  · rw [hramp]; exact released_eq_zero_iff hinc _ n
  · rw [hswell]; exact released_eq_zero_iff hinc _ n

end Sys2Proof.Proofs
end

section
/-! The clock family (42_clock_sync.md R106, R107, R109, R110, R111, R112; 43_lfo.md R123, R124, R126; 45_tick.md R151). -/

namespace Sys2Proof.Proofs

open Sys2Proof.Machine Sys2Proof.Config Sys2Proof.Laws

/-! ### The period detector -/

section
variable {c : ClockSync} {clkN : Bool} (p : Params) (tick : Word32)

/-- The detector keeps the sample as the previous level (rule R106). -/
theorem clockDetect_prev (c : ClockSync) (clkN : Bool) : (clockDetect p tick clkN c).prev = clkN := by
  unfold clockDetect; split <;> rfl

/-- At an edge the detector measures the interval, and calls it valid unless it is 0 (rule R106). -/
theorem clockDetect_of_edge (hedge : c.prev = true ∧ clkN = false) :
    clockDetect p tick clkN c =
      { c with
        prev := clkN, interval := tick - c.lastEdge, lastEdge := tick, valid := decide (tick - c.lastEdge ≠ 0) } :=
  if_pos (by simp [clockEdge, hedge])

/-- Without an edge only the timeout acts (rule R107). -/
theorem clockDetect_of_quiet (hquiet : ¬(c.prev = true ∧ clkN = false)) :
    clockDetect p tick clkN c = { c with prev := clkN, valid := c.valid && !clockTimedOut p tick c.lastEdge } :=
  if_neg (by simpa [clockEdge] using hquiet)

/-- The timeout leaves the clock valid for `SECOND_TICKS` ticks after an edge (rule R107). -/
theorem clockTimedOut_eq_false_iff (lastEdge : Word32) :
    clockTimedOut p tick lastEdge = false ↔ (tick - lastEdge).toNat ≤ p.secondTicks :=
  decide_eq_false_iff_not.trans not_lt

end

/-! ### The ladder -/

/-- The oscillators leave the detector's registers alone (rule R111). -/
theorem clockAfter_detector (q : State) :
    (clockAfter q).valid = q.clock.valid ∧ (clockAfter q).prev = q.clock.prev ∧
      (clockAfter q).interval = q.clock.interval ∧ (clockAfter q).lastEdge = q.clock.lastEdge := by
  unfold clockAfter
  split
  · exact ladderUpdate_valid _ _ _
  · exact ⟨rfl, rfl, rfl, rfl⟩

/-- With a valid clock a candidate past the margin is adopted with its band's multiplier (rule R111). -/
theorem clockAfter_of_adopted {q : State} (h : q.clock.valid = true ∧ 20 < |rateOf 0 q - q.clock.hyst|) :
    clockAfter q = { q.clock with hyst := rateOf 0 q, mult := ladderAt q.params (band (rateOf 0 q)) } := by
  obtain ⟨hvalid, hfar⟩ := h
  rw [clockAfter, if_pos hvalid, ladderUpdate, if_pos hfar]

/-- Without a valid clock, or with a candidate inside the margin, nothing of the clock changes (rules R111, R113 d). -/
theorem clockAfter_of_kept {q : State} (h : ¬(q.clock.valid = true ∧ 20 < |rateOf 0 q - q.clock.hyst|)) :
    clockAfter q = q.clock := by
  unfold clockAfter
  split
  · rename_i hvalid
    exact if_neg fun hfar => h ⟨hvalid, hfar⟩
  · rfl

/-- The multiplier of a candidate is that of the band whose range it is in (rule R110). -/
theorem ladderAt_of_bandRange {b : Fin 6} {v : Rat} (h : bandRange b v) (p : Params) :
    ladderAt p (band v) = p.ladder[b] := by
  rw [band_of_range h]
  simp [ladderAt]

/-! ### The increments -/

/-- The increment of oscillator 0 with a valid clock is taken from the clock the ladder leaves (rules R112, R123). -/
theorem incOf_of_clocked {k : Fin 3} {q : State} (h : k = 0 ∧ (clockAfter q).valid = true) :
    incOf k q = clockIncrement (clockAfter q) := by
  rw [(clockAfter_detector q).1] at h
  exact if_pos h

/-- Every other increment is that of the free-running oscillator (rules R105, R123, R124). -/
theorem incOf_of_free {k : Fin 3} {q : State} (h : ¬(k = 0 ∧ (clockAfter q).valid = true)) :
    incOf k q = freeIncrement q.params (rateOf k q) := by
  rw [(clockAfter_detector q).1] at h
  exact if_neg h

/-! ### The clock and the phases of a TICK -/

/-- The clock and the phases an allowed TICK leaves, by the state `q` its oscillators start from (rule R151). -/
theorem exec_tick_clock {s : State} (h : TickAllowed s) : ∃ q t, exec .tick s = .next t ∧
    q.clock = clockDetect s.params (s.tickCounter + 1) s.inputs.clkN s.clock ∧ q.params = s.params ∧
    t.clock = clockAfter q ∧
    ∀ k : Fin 3, rateOf k t = rateOf k q ∧ t.lfo[k].phase = s.lfo[k].phase + incOf k q := by
  obtain ⟨q, t, ht, hdetect, hlfo, hparams, -, -, henv, hsettings, hinputs, hclock, hvalues, -⟩ := tick_spec h
  refine ⟨q, t, ht, hdetect, hparams, hclock, fun k => ⟨rateOf_congr hinputs henv hsettings, ?_⟩⟩
  obtain ⟨hphase, -⟩ := hvalues k
  rw [hphase, hlfo]

/-- Settles O11: the clock's registers are those of the detector, by its two cases. -/
theorem tickDetectsClock : Obligations.TickDetectsClock := by
  intro s h
  obtain ⟨q, t, ht, hdetect, -, hclock, -⟩ := exec_tick_clock h
  obtain ⟨hvalid, hprev, hinterval, hlastEdge⟩ := clockAfter_detector q
  refine ⟨t, ht, ?_⟩
  rw [hclock, hvalid, hprev, hinterval, hlastEdge, hdetect]
  refine ⟨clockDetect_prev _ _ _ _, fun hedge => ?_, fun hquiet => ?_⟩
  · rw [clockDetect_of_edge _ _ hedge]
    exact ⟨rfl, rfl, decide_eq_true_iff⟩
  · rw [clockDetect_of_quiet _ _ hquiet]
    refine ⟨rfl, rfl, ?_⟩
    rw [Bool.and_eq_true, Bool.not_eq_true', clockTimedOut_eq_false_iff]

/-- Settles O14: the detector leaves the ladder's registers alone, so the comparison is with the value adopted last. -/
theorem tickUpdatesLadder : Obligations.TickUpdatesLadder := by
  intro s h
  obtain ⟨q, t, ht, hdetect, hparams, hclock, hk⟩ := exec_tick_clock h
  obtain ⟨hrate, -⟩ := hk 0
  obtain ⟨hvalid, -⟩ := clockAfter_detector q
  obtain ⟨hhyst, hmult⟩ := clockDetect_hyst s.params (s.tickCounter + 1) s.inputs.clkN s.clock
  rw [← hdetect] at hhyst hmult
  refine ⟨t, ht, ?_⟩
  rw [hclock, hvalid, hrate, ← hhyst, ← hmult, ← hparams]
  refine ⟨fun hadopt => ?_, fun hkeep => ?_⟩
  · rw [clockAfter_of_adopted hadopt]
    exact ⟨rfl, fun b hb => ladderAt_of_bandRange hb q.params⟩
  · rw [clockAfter_of_kept hkeep]
    exact ⟨rfl, rfl⟩

/-- Settles O15: each phase takes its increment modulo 2^32, the clock's or the free-running one. -/
theorem tickAdvancesPhases : Obligations.TickAdvancesPhases := by
  intro s h
  obtain ⟨q, t, ht, -, hparams, hclock, hk⟩ := exec_tick_clock h
  refine ⟨t, ht, fun k => ?_⟩
  obtain ⟨hrate, hphase⟩ := hk k
  rw [hclock, hrate, hphase, ← hparams]
  refine ⟨fun hclocked => ?_, fun hfree => ?_⟩
  · rw [incOf_of_clocked hclocked]
    exact add_ofInt _ _
  · rw [incOf_of_free hfree]
    exact add_ofInt _ _

end Sys2Proof.Proofs
end

section
/-! The oscillator family (43_lfo.md R122, R124, R126 to R131; 00_scope.md R6, R7; 45_tick.md R151). -/

namespace Sys2Proof.Proofs

open Sys2Proof.Machine Sys2Proof.Config Sys2Proof.Laws

/-! ### Levels and sines -/

/-- Settles O16: the TICK's settings and envelopes are those its oscillators start from. -/
theorem tickSetsLevelsAndSines : Obligations.TickSetsLevelsAndSines := by
  intro s h
  obtain ⟨q, t, ht, -, -, -, hinputs, -, henv, hsettings, -, -, hvalues, -⟩ := tick_spec h
  refine ⟨t, ht, fun k => ?_⟩
  obtain ⟨-, hsine, hlevel, -⟩ := hvalues k
  rw [henv, hsettings, hlevel, outputLevel_eq, hinputs]
  exact ⟨rfl, hsine⟩

/-! ### The FM chain -/

/-- The ranges of an oscillator's registers, with the constant's value (rule R13). -/
theorem lfoInRange_iff (l : Lfo) : lfoInRange l ↔
    (-1 ≤ l.sine ∧ l.sine ≤ 1) ∧ (-1 ≤ l.fm ∧ l.fm ≤ 1) ∧ 0 ≤ l.outLevel ∧ 2 * l.outLevel ≤ 4095 := by
  simp only [lfoInRange, Nat.cast_ofNat, and_assoc]

/-- The FM offset of a source in [-1, 1] and a level in range is bounded, and one correction brings the position it gives
into range (rule R128). -/
theorem fmOffset_corrected {src level fm : Rat} {phase : Word32} (hsrc : -1 ≤ src ∧ src ≤ 1)
    (hlevel : 0 ≤ level ∧ 2 * level ≤ 4095) (hfm : fm = Machine.sin (fmPosition phase (src * level * fmScale))) :
    |src * level * 262144| ≤ 536739840 ∧ ∃ pos : Rat, 0 ≤ pos ∧ pos < 2 ^ 32 ∧
      (pos = (phase.toNat : Rat) + src * level * 262144 ∨ pos = (phase.toNat : Rat) + src * level * 262144 + 2 ^ 32 ∨
        pos = (phase.toNat : Rat) + src * level * 262144 - 2 ^ 32) ∧
      fm = Machine.sin (BitVec.ofInt 32 ⌊pos⌋) := by
  have hbound := off_bound hsrc.1 hsrc.2 hlevel.1 hlevel.2
  obtain ⟨pos, hpos0, hpos1, hcorrected, hposition⟩ := fm_pos (ph := phase) hbound
  exact ⟨hbound, pos, hpos0, hpos1, hcorrected, hposition ▸ hfm⟩

/-- Settles O17: the source of oscillator 1 is a sine and that of oscillator 2 an FM output, both of this tick and in
range by the next state's invariant. -/
theorem tickChainsFm : Obligations.TickChainsFm := by
  intro s hI h
  obtain ⟨q, t, ht, -, hlfo, -, -, -, -, -, -, -, -, hfm0, hfm1, hfm2, -⟩ := tick_spec h
  obtain ⟨hsine0, -, hlevel0⟩ := (lfoInRange_iff _).mp (tick_lfo_inv hI ht h 0)
  obtain ⟨-, hrange1, hlevel1⟩ := (lfoInRange_iff _).mp (tick_lfo_inv hI ht h 1)
  refine ⟨t, ht, hlfo ▸ hfm0, fun k off hoff => ?_⟩
  rcases hoff with ⟨rfl, rfl⟩ | ⟨rfl, rfl⟩
  · exact fmOffset_corrected hsine0 hlevel0 hfm1
  · exact fmOffset_corrected hrange1 hlevel1 hfm2

/-! ### The codes -/

/-- Settles O18: every code is that of a value in [-1, 1] at a level in range, by the next state's invariant. -/
theorem tickWritesOscillatorCodes : Obligations.TickWritesOscillatorCodes := by
  intro s hI h
  obtain ⟨q, t, ht, -, -, -, -, -, -, -, -, -, hvalues, -, -, -, hfmDac1, hfmDac2⟩ := tick_spec h
  have hrange := fun k => (lfoInRange_iff _).mp (tick_lfo_inv hI ht h k)
  have hfmCode : ∀ k : Fin 3, ((bipolarCode t.lfo[k].fm t.lfo[k].outLevel).toNat : Int) =
      ⌊(t.lfo[k].fm + 1) * t.lfo[k].outLevel⌋ := fun k => by
    obtain ⟨-, ⟨hfm0, hfm1⟩, hlevel0, hlevel1⟩ := hrange k
    exact bipolar_range hfm0 hfm1 hlevel0 hlevel1
  refine ⟨t, ht, fun k => ?_, hfmDac1 ▸ hfmCode 1, hfmDac2 ▸ hfmCode 2⟩
  obtain ⟨-, -, -, hdac, hled⟩ := hvalues k
  obtain ⟨⟨hsine0, hsine1⟩, -, hlevel0, hlevel1⟩ := hrange k
  exact ⟨hdac ▸ bipolar_range hsine0 hsine1 hlevel0 hlevel1, hled⟩

/-! ### The free-running increment -/

/-- `K_FREE × ADC_MAX² < 2^32`, of the rational itself (rule R6). -/
theorem kFree_fullScale_lt {p : Params} (hp : p.wellFormed = true) : p.kFree * 4095 ^ 2 < 2 ^ 32 := by
  obtain ⟨-, -, -, -, -, -, -, -, hscale⟩ := params_pos hp
  have hden : (0 : Rat) < p.kFree.den := by exact_mod_cast p.kFree.den_pos
  have hscale' : (p.kFree.num : Rat) * 4095 ^ 2 < 2 ^ 32 * p.kFree.den := by exact_mod_cast hscale
  calc p.kFree * 4095 ^ 2 = p.kFree.num * 4095 ^ 2 / p.kFree.den := by
        rw [mul_div_right_comm, Rat.num_div_den]
    _ < 2 ^ 32 := (div_lt_iff₀ hden).mpr hscale'

/-- `K_FREE × r²` does not fall as the rate rises (rule R124). -/
theorem freeScale_mono {p : Params} (hp : p.wellFormed = true) {r q : Rat} (hr : 0 ≤ r) (hrq : r ≤ q) :
    p.kFree * r * r ≤ p.kFree * q * q := by
  obtain ⟨-, -, -, -, -, hk, -⟩ := params_pos hp
  have hq : 0 ≤ q := hr.trans hrq
  gcongr

/-- For a rate in 0 .. 4095 the reduction modulo 2^32 never acts (rules R6, R124). -/
theorem freeIncrement_toNat {p : Params} (hp : p.wellFormed = true) {r : Rat} (h0 : 0 ≤ r) (h1 : r ≤ 4095) :
    ((freeIncrement p r).toNat : Int) = ⌊p.kFree * r * r⌋ := by
  have hfloor0 : 0 ≤ ⌊p.kFree * r * r⌋ := Int.floor_nonneg.mpr (by simpa using freeScale_mono hp le_rfl h0)
  have hlt : p.kFree * r * r < ((2 ^ 32 : Int) : Rat) := by
    calc p.kFree * r * r ≤ p.kFree * 4095 * 4095 := freeScale_mono hp h0 h1
      _ = p.kFree * 4095 ^ 2 := by ring
      _ < ((2 ^ 32 : Int) : Rat) := by exact_mod_cast kFree_fullScale_lt hp
  have hfloor1 : ⌊p.kFree * r * r⌋ < 2 ^ 32 := Int.floor_lt.mpr hlt
  unfold freeIncrement
  rw [BitVec.toNat_ofInt]
  omega

/-- Settles O24: both increments are exact floors, of products in order. -/
theorem freeIncrementExactAndMonotone : Obligations.FreeIncrementExactAndMonotone := by
  intro p r q hp hr hrq hq
  have hexactR := freeIncrement_toNat hp hr (hrq.trans hq)
  have hexactQ := freeIncrement_toNat hp (hr.trans hrq) hq
  refine ⟨hexactR, Int.ofNat_le.mp ?_⟩
  rw [hexactR, hexactQ]
  exact Int.floor_le_floor (freeScale_mono hp hr hrq)

/-! ### The accumulator over several TICKs -/

/-- With rate mode NONE the effective rate is the sample (rules R122, R123). -/
theorem rateOf_of_modeNone {k : Fin 3} {s : State} (hmode : s.settings[2 * k.val] = 0) :
    rateOf k s = (s.inputs.adc[2 * k.val].toNat : Rat) := by
  simp [rateOf, envFactor, hmode]

/-- A TICK with no button down and rate mode NONE keeps that mode and advances the accumulator of oscillator 1 or 2 by
the increment of its sample (rules R124, R126, R141). -/
theorem exec_tick_phase_of_modeNone {s : State} {k : Fin 3} (h : TickAllowed s) (hk : k ≠ 0)
    (hbtn : ∀ j : Fin 6, s.inputs.btnN[j] = true) (hmode : s.settings[2 * k.val] = 0) :
    ∃ t, exec .tick s = .next t ∧ TickAllowed t ∧ t.inputs = s.inputs ∧ t.params = s.params ∧
      t.settings[2 * k.val] = 0 ∧
      t.lfo[k].phase = s.lfo[k].phase + freeIncrement s.params (s.inputs.adc[2 * k.val].toNat : Rat) := by
  obtain ⟨t, ht, hallowed, hinputs, hparams, -, hsettings, hphase⟩ := tick_next h
  have hkept : t.settings[2 * k.val] = 0 := (hsettings ⟨2 * k.val, by omega⟩ (hbtn _)).trans hmode
  refine ⟨t, ht, hallowed, hinputs, hparams, hkept, ?_⟩
  rw [hphase k hk, rateOf_of_modeNone hkept, hinputs]

/-- `n` such TICKs add the increment `n` times modulo 2^32 (rule R126). -/
theorem tickRun_phase_of_modeNone (n : Nat) {s : State} {k : Fin 3} (h : TickAllowed s) (hk : k ≠ 0)
    (hbtn : ∀ j : Fin 6, s.inputs.btnN[j] = true) (hmode : s.settings[2 * k.val] = 0) :
    ∃ t, tickRun n s = .next t ∧ t.lfo[k].phase =
      s.lfo[k].phase + BitVec.ofNat 32 n * freeIncrement s.params (s.inputs.adc[2 * k.val].toNat : Rat) := by
  induction n generalizing s with
  | zero => exact ⟨s, rfl, by simp⟩
  | succ n ih =>
    obtain ⟨u, hu, hallowed, hinputs, hparams, hmodeU, hphaseU⟩ := exec_tick_phase_of_modeNone h hk hbtn hmode
    obtain ⟨t, ht, hphase⟩ := ih hallowed (hinputs ▸ hbtn) hmodeU
    rw [hparams, hinputs, hphaseU] at hphase
    refine ⟨t, (tickRun_succ n hu).trans ht, ?_⟩
    rw [hphase, BitVec.ofNat_add, BitVec.add_mul, BitVec.one_mul, add_assoc, add_comm (freeIncrement _ _)]

/-- `n` times a word taken from an integer is the word of the product (rule R126). -/
theorem ofNat_mul_ofInt (n : Nat) (z : Int) : BitVec.ofNat 32 n * BitVec.ofInt 32 z = BitVec.ofInt 32 (n * z) := by
  rw [BitVec.ofInt_mul, BitVec.ofInt_natCast]

/-- Settles O21: the accumulator after `n` TICKs is a word sum, which `add_ofInt` reads as the sum modulo 2^32. -/
theorem phaseAccumulates : Obligations.PhaseAccumulates := by
  intro s k n h hk hbtn hmode
  obtain ⟨t, ht, hphase⟩ := tickRun_phase_of_modeNone n h hk hbtn hmode
  refine ⟨t, ht, ?_⟩
  rw [hphase, freeIncrement, ofNat_mul_ofInt]
  exact add_ofInt _ _

end Sys2Proof.Proofs
end

section
/-! The tick family (45_tick.md R150; 30_encoding.md R62). -/

namespace Sys2Proof.Proofs

open Sys2Proof.Machine Sys2Proof.Config Sys2Proof.Laws

/-- The whole frame of a TICK as one record update: it writes the engine state, the outputs, the pending flag, the anchor
and its result, and no more (rules R62, R150). -/
theorem tick_same {s t : State} (h : exec .tick s = .next t) : t = { s with
    tickCounter := t.tickCounter, lfo := t.lfo, buttons := t.buttons, envelopes := t.envelopes, clock := t.clock
    out := t.out, settings := t.settings
    store := { s.store with pending := t.store.pending, anchor := t.store.anchor }
    cmd := ⟨s.cmd.done, true⟩ } := by
  obtain ⟨-, rfl⟩ := (execTick_next_iff s t).mp h
  obtain ⟨p, -, hbefore⟩ := beforeLfos_spec s
  obtain ⟨l, c, o, hlfo, -⟩ := lfoPhase_frame (beforeLfos s)
  rw [tickEngine_eq, hlfo, hbefore]

/-- Settles O19: each part is a field of the one record update. -/
theorem tickFrame : Obligations.TickFrame := by
  intro s h
  obtain ⟨t, ht, -⟩ := tick_next h
  refine ⟨t, ht, ?_⟩
  rw [tick_same ht]
  exact ⟨rfl, rfl, rfl, rfl, rfl, rfl, rfl⟩

end Sys2Proof.Proofs
end

section
/-! The store family, part 1: the single steps of SAVE_CONFIG, RESTORE_CONFIG and ERASE_CONFIG (46_config_store.md R160
to R178). -/

namespace Sys2Proof.Proofs

open Sys2Proof.Machine Sys2Proof.Config Sys2Proof.Laws

/-! ### SCHEDULE_SAVE, and where SAVE_CONFIG begins -/

/-- Settles O25. -/
theorem scheduleSaveResult : Obligations.ScheduleSaveResult := fun _ => rfl

/-- The trigger of a save (rule R172). -/
theorem saveDue_iff (force : Bool) (now : Word32) (st : Store) :
    saveDue force now st = true ↔ (force = true ∨ (st.pending = true ∧ 60000 ≤ (now - st.anchor).toNat)) := by
  rw [← saveDue_false_iff]
  cases force <;> simp [saveDue]

/-- Settles O26: the trigger decides between the two first steps; a save that is not due finds no buffer to drop. -/
theorem saveTrigger : Obligations.SaveTrigger := by
  intro s force h hop hmeta
  rw [← saveDue_iff]
  refine ⟨fun hdue => (execSaveConfig_next_iff force s _).mpr ⟨hop, hmeta, (if_pos hdue).symm⟩, fun hnot =>
    (execSaveConfig_next_iff force s _).mpr ⟨hop, hmeta, ?_⟩⟩
  obtain ⟨-, -, hbuf, -⟩ := idle_facts h hop
  rw [if_neg hnot, complete, ← hop, ← hbuf]

/-! ### SAVE_CONFIG's place (rule R173) -/

/-- The search visits the 19 positions after the current one, in cyclic order. -/
theorem searchOrder_getElem (cur : Fin nPages) (n : Nat) (h : n < (searchOrder cur).length) :
    ((searchOrder cur)[n]).val = (cur.val + (n + 1)) % 20 := by
  simp only [searchOrder, List.getElem_map, List.getElem_range, Fin.val_ofNat]
  rw [Nat.add_assoc, Nat.add_comm 1 n]

theorem searchOrder_length (cur : Fin nPages) : (searchOrder cur).length = 19 := by simp [searchOrder]

/-- The search does not come back to the current page. -/
theorem ne_of_mem_searchOrder {cur j : Fin nPages} (h : j ∈ searchOrder cur) : j ≠ cur := by
  obtain ⟨n, hn, rfl⟩ := List.getElem_of_mem h
  have hval := searchOrder_getElem cur n hn
  rw [searchOrder_length] at hn
  have hcur : cur.val < 20 := cur.isLt
  exact fun e => by rw [e] at hval; omega

theorem freePage_eq_none {st : Store} (h : ∀ j : Fin nPages, j ≠ st.curPage → st.pages[j].dirty = true) :
    freePage st = none := by
  refine List.find?_eq_none.mpr (fun j hj => ?_)
  rw [h j (ne_of_mem_searchOrder hj)]
  exact Bool.false_ne_true

/-- The first clean page after the current one is found, whatever lies behind it. -/
theorem freePage_eq_some {st : Store} {d : Nat} (hd : 1 ≤ d) (hd' : d ≤ 19)
    (hclean : ∀ j : Fin nPages, j.val = (st.curPage.val + d) % 20 → st.pages[j].dirty = false)
    (hdirty : ∀ e : Nat, 1 ≤ e → e < d →
      ∀ j : Fin nPages, j.val = (st.curPage.val + e) % 20 → st.pages[j].dirty = true) :
    ∃ j : Fin nPages, freePage st = some j ∧ j.val = (st.curPage.val + d) % 20 := by
  have hlen := searchOrder_length st.curPage
  have hval := searchOrder_getElem st.curPage
  have hlt : d - 1 < (searchOrder st.curPage).length := by omega
  have hj : ((searchOrder st.curPage)[d - 1]).val = (st.curPage.val + d) % 20 := by
    rw [hval, Nat.sub_add_cancel hd]
  refine ⟨(searchOrder st.curPage)[d - 1], List.find?_eq_some_iff_getElem.mpr ⟨?_, d - 1, hlt, rfl, ?_⟩, hj⟩
  · rw [hclean _ hj]
    rfl
  · intro e he
    rw [hdirty (e + 1) (by omega) (by omega) _ (hval e _)]
    rfl

/-- Settles O27: the block fits, or the search of the rotation finds no page, or its first clean one. -/
theorem savePlacement : Obligations.SavePlacement := by
  intro s ho
  have hstep : storeStep s = .next (savePlaceStep s) := by rw [storeStep, ho]
  rw [hstep]
  unfold savePlaceStep
  refine ⟨fun hfits => ?_, fun hfull hdirty => ?_, fun hfull d hd hd' hclean hdirty => ?_⟩
  · rw [if_neg (show ¬pageSize < s.store.nextOffset + blk from Nat.not_lt.mpr hfits)]
    rfl
  · rw [if_pos (show pageSize < s.store.nextOffset + blk from hfull), freePage_eq_none hdirty]
    rfl
  · obtain ⟨j, hj, hval⟩ := freePage_eq_some hd hd' hclean hdirty
    rw [if_pos (show pageSize < s.store.nextOffset + blk from hfull), hj]
    exact ⟨_, rfl, hval, Fin.val_ofNat .., rfl, rfl, rfl⟩

/-! ### SAVE_CONFIG's reads and its book-keeping -/

/-- Settles O29. -/
theorem saveReadsLiveByte : Obligations.SaveReadsLiveByte := by
  intro s n b ho hbuf
  have hstep : storeStep s = .next (saveReadStep n.val s) := by rw [storeStep, ho]
  have hop : (if n.val + 1 < 6 then StoreOp.saveRead (n.val + 1) else .savePad) =
      if n.val = 5 then .savePad else .saveRead (n.val + 1) := by
    by_cases hlast : n.val = 5
    · rw [if_pos hlast, if_neg (by omega)]
    · rw [if_neg hlast, if_pos (by omega)]
  rw [saveReadStep, dif_pos n.isLt, hop] at hstep
  refine ⟨_, hstep, ?_, rfl, rfl⟩
  simp [appendBuf, hbuf]

/-- Settles O32: the two arms of `saveProgramDone`. -/
theorem saveBookkeeping : Obligations.SaveBookkeeping :=
  fun _ => ⟨fun ho => by rw [storeStep, ho]; rfl, fun ho => by rw [storeStep, ho]; rfl⟩

/-! ### RESTORE_CONFIG's scan (rules R162, R68) -/

theorem scanPages_getElem (p : Params) (m : Memory) (i : Fin nPages) : (scanPages p m)[i] = scanPage p m i.val := by
  simp [scanPages]

/-- The dirty flag over the offsets of a page. -/
theorem pageDirty_iff_offset (s : State) (pos : Nat) :
    pageDirty s.flash.mem pos = true ↔ ∃ off, off < 2048 ∧ poolByte s pos off ≠ 0xFF := by
  rw [pageDirty_iff]
  constructor
  · rintro ⟨a, hpage, hbyte⟩
    have haddr : poolOffset pos (a % 2048) = a := by
      change a / 2048 = pos at hpage
      change pos * 2048 + a % 2048 = a
      omega
    exact ⟨a % 2048, Nat.mod_lt _ (by decide), by rw [poolByte, haddr]; exact hbyte⟩
  · rintro ⟨off, hoff, hbyte⟩
    exact ⟨_, pageOf_poolOffset hoff, hbyte⟩

/-- A page has a header where the scan finds the magic and a usable index byte. -/
theorem headerAt_iff (s : State) (pos : Nat) :
    headerAt s pos ↔ magicAt s.params s.flash.mem pos 0 = true ∧
      (readByte s.flash.mem (poolOffset pos 4)).toNat < nPages := by
  rw [magicAt_iff]
  simp only [Nat.zero_add]
  rfl

theorem scanPage_index_of_headerAt {s : State} {pos : Nat} (h : headerAt s pos) :
    (scanPage s.params s.flash.mem pos).index = poolByte s pos 4 :=
  if_pos ((headerAt_iff s pos).mp h)

theorem scanPage_index_of_not_headerAt {s : State} {pos : Nat} (h : ¬headerAt s pos) :
    (scanPage s.params s.flash.mem pos).index = noIndex :=
  if_neg (fun e => h ((headerAt_iff s pos).mpr e))

/-- Settles O33: the scan gives each page the descriptor of rule R162. -/
theorem restoreScansPool : Obligations.RestoreScansPool := by
  intro s hop hbusy
  refine ⟨_, (execRestoreConfig_next_iff s _).mpr ⟨hop, hbusy, rfl⟩, rfl, fun i => ?_⟩
  simp only [scanPages_getElem]
  exact ⟨pageDirty_iff_offset s i.val, scanPage_index_of_headerAt, scanPage_index_of_not_headerAt⟩

/-! ### RESTORE_CONFIG's current page (rule R163) -/

section
variable {pages : Vector PageDesc nPages}

theorem currentIndex_eq_none (h : ∀ i : Fin nPages, pages[i].index = noIndex) : currentIndex pages = none := by
  have hfind : (List.range nPages).find? (indexPresent pages) = none := by
    refine List.find?_eq_none.mpr (fun e he hpresent => ?_)
    have hlt : e < 20 := List.mem_range.mp he
    obtain ⟨i, hi⟩ := (indexPresent_iff hlt).mp hpresent
    rw [h i] at hi
    change 255 = e at hi
    omega
  rw [currentIndex, hfind]
  rfl

/-- A page with a header has one of the twenty indices (rule R24). -/
theorem index_lt (hlegal : indicesLegal pages) {i : Fin nPages} (h : pages[i].index ≠ noIndex) :
    pages[i].index.toNat < nPages :=
  (hlegal i).resolve_left h

/-- With a header present the smallest index is found, and the run from it is followed to its end. -/
theorem currentIndex_eq_some (hlegal : indicesLegal pages) (h : ∃ i : Fin nPages, pages[i].index ≠ noIndex) :
    ∃ low e, currentIndex pages = some e ∧ low < nPages ∧ e < nPages ∧ low ≤ e ∧
      (∀ i : Fin nPages, low ≤ pages[i].index.toNat) ∧
      (∀ x, low ≤ x → x ≤ e → ∃ i : Fin nPages, pages[i].index.toNat = x) ∧
      (∀ i : Fin nPages, pages[i].index.toNat ≠ e + 1) := by
  have hsome : ((List.range nPages).find? (indexPresent pages)).isSome := by
    obtain ⟨i, hi⟩ := h
    have hlt := index_lt hlegal hi
    exact List.find?_isSome.mpr ⟨_, List.mem_range.mpr hlt, (indexPresent_iff hlt).mpr ⟨i, rfl⟩⟩
  obtain ⟨low, hfind⟩ := Option.isSome_iff_exists.mp hsome
  obtain ⟨hpresent, n, hn, hlow, hbelow⟩ := List.find?_eq_some_iff_getElem.mp hfind
  rw [List.length_range] at hn
  rw [List.getElem_range] at hlow
  subst hlow
  obtain ⟨hle, hlt, hrun, hstop⟩ := runEnd_spec pages nPages n hn (by omega) hpresent
  refine ⟨n, runEnd pages nPages n, by rw [currentIndex, hfind]; rfl, hn, hlt, hle, fun i => ?_,
    fun x hx hx' => (indexPresent_iff (lt_of_le_of_lt hx' hlt)).mp (hrun x hx hx'), fun i hi => ?_⟩
  · by_contra hsmall
    have hbyte : pages[i].index.toNat < nPages := lt_trans (Nat.not_le.mp hsmall) hn
    have habsent := hbelow _ (Nat.not_le.mp hsmall)
    rw [List.getElem_range, (indexPresent_iff hbyte).mpr ⟨i, rfl⟩] at habsent
    cases habsent
  · rcases hlegal i with hnone | hbyte
    · rw [hnone] at hi
      change 255 = _ at hi
      change _ < 20 at hlt
      omega
    · rw [hi] at hbyte
      have habsent := hstop hbyte
      rw [(indexPresent_iff hbyte).mpr ⟨i, hi⟩] at habsent
      cases habsent

/-- The lowest position with an index that some page has. -/
theorem pageWithIndex_eq_some {e : Nat} (h : ∃ i : Fin nPages, pages[i].index.toNat = e) :
    ∃ i : Fin nPages, pageWithIndex pages e = some i ∧ pages[i].index.toNat = e ∧
      ∀ j : Fin nPages, pages[j].index.toNat = e → i ≤ j := by
  obtain ⟨j, hj⟩ := h
  have hsome : (pageWithIndex pages e).isSome :=
    List.find?_isSome.mpr ⟨j, List.mem_finRange j, decide_eq_true hj⟩
  obtain ⟨i, hfind⟩ := Option.isSome_iff_exists.mp hsome
  obtain ⟨hi, n, hn, hget, hbelow⟩ := List.find?_eq_some_iff_getElem.mp hfind
  rw [List.getElem_finRange] at hget
  subst hget
  refine ⟨_, hfind, of_decide_eq_true hi, fun k hk => ?_⟩
  by_contra hlt
  have habsent := hbelow k.val (Nat.not_le.mp hlt)
  rw [List.getElem_finRange, Bool.not_eq_true', decide_eq_false_iff_not] at habsent
  exact habsent hk

end

theorem storeStep_restoreFind {s : State} (ho : s.store.op = .restoreFind) :
    storeStep s = .next (restoreFindStep s) := by
  rw [storeStep, ho]

/-- Settles O34: the search over the indices, then the search for the page that has the index found. -/
theorem restoreFindsCurrentPage : Obligations.RestoreFindsCurrentPage := by
  intro s ho hlegal
  rw [storeStep_restoreFind ho]
  unfold restoreFindStep
  refine ⟨fun hnone => ?_, fun hsome => ?_⟩
  · rw [currentIndex_eq_none hnone]
  · obtain ⟨low, e, hcur, -, hlt, hle, hlow, hrun, hstop⟩ := currentIndex_eq_some hlegal hsome
    obtain ⟨i, hpage, hindex, hlowest⟩ := pageWithIndex_eq_some (hrun e hle le_rfl)
    have he : (Fin.ofNat nPages e).val = e := Nat.mod_eq_of_lt hlt
    rw [hcur]
    refine ⟨_, low, rfl, rfl, hrun low le_rfl hle, hlow, ?_⟩
    simp only [he, hpage, Option.getD_some]
    exact ⟨hle, hrun, hstop, hindex, hlowest⟩

/-! ### RESTORE_CONFIG's reclaiming, snapshot and end -/

/-- Settles O36. -/
theorem reclaimRecordsErase : Obligations.ReclaimRecordsErase := by
  intro s i erased ok found ho
  have hstep : storeStep s = .next (reclaimed i.val erased ok found s) := by rw [storeStep, ho]
  have hself := updatePage_self i.val i.isLt (fun d => ⟨if erased then false else d.dirty, noIndex⟩) s.store.pages
  have hother := fun (j : Fin nPages) (hj : j ≠ i) => updatePage_ne i.val j.val j.isLt
    (fun d => ⟨if erased then false else d.dirty, noIndex⟩) s.store.pages (fun e => hj (Fin.ext e.symm))
  cases erased <;> exact ⟨_, hstep, hself, hother, rfl, rfl, rfl⟩

/-- Settles O37: the run of blocks is followed from the start of the page. -/
theorem restoreFindsSnapshot : Obligations.RestoreFindsSnapshot := by
  intro s ok found ho hbusy
  have hstep : storeStep s = .next (restoreSnapshotStep ok found s) := by
    rw [storeStep, ho]
    exact if_neg (by rw [hbusy]; exact Bool.false_ne_true)
  obtain ⟨j, hlast, -, hj, hblocks, hstop⟩ := lastBlock_spec s s.store.curPage.val 128 0 (by decide) (by decide)
  rw [hstep]
  refine ⟨?_, ?_⟩
  · rintro rfl
    exact ⟨_, j, rfl, hj, congrArg (· + 16) hlast, congrArg (StoreOp.restoreCopy · 0 ok) hlast, hblocks, hstop, rfl⟩
  · rintro rfl
    rfl

/-- Settles O39. -/
theorem restoreCompletes : Obligations.RestoreCompletes :=
  fun _ _ ho => by rw [storeStep, ho]; rfl

/-- Settles O41. -/
theorem eraseConfigStarts : Obligations.EraseConfigStarts :=
  fun s hop => (execEraseConfig_next_iff s _).mpr ⟨hop, rfl⟩

end Sys2Proof.Proofs
end

section
/-! The store family, part 2: what an undisturbed store command does, one step after the other (30_encoding.md R72;
47_flash_controller.md R206; 60_exceptions.md R235), and with it the assembly of a block and the copy of a snapshot
(46_config_store.md R168, R169, R174). -/

namespace Sys2Proof.Proofs

open Sys2Proof.Machine Sys2Proof.Config Sys2Proof.Laws

/-! ### One undisturbed step -/

/-- Nothing is scheduled, nothing stands on the flash-operation port, and the pulse of the step before is over. -/
structure Quiet (s : State) : Prop where
  params : s.params.wellFormed = true
  port : s.fop.valid = false
  events : s.env.events = []
  pulse : s.cmd.done = false

theorem endPulse_of_low {s : State} (h : s.cmd.done = false) : endPulse s = s := by
  unfold endPulse
  rw [← h]

theorem busy_of_job_none {s : State} (h : s.flash.job = none) : s.flash.busy = false := by
  rw [Flash.busy, h]
  rfl

/-- A store command in flight takes an undisturbed step. -/
structure Advances (s t : State) : Prop where
  inFlight : s.store.op ≠ .idle
  events : s.env.events = []
  step : step s = .next t

/-- A step of the sequencer that presents no flash operation. -/
theorem advances_plain {s t : State} (hq : Quiet s) (hop : s.store.op ≠ .idle) (hjob : s.flash.job = none)
    (hs : storeStep s = .next t) (hv : t.fop.valid = false) : Advances s t where
  inFlight := hop
  events := hq.events
  step := step_of_driven hq.params hq.port hq.events (busy_of_job_none hjob)
    (.plain (by rw [endPulse_of_low hq.pulse]; exact hs) hv)

/-- A step of the sequencer together with the flash operation it presents. -/
theorem advances_issued {s v t : State} {i : Instr} (hq : Quiet s) (hop : s.store.op ≠ .idle)
    (hjob : s.flash.job = none) (hs : storeStep s = .next v) (hv : v.fop.valid = true)
    (hd : decode (.fop v.fop.word) = .ok i) (he : exec i (takeFop v) = .next t) : Advances s t where
  inFlight := hop
  events := hq.events
  step := step_of_driven hq.params hq.port hq.events (busy_of_job_none hjob)
    (.issued v i (by rw [endPulse_of_low hq.pulse]; exact hs) hv hd he)

/-- The controller finishes its job before the store goes on (rule R206). -/
theorem advances_settle {s : State} {j : FlashJob} (hq : Quiet s) (hop : s.store.op ≠ .idle)
    (hjob : s.flash.job = some j) : Advances s (flashSettle s) where
  inFlight := hop
  events := hq.events
  step := by
    have hstep := step_settles hq.params hq.port hq.events (by rw [Flash.busy, hjob]; rfl)
    rwa [endPulse_of_low hq.pulse] at hstep

/-! ### Undisturbed runs -/

/-- Undisturbed steps of a store command lead from one state to the other. -/
abbrev Reaches : State → State → Prop := Relation.ReflTransGen Advances

/-- An undisturbed run through a chain of states. -/
theorem run_chain {f : Nat → State} (n : Nat) (h : ∀ k, k < n → Advances (f k) (f (k + 1))) :
    run n (f 0) = .next (f n) := by
  induction n with
  | zero => rfl
  | succ n ih => exact (run_add (ih (fun k hk => h k (by omega)))).trans (run_succ 0 (h n (by omega)).step)

theorem reaches_chain {f : Nat → State} (n : Nat) (h : ∀ k, k < n → Advances (f k) (f (k + 1))) :
    Reaches (f 0) (f n) := by
  induction n with
  | zero => exact .refl
  | succ n ih => exact (ih (fun k hk => h k (by omega))).tail (h n (by omega))

theorem reaches_inv {s t : State} (h : MachineInv s) (hr : Reaches s t) : MachineInv t := by
  induction hr with
  | refl => exact h
  | tail _ hstep ih => exact invariantKept _ _ ih hstep.step

/-- What undisturbed steps reach is the end of a run. -/
theorem run_of_reaches {s t : State} (h : Reaches s t) : ∃ n, run n s = .next t := by
  induction h with
  | refl => exact ⟨0, rfl⟩
  | tail _ hstep ih =>
    obtain ⟨n, hrun⟩ := ih
    exact ⟨n + 1, (run_add hrun).trans (run_succ 0 hstep.step)⟩

/-- An undisturbed state of the invariant is quiet once the pulse of the step before is over. -/
theorem quiet_takeEvent {s : State} (h : MachineInv s) : Quiet (takeEvent [] s) := ⟨h.params, h.port, rfl, rfl⟩

/-- An undisturbed run ends the pulse of the step before in its first step anyway. -/
theorem run_undisturbed (n : Nat) (s : State) : run (n + 1) (undisturbed s) = run (n + 1) (takeEvent [] s) := rfl

/-- A script line finishes its command in the idle state that undisturbed steps reach (rule R72). -/
theorem finishStore_of_reaches {s t : State} (h : MachineInv s) (hr : Reaches s t) (hop : s.store.op ≠ .idle)
    (he : s.env.events = []) (ht : t.store.op = .idle) : finishStore storeFuel s = .next t := by
  have hkept : ∀ u v, MachineInv u → u.store.op ≠ .idle → u.env.events = [] → step u = .next v →
      Reaches u t → Reaches v t := by
    intro u v _ hbusy _ hstep hu
    rcases hu.cases_head with rfl | ⟨w, hfirst, hrest⟩
    · exact absurd ht hbusy
    · rwa [Host.Outcome.next.inj (hstep.symm.trans hfirst.step)]
  obtain ⟨u, hfin, -, hu, hidle, -⟩ := finishStore_ends hkept storeFuel h hr hop he (remaining_lt_storeFuel s)
  rcases hu.cases_head with rfl | ⟨w, hfirst, -⟩
  · exact hfin
  · exact absurd hidle hfirst.inFlight

/-! ### SAVE_CONFIG assembles the block (rule R174) -/

/-- The magic and the index byte (rules R67, R174). -/
def blockHeader (s : State) : List Byte := magic s.params ++ [BitVec.ofNat 8 s.store.curIndex.val]

/-- The save has read `n` settings bytes. -/
def assembling (s : State) (n : Nat) : State := { s with store := { s.store with
  buf := some (blockHeader s ++ s.settings.toList.take n)
  op := if n < 6 then .saveRead n else .savePad } }

theorem take_settings_succ (v : Vector Byte 6) {n : Nat} (hn : n < 6) :
    v.toList.take n ++ [v[n]] = v.toList.take (n + 1) := by
  rw [List.take_succ_eq_append_getElem (by simpa using hn)]
  rfl

theorem storeStep_assembling (s : State) {n : Nat} (hn : n < 6) :
    storeStep (assembling s n) = .next (assembling s (n + 1)) := by
  have hop : (assembling s n).store.op = .saveRead n := if_pos hn
  rw [storeStep, hop]
  simp only [saveReadStep, dif_pos hn]
  simp only [assembling, appendBuf, setOp, Option.getD_some, List.append_assoc, take_settings_succ s.settings hn]

/-- The block is assembled, with these padding bytes, drawn by this environment. -/
def assembled (s : State) : State :=
  { s with
    store := { s.store with
      buf := some (blockHeader s ++ s.settings.toList ++ (drawBytes 5 s.env).1)
      op := .saveProgram .unlock }
    env := (drawBytes 5 s.env).2 }

theorem storeStep_saveHeader {s : State} (ho : s.store.op = .saveHeader) :
    storeStep s = .next (assembling s 0) := by
  rw [storeStep, ho]
  simp [saveHeaderStep, assembling, blockHeader]

theorem storeStep_savePad (s : State) : storeStep (assembling s 6) = .next (assembled s) := by
  have hop : (assembling s 6).store.op = .savePad := rfl
  rw [storeStep, hop]
  have hlen : s.settings.toList.take 6 = s.settings.toList := List.take_of_length_le (by simp)
  simp only [savePadStep, assembling, assembled, appendBuf, hlen, Option.getD_some]
  rfl

/-- The states of the assembly, from the header step on. -/
def assemblyAt (s : State) : Nat → State
  | 0 => s
  | n + 1 => if n ≤ 6 then assembling s n else assembled s

theorem assembly_advances {s : State} (hq : Quiet s) (ho : s.store.op = .saveHeader) (hjob : s.flash.job = none) :
    ∀ k, k < 8 → Advances (assemblyAt s k) (assemblyAt s (k + 1))
  | 0, _ => advances_plain hq (by rw [assemblyAt, ho]; exact StoreOp.noConfusion) hjob (storeStep_saveHeader ho) hq.port
  | n + 1, hn => by
    have hquiet : Quiet (assembling s n) := ⟨hq.params, hq.port, hq.events, hq.pulse⟩
    have hop : (assembling s n).store.op ≠ .idle := by
      simp only [assembling]
      split <;> exact StoreOp.noConfusion
    rw [assemblyAt, if_pos (by omega)]
    by_cases hlast : n = 6
    · subst hlast
      exact advances_plain hquiet hop hjob (storeStep_savePad s) hq.port
    · rw [assemblyAt, if_pos (by omega)]
      exact advances_plain hquiet hop hjob (storeStep_assembling s (by omega)) hq.port

/-- Settles O28: the eight steps of the assembly. -/
theorem saveAssemblesBlock : Obligations.SaveAssemblesBlock := by
  intro s h ho
  have hjob := job_none h ho rfl
  have hrun := run_chain 8 (assembly_advances (quiet_takeEvent h) ho hjob)
  exact ⟨_, _, (run_undisturbed 7 s).trans hrun, drawBytes_length 5 _, rfl, rfl, rfl, rfl⟩

/-! ### RESTORE_CONFIG copies and validates the snapshot (rules R168, R169) -/

/-- The settings after `n` bytes of the snapshot. -/
def copied (s : State) (snapshot n : Nat) : Vector Byte 6 :=
  Vector.ofFn (fun j => if j.val < n then poolByte s s.store.curPage.val (snapshot + 5 + j.val) else s.settings[j])

/-- The restore has copied `n` bytes of the snapshot. -/
def copyingAt (s : State) (snapshot : Nat) (ok : Bool) (n : Nat) : State := { s with
  settings := copied s snapshot n
  store := { s.store with op := if n < 6 then .restoreCopy snapshot n ok else .restoreValidate ok } }

theorem copied_zero (s : State) (snapshot : Nat) : copied s snapshot 0 = s.settings := by
  apply Vector.ext
  intro j hj
  simp [copied]

theorem copied_succ (s : State) (snapshot : Nat) {n : Nat} (hn : n < 6) :
    (copied s snapshot n).set n (poolByte s s.store.curPage.val (snapshot + 5 + n)) = copied s snapshot (n + 1) := by
  apply Vector.ext
  intro j hj
  simp only [copied, Vector.getElem_set, Vector.getElem_ofFn]
  by_cases hjn : n = j
  · subst hjn
    simp
  · have hlt : j < n ↔ j < n + 1 := by omega
    simp only [hjn, hlt, if_false]

theorem copied_six (s : State) (snapshot : Nat) (j : Fin 6) :
    (copied s snapshot 6)[j] = poolByte s s.store.curPage.val (snapshot + 5 + j.val) := by
  simp [copied]

theorem storeStep_copyingAt {s : State} {snapshot n : Nat} (ok : Bool) (hjob : s.flash.job = none)
    (hfits : snapshot + 16 ≤ 2048) (hn : n < 6) :
    storeStep (copyingAt s snapshot ok n) = .next (copyingAt s snapshot ok (n + 1)) := by
  have hop : (copyingAt s snapshot ok n).store.op = .restoreCopy snapshot n ok := if_pos hn
  have hread : flashRead s.flash s.store.curPage.val (snapshot + hdrSize + n) 1 =
      .ok [poolByte s s.store.curPage.val (snapshot + 5 + n)] := by
    refine (flashRead_ok _ _ _ _ _).mpr ⟨busy_of_job_none hjob, s.store.curPage.isLt, ?_, rfl⟩
    change snapshot + 5 + n + 1 ≤ 2048
    omega
  rw [storeStep, hop]
  simp only [restoreCopyStep, dif_pos hn]
  rw [show (copyingAt s snapshot ok n).flash = s.flash from rfl,
    show (copyingAt s snapshot ok n).store.curPage = s.store.curPage from rfl, hread]
  simp only [copyingAt, setOp, List.headD_cons, copied_succ s snapshot hn]

/-- The restore has validated the snapshot. -/
def validated (s : State) (snapshot : Nat) (ok : Bool) : State :=
  setOp (.restoreFinish ok) (validate (copyingAt s snapshot ok 6))

/-- The states of the copy, up to the end of the validator. -/
def copyStates (s : State) (snapshot : Nat) (ok : Bool) (n : Nat) : State :=
  if n ≤ 6 then copyingAt s snapshot ok n else validated s snapshot ok

theorem copy_zero {s : State} {snapshot : Nat} {ok : Bool} (ho : s.store.op = .restoreCopy snapshot 0 ok) :
    copyStates s snapshot ok 0 = s := by
  rw [copyStates, if_pos (by omega), copyingAt, copied_zero, if_pos (by omega), ← ho]

theorem validate_port (s : State) : (validate s).fop = s.fop := by
  unfold validate
  split <;> rfl

theorem validate_flash (s : State) : (validate s).flash = s.flash := by
  unfold validate
  split <;> rfl

theorem copy_advances {s : State} {snapshot : Nat} (ok : Bool) (hq : Quiet s) (hjob : s.flash.job = none)
    (hfits : snapshot + 16 ≤ 2048) (k : Nat) (hk : k < 7) :
    Advances (copyStates s snapshot ok k) (copyStates s snapshot ok (k + 1)) := by
  have hquiet : Quiet (copyingAt s snapshot ok k) := ⟨hq.params, hq.port, hq.events, hq.pulse⟩
  have hop : (copyingAt s snapshot ok k).store.op ≠ .idle := by
    simp only [copyingAt]
    split <;> exact StoreOp.noConfusion
  rw [copyStates, if_pos (by omega)]
  by_cases hlast : k = 6
  · subst hlast
    refine advances_plain hquiet hop hjob (by rw [storeStep]; rfl) ?_
    rw [copyStates, if_neg (by omega), validated, setOp_fop, validate_port]
    exact hq.port
  · rw [copyStates, if_pos (by omega)]
    exact advances_plain hquiet hop hjob (storeStep_copyingAt ok hjob hfits (by omega)) hq.port

/-- Legal settings pass the validator. -/
theorem validate_of_legal {s : State} (h : ∀ j : Fin 6, s.settings[j].toNat ≤ 2) : validate s = s :=
  if_pos ((settings_legal_iff s.settings).mpr h)

/-- One illegal byte fails all six (rule R169). -/
theorem validate_of_illegal {s : State} (h : ∃ j : Fin 6, 2 < s.settings[j].toNat) :
    validate s = raiseError .corrupt { s with settings := Vector.replicate 6 0 } := by
  obtain ⟨j, hj⟩ := h
  exact if_neg (fun hlegal => Nat.not_lt.mpr ((settings_legal_iff s.settings).mp hlegal j) hj)

/-- Settles O38: the six steps of the copy and the validator's. -/
theorem restoreCopiesAndValidates : Obligations.RestoreCopiesAndValidates := by
  intro s snapshot ok h ho
  obtain ⟨-, hfits, -⟩ : 0 < 6 ∧ snapshot + blk ≤ pageSize ∧ _ := place_at h ho
  have hjob := job_none h ho rfl
  have hrun := run_chain 7 (copy_advances ok (quiet_takeEvent h) hjob hfits)
  rw [copy_zero (s := takeEvent [] s) ho] at hrun
  have hbyte := copied_six (takeEvent [] s) snapshot
  refine ⟨_, (run_undisturbed 6 s).trans hrun, rfl, validate_flash _, fun hlegal => ?_, fun hillegal => ?_⟩
  · have hpass : validate (copyingAt (takeEvent [] s) snapshot ok 6) = copyingAt (takeEvent [] s) snapshot ok 6 :=
      validate_of_legal (fun j => (congrArg BitVec.toNat (hbyte j)).trans_le (hlegal j))
    rw [copyStates, if_neg (by omega), validated, hpass]
    exact ⟨hbyte, rfl⟩
  · have hfail := validate_of_illegal (s := copyingAt (takeEvent [] s) snapshot ok 6)
      (hillegal.imp fun j hj => hj.trans_eq (congrArg BitVec.toNat (hbyte j)).symm)
    rw [copyStates, if_neg (by omega), validated, hfail]
    exact ⟨fun n => Vector.getElem_replicate _, rfl⟩

end Sys2Proof.Proofs
end

section
/-! The store family, part 3: the erase sequence (47_flash_controller.md R209), and with it ERASE_CONFIG to its end and
the reclaiming of RESTORE_CONFIG (46_config_store.md R165, R178). -/

namespace Sys2Proof.Proofs

open Sys2Proof.Machine Sys2Proof.Config Sys2Proof.Laws

/-! ### Steps inside a flash sequence -/

/-- The store stands at another place; the controller, the flash-operation port and the environment are these. -/
def inSequence (op : StoreOp) (fl : Flash) (fp : FlashPort) (env : Env) (s : State) : State :=
  { s with store := { s.store with op := op }, flash := fl, fop := fp, env := env }

theorem Quiet.inSequence {s : State} (h : Quiet s) (op : StoreOp) (fl : Flash) {fp : FlashPort} {env : Env}
    (hv : fp.valid = false) (he : env.events = []) : Quiet (inSequence op fl fp env s) := ⟨h.params, hv, he, h.pulse⟩

/-- A step that presents a flash operation, which leaves the controller as `fl`. -/
theorem advances_present {s : State} {i : Instr} {op : StoreOp} {pos off : Nat} {d : List Byte} {fl : Flash}
    (hq : Quiet s) (hop : s.store.op ≠ .idle) (hjob : s.flash.job = none)
    (hs : storeStep s = .next (present (flashWord i) pos off d (setOp op s)))
    (hd : decode (.fop (flashWord i)) = .ok i)
    (he : exec i (inSequence op s.flash ⟨false, flashWord i, pos, off, d⟩ s.env s) =
      .next (inSequence op fl ⟨false, flashWord i, pos, off, d⟩ s.env s)) :
    ∃ fp : FlashPort, fp.valid = false ∧ Advances s (inSequence op fl fp s.env s) :=
  ⟨_, rfl, advances_issued hq hop hjob hs rfl hd he⟩

/-! ### EraseSeq (rule R209) -/

/-- The places `f` of a store command in which it takes the steps of `EraseSeq(i)`. -/
structure WalksErase (f : EraseStep → StoreOp) (i : Nat) : Prop where
  inFlight : ∀ q, f q ≠ .idle
  walks : ∀ (u : State) (p : EraseStep), u.store.op = f p → (∀ e, p ≠ .done e) →
    storeStep u = .next (eraseSeqStep i f p u)

theorem restoreErase_walks (i : Nat) (ok found : Bool) : WalksErase (fun q => .restoreErase i q ok found) i :=
  ⟨fun _ => StoreOp.noConfusion, fun _ _ => storeStep_restoreErase⟩

theorem eraseAll_walks (i : Nat) (ok : Bool) : WalksErase (fun q => .eraseAll i q ok) i :=
  ⟨fun _ => StoreOp.noConfusion, fun _ _ => storeStep_eraseAll⟩

section
variable {f : EraseStep → StoreOp} {i : Nat} {s : State}

theorem WalksErase.ne_idle (hf : WalksErase f i) {p : EraseStep} (hop : s.store.op = f p) : s.store.op ≠ .idle :=
  hop ▸ hf.inFlight p

theorem eraseSeq_unlock (hf : WalksErase f i) (hq : Quiet s) (hjob : s.flash.job = none)
    (hop : s.store.op = f .unlock) : ∃ fp : FlashPort, fp.valid = false ∧
      Advances s (inSequence (f .clearErr) { s.flash with locked := false } fp s.env s) :=
  advances_present hq (hf.ne_idle hop) hjob (hf.walks s _ hop (fun _ => EraseStep.noConfusion)) rfl
    ((execFlUnlock_next_iff _ _).mpr ⟨busy_of_job_none hjob, rfl⟩)

theorem eraseSeq_clearErr (hf : WalksErase f i) (hq : Quiet s) (hjob : s.flash.job = none)
    (hop : s.store.op = f .clearErr) : ∃ fp : FlashPort, fp.valid = false ∧
      Advances s (inSequence (f .erase) { s.flash with err := false } fp s.env s) :=
  advances_present hq (hf.ne_idle hop) hjob (hf.walks s _ hop (fun _ => EraseStep.noConfusion)) rfl
    ((execFlClrerr_next_iff _ _).mpr ⟨busy_of_job_none hjob, rfl⟩)

theorem eraseSeq_erase (hf : WalksErase f i) (hi : i < nPages) (hq : Quiet s) (hjob : s.flash.job = none)
    (hlock : s.flash.locked = false) (hop : s.store.op = f .erase) : ∃ fp : FlashPort, fp.valid = false ∧
      Advances s (inSequence (f .poll) { s.flash with job := some (.erase i) } fp s.env s) :=
  advances_present hq (hf.ne_idle hop) hjob (hf.walks s _ hop (fun _ => EraseStep.noConfusion)) rfl
    ((execFlErase_next_iff _ _).mpr ⟨busy_of_job_none hjob, hlock, hi, rfl⟩)

theorem eraseSeq_poll (hf : WalksErase f i) (hq : Quiet s) (hjob : s.flash.job = none) (hop : s.store.op = f .poll) :
    Advances s (setOp (f (.lock (!s.flash.err))) s) := by
  refine advances_plain hq (hf.ne_idle hop) hjob ?_ hq.port
  rw [hf.walks s _ hop (fun _ => EraseStep.noConfusion), eraseSeqStep, busy_of_job_none hjob]
  rfl

theorem eraseSeq_lock (hf : WalksErase f i) (hq : Quiet s) (hjob : s.flash.job = none) {ok : Bool}
    (hop : s.store.op = f (.lock ok)) : ∃ fp : FlashPort, fp.valid = false ∧
      Advances s (inSequence (f (.done ok)) { s.flash with locked := true } fp s.env s) :=
  advances_present hq (hf.ne_idle hop) hjob (hf.walks s _ hop (fun _ => EraseStep.noConfusion)) rfl
    ((execFlLock_next_iff _ _).mpr ⟨busy_of_job_none hjob, rfl⟩)

/-- The pool after the erase of page `i`, for which the error `e` was drawn (rule R204). -/
structure PageErased (i : Nat) (e : Bool) (m m' : Memory) : Prop where
  others : ∀ a, pageOf a ≠ i → readByte m' a = readByte m a
  erased : e = false → ∀ a, pageOf a = i → readByte m' a = erasedByte

/-- The end of an erase with its error draw given. -/
theorem erase_settles (hq : Quiet s) (hop : s.store.op ≠ .idle) (hjob : s.flash.job = some (.erase i))
    (herr : s.flash.err = false) {e : Bool} {es : List Bool} (he : s.env.errors = e :: es) :
    ∃ mem env, Advances s (inSequence s.store.op ⟨mem, s.flash.locked, e, none⟩ s.fop env s) ∧
      env.events = [] ∧ env.errors = es ∧ PageErased i e s.flash.mem mem := by
  have hdraw : drawError s.env = (e, { s.env with errors := es }) := by rw [drawError, he]
  have hsettle := advances_settle hq hop hjob
  rw [flashSettle, hjob] at hsettle
  simp only [settleErase, hdraw] at hsettle
  cases e with
  | false =>
    rw [if_neg Bool.false_ne_true, herr] at hsettle
    exact ⟨_, _, hsettle, hq.events, rfl, fun _ => readByte_erasePage_outside _, fun _ _ => readByte_erasePage_inside _⟩
  | true =>
    exact ⟨_, _, hsettle, (drawPage_events _).trans hq.events, drawPage_errors _,
      fun _ ha => readByte_writePage_outside _ ha _ (drawPage_length _), fun h => Bool.noConfusion h⟩

/-- The sequence opens the controller, clears its error flag and starts the erase. -/
theorem eraseSeq_starts (hf : WalksErase f i) (hi : i < nPages) (hq : Quiet s) (hjob : s.flash.job = none)
    (hop : s.store.op = f .unlock) : ∃ fp : FlashPort, fp.valid = false ∧
      Reaches s (inSequence (f .poll) ⟨s.flash.mem, false, false, some (.erase i)⟩ fp s.env s) := by
  obtain ⟨fp₁, hv₁, hunlock⟩ := eraseSeq_unlock hf hq hjob hop
  obtain ⟨fp₂, hv₂, hclear⟩ := eraseSeq_clearErr hf
    (hq.inSequence _ { s.flash with locked := false } hv₁ hq.events) hjob rfl
  obtain ⟨fp₃, hv₃, herase⟩ := eraseSeq_erase hf hi
    (hq.inSequence _ { s.flash with locked := false, err := false } hv₂ hq.events) hjob rfl rfl
  exact ⟨fp₃, hv₃, .tail (.tail (.single hunlock) hclear) herase⟩

/-- After the erase the sequence polls the controller, locks it and answers whether the erase succeeded. -/
theorem eraseSeq_ends (hf : WalksErase f i) (hq : Quiet s) (hjob : s.flash.job = none) (hop : s.store.op = f .poll) :
    ∃ fp : FlashPort, fp.valid = false ∧
      Reaches s (inSequence (f (.done !s.flash.err)) { s.flash with locked := true } fp s.env s) := by
  obtain ⟨fp, hv, hlock⟩ := eraseSeq_lock hf (hq.inSequence (f (.lock !s.flash.err)) s.flash hq.port hq.events) hjob rfl
  exact ⟨fp, hv, .tail (.single (eraseSeq_poll hf hq hjob hop)) hlock⟩

/-- `EraseSeq(i)` with its error draw given: it comes to its book-keeping with the draw's answer (rule R209). -/
theorem eraseSeq_reaches (hf : WalksErase f i) (hi : i < nPages) (hq : Quiet s) (hjob : s.flash.job = none)
    (hop : s.store.op = f .unlock) {e : Bool} {es : List Bool} (he : s.env.errors = e :: es) :
    ∃ mem fp env, Reaches s (inSequence (f (.done !e)) ⟨mem, true, e, none⟩ fp env s) ∧
      fp.valid = false ∧ env.events = [] ∧ env.errors = es ∧ PageErased i e s.flash.mem mem := by
  obtain ⟨fp, hv, hstart⟩ := eraseSeq_starts hf hi hq hjob hop
  obtain ⟨mem, env, hsettle, hevents, herrors, hpage⟩ :=
    erase_settles (hq.inSequence (f .poll) ⟨s.flash.mem, false, false, some (.erase i)⟩ hv hq.events)
      (hf.inFlight _) rfl rfl he
  obtain ⟨fp', hv', hend⟩ := eraseSeq_ends hf (hq.inSequence (f .poll) ⟨mem, false, e, none⟩ hv hevents) rfl rfl
  exact ⟨mem, fp', env, (hstart.tail hsettle).trans hend, hv', hevents, herrors, hpage⟩

end

/-! ### ERASE_CONFIG (rule R178) -/

/-- Where ERASE_CONFIG stands before page `i`. -/
def eraseAt (i : Nat) (ok : Bool) : StoreOp := if i < nPages then .eraseAll i .unlock ok else .eraseFinish ok

/-- The pages of the draws `es`, from page `i` on, after ERASE_CONFIG; the pages before them are as they were. -/
structure PoolErased (i : Nat) (es : List Bool) (m m' : Memory) : Prop where
  before : ∀ a, pageOf a < i → readByte m' a = readByte m a
  erased : ∀ a, i ≤ pageOf a → es[pageOf a - i]? = some false → readByte m' a = erasedByte

theorem PoolErased.cons {i : Nat} {e : Bool} {es : List Bool} {m m' m'' : Memory}
    (hrest : PoolErased (i + 1) es m' m'') (h : PageErased i e m m') : PoolErased i (e :: es) m m'' where
  before := fun a ha => (hrest.before a (by omega)).trans (h.others a (by omega))
  erased := fun a ha hdraw => by
    by_cases hpage : pageOf a = i
    · rw [hpage, Nat.sub_self] at hdraw
      rw [hrest.before a (by omega)]
      exact h.erased (Option.some.inj hdraw) a hpage
    · rw [show pageOf a - i = pageOf a - (i + 1) + 1 by omega, List.getElem?_cons_succ] at hdraw
      exact hrest.erased a (by omega) hdraw

/-- What every erase of ERASE_CONFIG leaves alone, and the controller at rest behind it. -/
structure EraseFrame (s t : State) : Prop where
  quiet : Quiet t
  job : t.flash.job = none
  settings : t.settings = s.settings
  pending : t.store.pending = s.store.pending
  anchor : t.store.anchor = s.store.anchor

theorem EraseFrame.trans {s t u : State} (h : EraseFrame s t) (h' : EraseFrame t u) : EraseFrame s u :=
  ⟨h'.quiet, h'.job, h'.settings.trans h.settings, h'.pending.trans h.pending, h'.anchor.trans h.anchor⟩

/-- `CFG_STATUS` after erases with the draws `es` (rules R178, R220). -/
def eraseStatus (es : List Bool) (b : Byte) : Byte := if true ∈ es then b ||| 0x01 else b

theorem eraseStatus_cons (e : Bool) (es : List Bool) (b : Byte) :
    eraseStatus es (eraseStatus [e] b) = eraseStatus (e :: es) b := by
  cases e with
  | false => simp [eraseStatus]
  | true => simp [eraseStatus, BitVec.or_assoc]

/-- One page of ERASE_CONFIG: its erase sequence and its book-keeping. -/
theorem erasePage_reaches {i : Nat} {ok : Bool} {s : State} (hi : i < nPages) (hq : Quiet s)
    (hjob : s.flash.job = none) (hop : s.store.op = .eraseAll i .unlock ok) {e : Bool} {es : List Bool}
    (he : s.env.errors = e :: es) :
    ∃ u, Reaches s u ∧ u.store.op = eraseAt (i + 1) (ok && !e) ∧ u.env.errors = es ∧ EraseFrame s u ∧
      PageErased i e s.flash.mem u.flash.mem ∧ u.store.status = eraseStatus [e] s.store.status := by
  obtain ⟨mem, fp, env, hseq, hfp, hevents, herrors, hpage⟩ :=
    eraseSeq_reaches (eraseAll_walks i ok) hi hq hjob hop he
  have hquiet := hq.inSequence (.eraseAll i (.done !e) ok) ⟨mem, true, e, none⟩ hfp hevents
  have hdone : Advances _
      (pageErased i (!e) ok (inSequence (.eraseAll i (.done !e) ok) ⟨mem, true, e, none⟩ fp env s)) :=
    advances_plain hquiet StoreOp.noConfusion rfl (by rw [storeStep]; rfl) (by cases e <;> exact hfp)
  refine ⟨_, hseq.tail hdone, ?_⟩
  cases e <;> exact ⟨rfl, herrors, ⟨⟨hq.params, hfp, hevents, hq.pulse⟩, rfl, rfl, rfl, rfl⟩, hpage, rfl⟩

/-- The erases of ERASE_CONFIG, by induction over the draws of the pages left. -/
theorem eraseAll_reaches (es : List Bool) {i : Nat} {ok : Bool} {s : State} (hlen : i + es.length = nPages)
    (hq : Quiet s) (hjob : s.flash.job = none) (hop : s.store.op = eraseAt i ok) (he : es <+: s.env.errors) :
    ∃ t, Reaches s t ∧ t.store.op = .eraseFinish (ok && es.all (!·)) ∧ EraseFrame s t ∧
      PoolErased i es s.flash.mem t.flash.mem ∧ t.store.status = eraseStatus es s.store.status := by
  induction es generalizing i ok s with
  | nil =>
    rw [eraseAt, if_neg (by rw [List.length_nil] at hlen; omega)] at hop
    exact ⟨s, .refl, by simpa using hop, ⟨hq, hjob, rfl, rfl, rfl⟩, ⟨fun _ _ => rfl, fun _ _ h => by cases h⟩, rfl⟩
  | cons e es ih =>
    obtain ⟨rest, hrest⟩ := he
    rw [List.length_cons] at hlen
    have hi : i < nPages := by omega
    rw [eraseAt, if_pos hi] at hop
    obtain ⟨u, hpage, hopu, herrors, hframe, hmem, hstat⟩ := erasePage_reaches hi hq hjob hop hrest.symm
    obtain ⟨t, hrun, hopt, hframe', hmem', hstat'⟩ :=
      ih (by omega) hframe.quiet hframe.job hopu ⟨rest, herrors.symm⟩
    refine ⟨t, hpage.trans hrun, ?_, hframe.trans hframe', hmem'.cons hmem, ?_⟩
    · rw [hopt, List.all_cons, Bool.and_assoc]
    · rw [hstat', hstat, eraseStatus_cons]

/-- The first step of a command line (rule R72). -/
theorem step_commandLine {l : Line} {s : State} {w : BitVec 4} {port : Inputs} {i : Instr} (h : MachineInv s)
    (hl : lineEvent l s = .command w port) (hd : decode (.cmd w) = .ok i) :
    step (withEvents [lineEvent l s] s) = exec i (takeCommand i port (takeEvent [] s)) :=
  have hs := withEvents_inv h [lineEvent l s]
  step_command hs.params hs.port (congrArg (· :: []) hl) hd

/-- A script line whose command undisturbed steps bring to its end (rule R72). -/
theorem runLine_of_reaches {l : Line} {s u t : State} (h : MachineInv s)
    (hstep : step (withEvents [lineEvent l s] s) = .next u) (hop : u.store.op ≠ .idle) (he : u.env.events = [])
    (hr : Reaches u t) (ht : t.store.op = .idle) : runLine l s = .next (withEvents s.env.events t) :=
  runLine_next hstep (finishStore_of_reaches (invariantKept _ _ (withEvents_inv h _) hstep) hr hop he ht)

/-- Settles O42: the erases, the metadata reset and the end. -/
theorem eraseConfigErasesPool : Obligations.EraseConfigErasesPool := by
  intro s es h hop hlen hes
  obtain ⟨-, hjob, -⟩ := idle_facts h hop
  have hstep : step (withEvents [lineEvent .eraseConfig s] s) =
      .next (setOp (.eraseAll 0 .unlock true) (takeCommand .eraseConfig (lineInputs {} s) (takeEvent [] s))) :=
    (step_commandLine h rfl (decode_encode .eraseConfig)).trans
      ((execEraseConfig_next_iff _ _).mpr ⟨hop, rfl⟩)
  obtain ⟨t, hrun, hopt, hframe, hmem, hstat⟩ := eraseAll_reaches es (i := 0) (ok := true)
    (s := setOp (.eraseAll 0 .unlock true) (takeCommand .eraseConfig (lineInputs {} s) (takeEvent [] s)))
    (by rw [hlen]) ⟨h.params, h.port, rfl, rfl⟩ hjob rfl hes
  have hfinish := advances_plain hframe.quiet (by rw [hopt]; exact StoreOp.noConfusion) hframe.job
    (t := eraseFinishStep (es.all (!·)) t) (by rw [storeStep, hopt]; rfl) hframe.quiet.port
  refine ⟨_, runLine_of_reaches h hstep StoreOp.noConfusion rfl (hrun.tail hfinish) rfl, rfl,
    fun i => Vector.getElem_replicate _, rfl, rfl, rfl, rfl, fun i hdraw off hoff => ?_, ?_, hstat, hframe.settings,
    hframe.pending, hframe.anchor⟩
  · have hpage : pageOf (poolOffset i.val off) = i.val := pageOf_poolOffset hoff
    exact hmem.erased _ (Nat.zero_le _) (by rw [hpage]; exact hdraw)
  · change es.all (!·) = true ↔ _
    simp

/-! ### The reclaiming of RESTORE_CONFIG (rule R165) -/

theorem reclaimable_iff (st : Store) (i : Fin nPages) :
    reclaimable st i = true ↔ st.pages[i].dirty = true ∧ (i ≠ st.curPage ∨ st.pages[i].index = noIndex) := by
  simp [reclaimable]

/-- What reclaiming these pages without error leaves. -/
structure Reclaims (stale : Fin nPages → Prop) (s t : State) : Prop where
  curPage : t.store.curPage = s.store.curPage
  curIndex : t.store.curIndex = s.store.curIndex
  settings : t.settings = s.settings
  status : t.store.status = s.store.status
  erased : ∀ j, stale j → t.store.pages[j] = ⟨false, noIndex⟩ ∧
    ∀ a, pageOf a = j.val → readByte t.flash.mem a = erasedByte
  kept : ∀ j, ¬stale j → t.store.pages[j] = s.store.pages[j] ∧
    ∀ a, pageOf a = j.val → readByte t.flash.mem a = readByte s.flash.mem a

/-- The pages the reclaiming erases from page `i` on. -/
def staleFrom (i : Nat) (s : State) (j : Fin nPages) : Prop := i ≤ j.val ∧ reclaimable s.store j = true

/-- A turn leaves the other pages as reclaimable as they were. -/
theorem Reclaims.reclaimable_of_ne {i : Nat} {s u : State}
    (h : Reclaims (fun j => j.val = i ∧ reclaimable s.store j = true) s u) {j : Fin nPages} (hj : j.val ≠ i) :
    reclaimable u.store j = reclaimable s.store j := by
  obtain ⟨hdesc, -⟩ := h.kept j (fun e => hj e.1)
  rw [reclaimable, reclaimable, hdesc, h.curPage]

/-- One turn of the reclaiming, and the rest of it. -/
theorem Reclaims.trans {i : Nat} {s u t : State}
    (h : Reclaims (fun j => j.val = i ∧ reclaimable s.store j = true) s u) (h' : Reclaims (staleFrom (i + 1) u) u t) :
    Reclaims (staleFrom i s) s t where
  curPage := h'.curPage.trans h.curPage
  curIndex := h'.curIndex.trans h.curIndex
  settings := h'.settings.trans h.settings
  status := h'.status.trans h.status
  erased := fun j ⟨hj, hstale⟩ => by
    by_cases hij : j.val = i
    · obtain ⟨hdesc, hbytes⟩ := h.erased j ⟨hij, hstale⟩
      obtain ⟨hdesc', hbytes'⟩ := h'.kept j (fun e => by have := e.1; omega)
      exact ⟨hdesc'.trans hdesc, fun a ha => (hbytes' a ha).trans (hbytes a ha)⟩
    · exact h'.erased j ⟨by omega, (h.reclaimable_of_ne hij).trans hstale⟩
  kept := fun j hkept => by
    have hturn : ¬(j.val = i ∧ reclaimable s.store j = true) := fun e => hkept ⟨by omega, e.2⟩
    obtain ⟨hdesc, hbytes⟩ := h.kept j hturn
    obtain ⟨hdesc', hbytes'⟩ := h'.kept j (fun e => hkept ⟨by have := e.1; omega,
      (h.reclaimable_of_ne (by have := e.1; omega)).symm.trans e.2⟩)
    exact ⟨hdesc'.trans hdesc, fun a ha => (hbytes' a ha).trans (hbytes a ha)⟩

/-- The page is left alone by the turn that considers it. -/
theorem reclaim_passes {i : Nat} {ok found : Bool} {s : State} (hq : Quiet s) (hjob : s.flash.job = none)
    (hop : s.store.op = .restoreReclaim i ok found) (hi : i < nPages) (hkeep : ¬reclaimable s.store ⟨i, hi⟩ = true) :
    Advances s (setOp (.restoreReclaim (i + 1) ok found) s) := by
  refine advances_plain hq (by rw [hop]; exact StoreOp.noConfusion) hjob ?_ hq.port
  rw [storeStep, hop]
  simp only [restoreReclaimStep, dif_pos hi, if_neg hkeep]

theorem reclaim_erases {i : Nat} {ok found : Bool} {s : State} (hq : Quiet s) (hjob : s.flash.job = none)
    (hop : s.store.op = .restoreReclaim i ok found) (hi : i < nPages) (hstale : reclaimable s.store ⟨i, hi⟩ = true) :
    Advances s (setOp (.restoreErase i .unlock ok found) s) := by
  refine advances_plain hq (by rw [hop]; exact StoreOp.noConfusion) hjob ?_ hq.port
  rw [storeStep, hop]
  simp only [restoreReclaimStep, dif_pos hi, if_pos hstale]

theorem reclaim_ends {i : Nat} {ok found : Bool} {s : State} (hq : Quiet s) (hjob : s.flash.job = none)
    (hop : s.store.op = .restoreReclaim i ok found) (hi : ¬i < nPages) :
    Advances s (setOp (.restoreSnapshot ok found) s) := by
  refine advances_plain hq (by rw [hop]; exact StoreOp.noConfusion) hjob ?_ hq.port
  rw [storeStep, hop]
  simp only [restoreReclaimStep, dif_neg hi]

theorem noErrorFor_of_succ {n : Nat} {s : State} (h : noErrorFor (n + 1) s) : noErrorFor n s :=
  List.IsPrefix.trans ⟨[false], List.replicate_succ'.symm⟩ h

/-- One turn of the reclaiming, without error where it erases. -/
theorem reclaimTurn_reaches {i : Nat} {found : Bool} {s : State} {n : Nat} (hi : i < nPages) (hq : Quiet s)
    (hjob : s.flash.job = none) (hop : s.store.op = .restoreReclaim i true found) (he : noErrorFor (n + 1) s) :
    ∃ u, Reaches s u ∧ Quiet u ∧ u.flash.job = none ∧ u.store.op = .restoreReclaim (i + 1) true found ∧
      noErrorFor n u ∧ Reclaims (fun j => j.val = i ∧ reclaimable s.store j = true) s u := by
  by_cases hstale : reclaimable s.store ⟨i, hi⟩ = true
  · obtain ⟨rest, hrest⟩ := he
    obtain ⟨mem, fp, env, hseq, hfp, hevents, herrors, hpage⟩ :=
      eraseSeq_reaches (s := setOp (.restoreErase i .unlock true found) s) (restoreErase_walks i true found) hi
        ⟨hq.params, hq.port, hq.events, hq.pulse⟩ hjob rfl hrest.symm
    have hquiet := hq.inSequence (.restoreErase i (.done true) true found) ⟨mem, true, false, none⟩ hfp hevents
    have hdone := advances_plain hquiet StoreOp.noConfusion rfl
      (t := reclaimed i true true found (inSequence _ ⟨mem, true, false, none⟩ fp env s)) (by rw [storeStep]; rfl) hfp
    refine ⟨_, (hseq.head (reclaim_erases hq hjob hop hi hstale)).tail hdone, ⟨hq.params, hfp, hevents, hq.pulse⟩, rfl,
      rfl, ⟨rest, herrors.symm⟩, rfl, rfl, rfl, rfl, ?_, ?_⟩
    · rintro j ⟨rfl, -⟩
      exact ⟨updatePage_self j.val j.isLt _ s.store.pages, hpage.erased rfl⟩
    · intro j hj
      have hne : i ≠ j.val := by
        rintro rfl
        exact hj ⟨rfl, hstale⟩
      exact ⟨updatePage_ne i j.val j.isLt _ s.store.pages hne,
        fun a ha => hpage.others a (by rw [ha]; exact hne.symm)⟩
  · refine ⟨_, .single (reclaim_passes hq hjob hop hi hstale), ⟨hq.params, hq.port, hq.events, hq.pulse⟩, hjob, rfl,
      noErrorFor_of_succ he, rfl, rfl, rfl, rfl, ?_, fun _ _ => ⟨rfl, fun _ _ => rfl⟩⟩
    rintro j ⟨rfl, h⟩
    exact absurd h hstale

/-- The reclaiming without error, by induction over the pages left. -/
theorem reclaim_reaches (n : Nat) {i : Nat} {found : Bool} {s : State} (hn : i + n = nPages) (hq : Quiet s)
    (hjob : s.flash.job = none) (hop : s.store.op = .restoreReclaim i true found) (he : noErrorFor n s) :
    ∃ t, Reaches s t ∧ t.store.op = .restoreSnapshot true found ∧ Reclaims (staleFrom i s) s t := by
  induction n generalizing i s with
  | zero =>
    refine ⟨_, .single (reclaim_ends hq hjob hop (by omega)), rfl, rfl, rfl, rfl, rfl, fun j hj => ?_,
      fun _ _ => ⟨rfl, fun _ _ => rfl⟩⟩
    have hlt := j.isLt
    have hle := hj.1
    omega
  | succ n ih =>
    obtain ⟨u, hturn, hquiet, hjob', hop', he', hpage⟩ := reclaimTurn_reaches (by omega) hq hjob hop he
    obtain ⟨t, hrun, hopt, hrest⟩ := ih (by omega) hquiet hjob' hop' he'
    exact ⟨t, hturn.trans hrun, hopt, hpage.trans hrest⟩

/-- What undisturbed steps reach from the end of the pulse is the end of an undisturbed run. -/
theorem run_undisturbed_of_reaches {s t : State} (h : Reaches (takeEvent [] s) t) (hop : t.store.op ≠ s.store.op) :
    ∃ n, run n (undisturbed s) = .next t := by
  obtain ⟨n, hrun⟩ := run_of_reaches h
  cases n with
  | zero => exact absurd (congrArg (fun u => u.store.op) (Host.Outcome.next.inj hrun)).symm hop
  | succ n => exact ⟨n + 1, (run_undisturbed n s).trans hrun⟩

/-- Settles O35: the reclaiming from page 0. -/
theorem restoreReclaimsStalePages : Obligations.RestoreReclaimsStalePages := by
  intro s found h ho he
  have hjob := job_none h ho rfl
  obtain ⟨t, hreach, hopt, hrec⟩ := reclaim_reaches 20 (i := 0) (s := takeEvent [] s) rfl (quiet_takeEvent h) hjob ho he
  obtain ⟨n, hrun⟩ := run_undisturbed_of_reaches hreach (by rw [hopt, ho]; exact StoreOp.noConfusion)
  have hstale : ∀ j, staleFrom 0 (takeEvent [] s) j ↔
      (s.store.pages[j].dirty = true ∧ (j ≠ s.store.curPage ∨ s.store.pages[j].index = 255)) :=
    fun j => (and_iff_right (Nat.zero_le _)).trans (reclaimable_iff s.store j)
  refine ⟨n, t, hrun, hopt, hrec.curPage, hrec.curIndex, hrec.settings, hrec.status, fun j =>
    ⟨fun hj => ?_, fun hj => ?_⟩⟩
  · obtain ⟨hdesc, hbytes⟩ := hrec.erased j ((hstale j).mpr hj)
    exact ⟨hdesc, fun off hoff => hbytes _ (pageOf_poolOffset hoff)⟩
  · obtain ⟨hdesc, hbytes⟩ := hrec.kept j (fun e => hj ((hstale j).mp e))
    exact ⟨hdesc, fun off hoff => hbytes _ (pageOf_poolOffset hoff)⟩

end Sys2Proof.Proofs
end

section
/-! The store family, part 4: the program sequence (47_flash_controller.md R208), and a SAVE_CONFIG from its place to
its end (46_config_store.md R173 to R175). -/

namespace Sys2Proof.Proofs

open Sys2Proof.Machine Sys2Proof.Config Sys2Proof.Laws

/-! ### The bytes of a block -/

/-- The pool once the first `n` bytes of `buf` are programmed at `a` over the pool `m` (rule R203). -/
structure Programmed (a : Nat) (buf : List Byte) (n : Nat) (m m' : Memory) : Prop where
  wf : m'.wf
  inside : ∀ i, i < n → readByte m' (a + i) = readByte m (a + i) &&& buf[i]?.getD 0xFF
  outside : ∀ b, b < a ∨ a + n ≤ b → readByte m' b = readByte m b

theorem Programmed.zero {m : Memory} (hm : m.wf) (a : Nat) (buf : List Byte) : Programmed a buf 0 m m :=
  ⟨hm, fun _ h => absurd h (Nat.not_lt_zero _), fun _ _ => rfl⟩

/-- The pool after the program operation of `d` at `a`. -/
def programAtAddress (m : Memory) (a : Nat) (d : List Byte) : Memory := writeBytes m a (programmed m a d)

theorem unitBytes_getElem? (w u : Nat) (buf : List Byte) {i : Nat} (hi : i < w) :
    (unitBytes w u buf)[i]? = buf[u * w + i]? := by
  rw [unitBytes, List.getElem?_take_of_lt hi, List.getElem?_drop]

/-- One more unit (rule R208). -/
theorem Programmed.unit {a w u : Nat} {buf : List Byte} {m m' : Memory} (h : Programmed a buf (u * w) m m')
    (hlen : (unitBytes w u buf).length = w) (hfits : a + u * w + w ≤ poolBytes) :
    Programmed a buf ((u + 1) * w) m (programAtAddress m' (a + u * w) (unitBytes w u buf)) := by
  have hplen : (programmed m' (a + u * w) (unitBytes w u buf)).length = w := by rw [programmed_length, hlen]
  rw [Nat.succ_mul]
  refine ⟨writeBytes_wf h.wf _ (by omega), fun i hi => ?_, fun b hb => ?_⟩
  · rcases Nat.lt_or_ge i (u * w) with hlt | hge
    · rw [programAtAddress, readByte_writeBytes_outside _ _ _ (by omega), h.inside i hlt]
    · obtain ⟨k, rfl⟩ := Nat.exists_eq_add_of_le hge
      have hk : k < w := by omega
      have hdata : buf[u * w + k]?.getD 0xFF = (unitBytes w u buf)[k] := by
        rw [← unitBytes_getElem? w u buf hk, List.getElem?_eq_getElem (by omega)]
        rfl
      rw [← Nat.add_assoc, programAtAddress, readByte_writeBytes_inside h.wf _ _ (by omega) (by omega),
        programmed_getElem _ _ _ _ (by omega), h.outside _ (by omega), hdata]
  · rw [programAtAddress, readByte_writeBytes_outside _ _ _ (by omega), h.outside b (by omega)]

/-! ### ProgramSeq (rule R208) -/

/-- The block buffer is full and the block fits its page (rules R47, R173, R174). -/
structure BlockPlaced (buf : List Byte) (s : State) : Prop where
  holds : s.store.buf = some buf
  length : buf.length = 16
  aligned : s.store.nextOffset % 16 = 0
  fits : s.store.nextOffset + 16 ≤ 2048

/-- Where the program sequence stands before unit `u`. -/
def programAt (p : Params) (u : Nat) : ProgStep := if u < unitCount p then .prog u else .lock true

section
variable {s : State}

theorem saveProgram_ne_idle {p : ProgStep} (hop : s.store.op = .saveProgram p) : s.store.op ≠ .idle :=
  hop ▸ StoreOp.noConfusion

theorem programSeq_unlock (hq : Quiet s) (hjob : s.flash.job = none) (hop : s.store.op = .saveProgram .unlock) :
    ∃ fp : FlashPort, fp.valid = false ∧
      Advances s (inSequence (.saveProgram .clearErr) { s.flash with locked := false } fp s.env s) :=
  advances_present hq (saveProgram_ne_idle hop) hjob (storeStep_saveProgram hop (fun _ => ProgStep.noConfusion)) rfl
    ((execFlUnlock_next_iff _ _).mpr ⟨busy_of_job_none hjob, rfl⟩)

theorem programSeq_clearErr (hq : Quiet s) (hjob : s.flash.job = none) (hop : s.store.op = .saveProgram .clearErr) :
    ∃ fp : FlashPort, fp.valid = false ∧
      Advances s (inSequence (.saveProgram (.prog 0)) { s.flash with err := false } fp s.env s) :=
  advances_present hq (saveProgram_ne_idle hop) hjob (storeStep_saveProgram hop (fun _ => ProgStep.noConfusion)) rfl
    ((execFlClrerr_next_iff _ _).mpr ⟨busy_of_job_none hjob, rfl⟩)

/-- The job of a unit (rule R208). -/
def unitJob (s : State) (buf : List Byte) (u : Nat) : FlashJob :=
  .prog s.store.curPage.val (s.store.nextOffset + u * s.params.wblk) (unitBytes s.params.wblk u buf)

/-- The flash-operation port once a unit's operation is taken from it. -/
def unitPort (s : State) (buf : List Byte) (u : Nat) : FlashPort :=
  ⟨false, flashWord .flProg, s.store.curPage.val, s.store.nextOffset + u * s.params.wblk, unitBytes s.params.wblk u buf⟩

theorem programSeq_prog {u : Nat} {buf : List Byte} (hq : Quiet s) (hb : BlockPlaced buf s)
    (hu : u < unitCount s.params) (hjob : s.flash.job = none) (hlock : s.flash.locked = false)
    (hop : s.store.op = .saveProgram (.prog u)) :
    ∃ fp : FlashPort, fp.valid = false ∧
      Advances s (inSequence (.saveProgram (.poll u)) { s.flash with job := some (unitJob s buf u) } fp s.env s) := by
  obtain ⟨hmod, hpage⟩ := unit_aligned hq.params hb.aligned hb.fits hu
  have hdata : portData s.params (unitPort s buf u) = unitBytes s.params.wblk u buf :=
    portData_eq (unitBytes_length hq.params hu hb.length)
  have hstep := storeStep_saveProgram hop (fun _ => ProgStep.noConfusion)
  rw [hb.holds, Option.getD_some] at hstep
  refine advances_present hq (saveProgram_ne_idle hop) hjob hstep rfl
    ((execFlProg_next_iff _ _).mpr ⟨busy_of_job_none hjob, hlock, hmod, s.store.curPage.isLt, hpage, ?_⟩)
  exact congrArg (fun d => inSequence (.saveProgram (.poll u)) { s.flash with job := some (.prog s.store.curPage.val
    (s.store.nextOffset + u * s.params.wblk) d) } (unitPort s buf u) s.env s) hdata.symm

/-- The end of a program operation for which no error was drawn. -/
theorem program_settles {pos off : Nat} {d : List Byte} {es : List Bool} (hq : Quiet s) (hop : s.store.op ≠ .idle)
    (hjob : s.flash.job = some (.prog pos off d)) (he : s.env.errors = false :: es) :
    Advances s (inSequence s.store.op ⟨programAtAddress s.flash.mem (poolOffset pos off) d, s.flash.locked, s.flash.err,
      none⟩ s.fop { s.env with errors := es } s) := by
  have hdraw : drawError s.env = (false, { s.env with errors := es }) := by rw [drawError, he]
  have hsettle := advances_settle hq hop hjob
  rw [flashSettle, hjob] at hsettle
  simp only [settleProgram, hdraw] at hsettle
  exact hsettle

theorem programSeq_poll {u : Nat} (hq : Quiet s) (hjob : s.flash.job = none) (herr : s.flash.err = false)
    (hop : s.store.op = .saveProgram (.poll u)) :
    Advances s (setOp (.saveProgram (programAt s.params (u + 1))) s) := by
  refine advances_plain hq (saveProgram_ne_idle hop) hjob ?_ hq.port
  rw [storeStep_saveProgram hop (fun _ => ProgStep.noConfusion), programSeqStep, busy_of_job_none hjob, herr, programAt]
  simp only [Bool.false_eq_true, if_false]
  split <;> rfl

theorem programSeq_lock (hq : Quiet s) (hjob : s.flash.job = none) {ok : Bool}
    (hop : s.store.op = .saveProgram (.lock ok)) : ∃ fp : FlashPort, fp.valid = false ∧
      Advances s (inSequence (.saveProgram (.done ok)) { s.flash with locked := true } fp s.env s) :=
  advances_present hq (saveProgram_ne_idle hop) hjob (storeStep_saveProgram hop (fun _ => ProgStep.noConfusion)) rfl
    ((execFlLock_next_iff _ _).mpr ⟨busy_of_job_none hjob, rfl⟩)

/-- One unit for which no error is drawn: its operation, the end of it, and the poll. -/
theorem programUnit_reaches {u : Nat} {buf : List Byte} {m : Memory} {es : List Bool} (hq : Quiet s)
    (hb : BlockPlaced buf s) (hu : u < unitCount s.params) (hfl : s.flash = ⟨m, false, false, none⟩)
    (hop : s.store.op = .saveProgram (.prog u)) (he : s.env.errors = false :: es) :
    ∃ fp env, Reaches s (inSequence (.saveProgram (programAt s.params (u + 1)))
        ⟨programAtAddress m (poolOffset s.store.curPage.val s.store.nextOffset + u * s.params.wblk)
          (unitBytes s.params.wblk u buf), false, false, none⟩ fp env s) ∧
      fp.valid = false ∧ env.events = [] ∧ env.errors = es := by
  obtain ⟨fp, hv, hprog⟩ := programSeq_prog hq hb hu (by rw [hfl]) (by rw [hfl]) hop
  rw [hfl] at hprog
  have hsettle := program_settles (hq.inSequence (.saveProgram (.poll u)) ⟨m, false, false, some (unitJob s buf u)⟩ hv
    hq.events) StoreOp.noConfusion rfl he
  have hpoll := programSeq_poll (hq.inSequence (.saveProgram (.poll u))
    ⟨programAtAddress m (poolOffset s.store.curPage.val (s.store.nextOffset + u * s.params.wblk))
      (unitBytes s.params.wblk u buf), false, false, none⟩ hv (env := { s.env with errors := es }) hq.events)
    rfl rfl rfl
  rw [poolOffset, Nat.add_assoc, ← poolOffset]
  exact ⟨fp, _, .tail (.tail (.single hprog) hsettle) hpoll, hv, hq.events, rfl⟩

/-- The units of a block for which no error is drawn, by induction over the units left. -/
theorem programUnits_reach (n : Nat) {u : Nat} {buf : List Byte} {m₀ m : Memory} (hn : u + n = unitCount s.params)
    (hq : Quiet s) (hb : BlockPlaced buf s) (hfl : s.flash = ⟨m, false, false, none⟩)
    (hop : s.store.op = .saveProgram (programAt s.params u)) (he : noErrorFor n s)
    (hm : Programmed (poolOffset s.store.curPage.val s.store.nextOffset) buf (u * s.params.wblk) m₀ m) :
    ∃ m' fp env, Reaches s (inSequence (.saveProgram (.lock true)) ⟨m', false, false, none⟩ fp env s) ∧
      fp.valid = false ∧ env.events = [] ∧
      Programmed (poolOffset s.store.curPage.val s.store.nextOffset) buf 16 m₀ m' := by
  induction n generalizing u m s with
  | zero =>
    rw [programAt, if_neg (by omega)] at hop
    have hend : inSequence (.saveProgram (.lock true)) ⟨m, false, false, none⟩ s.fop s.env s = s := by
      rw [inSequence, ← hfl, ← hop]
    rw [← unitCount_mul hq.params, ← hn]
    exact ⟨m, s.fop, s.env, hend ▸ .refl, hq.port, hq.events, hm⟩
  | succ n ih =>
    obtain ⟨rest, hrest⟩ := he
    have hu : u < unitCount s.params := by omega
    rw [programAt, if_pos hu] at hop
    obtain ⟨fp, env, hunit, hv, hevents, herrors⟩ := programUnit_reaches hq hb hu hfl hop hrest.symm
    have hbound :
        poolOffset s.store.curPage.val s.store.nextOffset + u * s.params.wblk + s.params.wblk ≤ poolBytes := by
      have := poolOffset_le s.store.curPage.isLt hb.fits
      have := unit_le hq.params hu
      omega
    obtain ⟨m', fp', env', hrun, hend⟩ := ih (u := u + 1) (by exact (by omega : u + 1 + n = unitCount s.params))
      (hq.inSequence (.saveProgram (programAt s.params (u + 1))) ⟨_, false, false, none⟩ hv hevents)
      ⟨hb.holds, hb.length, hb.aligned, hb.fits⟩ rfl rfl ⟨rest, herrors.symm⟩
      (hm.unit (unitBytes_length hq.params hu hb.length) hbound)
    exact ⟨m', fp', env', hunit.trans hrun, hend⟩

/-- `ProgramSeq` with no error drawn programs the whole block (rule R208). -/
theorem programSeq_reaches {buf : List Byte} (hq : Quiet s) (hb : BlockPlaced buf s) (hjob : s.flash.job = none)
    (hop : s.store.op = .saveProgram .unlock) (hm : s.flash.mem.wf) (he : noErrorFor (unitCount s.params) s) :
    ∃ m fp env, Reaches s (inSequence (.saveProgram (.done true)) ⟨m, true, false, none⟩ fp env s) ∧
      fp.valid = false ∧ env.events = [] ∧
      Programmed (poolOffset s.store.curPage.val s.store.nextOffset) buf 16 s.flash.mem m := by
  obtain ⟨fp₁, hv₁, hunlock⟩ := programSeq_unlock hq hjob hop
  obtain ⟨fp₂, hv₂, hclear⟩ := programSeq_clearErr
    (hq.inSequence (.saveProgram .clearErr) { s.flash with locked := false } hv₁ hq.events) hjob rfl
  have hfirst : programAt s.params 0 = .prog 0 := if_pos (unitCount_pos hq.params)
  obtain ⟨m, fp₃, env, hunits, hv₃, hevents, hprog⟩ := programUnits_reach
    (s := inSequence (.saveProgram (.prog 0)) { s.flash with locked := false, err := false } fp₂ s.env s)
    (unitCount s.params) (Nat.zero_add _) (hq.inSequence _ _ hv₂ hq.events) ⟨hb.holds, hb.length, hb.aligned, hb.fits⟩
    (by rw [inSequence, ← hjob]) (congrArg StoreOp.saveProgram hfirst.symm) he
    (by rw [Nat.zero_mul]; exact .zero hm _ _)
  obtain ⟨fp₄, hv₄, hlock⟩ := programSeq_lock
    (hq.inSequence (.saveProgram (.lock true)) ⟨m, false, false, none⟩ hv₃ hevents) rfl rfl
  exact ⟨m, fp₄, env, ((hunits.head hclear).head hunlock).tail hlock, hv₄, hevents, hprog⟩

end

/-! ### SAVE_CONFIG from its place to its end -/

/-- The block of a save with these padding bytes (rules R67, R69, R174). -/
def savedBlock (s : State) (pad : List Byte) : List Byte := blockHeader s ++ s.settings.toList ++ pad

theorem savedBlock_length (s : State) {pad : List Byte} (h : pad.length = 5) : (savedBlock s pad).length = 16 := by
  simp [savedBlock, blockHeader, magic, h]

/-- A save whose block fits the current page, with no error drawn, programs its block there (rules R173 to R175). -/
theorem save_reaches {s : State} (hq : Quiet s) (hjob : s.flash.job = none) (hop : s.store.op = .savePlace)
    (halign : s.store.nextOffset % 16 = 0) (hfits : s.store.nextOffset + 16 ≤ 2048) (hm : s.flash.mem.wf)
    (he : noErrorFor (unitCount s.params) s) :
    ∃ t pad, Reaches s t ∧ t.store.op = .idle ∧ t.flash.job = none ∧ t.params = s.params ∧ pad.length = 5 ∧
      Programmed (poolOffset s.store.curPage.val s.store.nextOffset) (savedBlock s pad) 16 s.flash.mem t.flash.mem := by
  have hplace : Advances s (setOp .saveHeader s) :=
    advances_plain hq (by rw [hop]; exact StoreOp.noConfusion) hjob ((savePlacement s hop).1 hfits) hq.port
  have hassembly : Reaches (setOp .saveHeader s) (assembled s) :=
    reaches_chain 8 (assembly_advances (s := setOp .saveHeader s) ⟨hq.params, hq.port, hq.events, hq.pulse⟩ rfl hjob)
  have hpad : (drawBytes 5 s.env).1.length = 5 := drawBytes_length 5 s.env
  have hquiet : Quiet (assembled s) := ⟨hq.params, hq.port, (drawBytes_events 5 s.env).trans hq.events, hq.pulse⟩
  have herrors : noErrorFor (unitCount s.params) (assembled s) := by
    unfold noErrorFor
    rw [show (assembled s).env.errors = s.env.errors from drawBytes_errors 5 s.env]
    exact he
  obtain ⟨m, fp, env, hprogram, hv, hevents, hblock⟩ := programSeq_reaches hquiet
    ⟨rfl, savedBlock_length s hpad, halign, hfits⟩ hjob rfl hm herrors
  have hdone := advances_plain (hquiet.inSequence (.saveProgram (.done true)) ⟨m, true, false, none⟩ hv hevents)
    StoreOp.noConfusion rfl ((saveBookkeeping _).1 rfl) hv
  exact ⟨_, _, ((hassembly.head hplace).trans hprogram).tail hdone, rfl, rfl, rfl, hpad, hblock⟩

end Sys2Proof.Proofs
end

section
/-! The store family, part 5: RESTORE_CONFIG from its scan to its end, on an erased pool and on the pool a save has left
(46_config_store.md R160 to R169, R179; 20_memory.md R54). -/

namespace Sys2Proof.Proofs

open Sys2Proof.Machine Sys2Proof.Config Sys2Proof.Laws

/-! ### RESTORE_CONFIG with nothing to reclaim -/

/-- The scan of an erased page. -/
theorem scanPage_of_erased (p : Params) {m : Memory} {pos : Nat} (h : ∀ a, pageOf a = pos → readByte m a = 0xFF) :
    scanPage p m pos = ⟨false, noIndex⟩ := by
  have hclean : pageDirty m pos = false := by
    rw [← Bool.not_eq_true, pageDirty_iff]
    rintro ⟨a, hpage, hbyte⟩
    exact hbyte (h a hpage)
  have hmagic : ¬magicAt p m pos 0 = true := by
    rw [magicAt_iff]
    intro hbytes
    have hfirst := hbytes 0
    rw [h _ (pageOf_poolOffset (by decide))] at hfirst
    exact absurd hfirst (by decide : ¬(0xFF : Byte) = 0x43)
  rw [scanPage, hclean, if_neg (fun e => hmagic e.1)]

/-- The state in which RESTORE_CONFIG has scanned the pool (rule R162). -/
def scanned (s : State) : State :=
  { s with store := { s.store with pages := scanPages s.params s.flash.mem, op := .restoreFind } }

theorem scanned_flash (s : State) : (scanned s).flash = s.flash := by simp only [scanned]

theorem scanned_params (s : State) : (scanned s).params = s.params := by simp only [scanned]

theorem scanned_getElem (s : State) (j : Fin nPages) :
    (scanned s).store.pages[j] = scanPage s.params s.flash.mem j.val := scanPages_getElem s.params s.flash.mem j

/-- A RESTORE_CONFIG line is what undisturbed steps reach from the scan. -/
theorem runLine_restore_of_reaches {s t : State} (h : MachineInv s) (hop : s.store.op = .idle)
    (hr : Reaches (scanned (takeEvent [] s)) t) (ht : t.store.op = .idle) :
    runLine .restoreConfig s = .next (withEvents s.env.events t) :=
  runLine_of_reaches h ((step_commandLine h rfl (decode_encode .restoreConfig)).trans
    (exec_restoreConfig_idle (takeCommand_inv (takeEvent_inv h []) _ _) hop)) StoreOp.noConfusion rfl hr ht

/-- A change of the store's registers leaves a state quiet. -/
theorem Quiet.store {s : State} (h : Quiet s) (st : Store) : Quiet { s with store := st } :=
  ⟨h.params, h.port, h.events, h.pulse⟩

section
variable {s : State}

/-- The state in which RESTORE_CONFIG has found the current page, or none (rule R163). -/
def currentAt (page index : Fin nPages) (found : Bool) (s : State) : State :=
  { s with store := { s.store with curPage := page, curIndex := index, op := .restoreReclaim 0 true found } }

theorem restoreFind_none (hq : Quiet s) (hjob : s.flash.job = none) (hop : s.store.op = .restoreFind)
    (hnone : ∀ j : Fin nPages, s.store.pages[j].index = noIndex) : Advances s (currentAt 0 0 false s) :=
  advances_plain hq (by rw [hop]; exact StoreOp.noConfusion) hjob
    ((restoreFindsCurrentPage s hop (fun j => .inl (hnone j))).1 hnone) hq.port

/-- One of the twenty indices is not the mark of a page without a header (rule R24). -/
theorem ne_noIndex {b : Byte} {i : Fin nPages} (h : b.toNat = i.val) : b ≠ noIndex := fun e => by
  have hlt := i.isLt
  rw [← h, e] at hlt
  exact absurd hlt (by decide)

/-- Where one page alone has a header, it is the current one. -/
theorem restoreFind_single {cur idx : Fin nPages} (hq : Quiet s) (hjob : s.flash.job = none)
    (hop : s.store.op = .restoreFind) (hcur : s.store.pages[cur].index.toNat = idx.val)
    (hother : ∀ j : Fin nPages, j ≠ cur → s.store.pages[j].index = noIndex) :
    Advances s (currentAt cur idx true s) := by
  have hlegal : indicesLegal s.store.pages := fun j => by
    by_cases hj : j = cur
    · exact .inr (by rw [hj, hcur]; exact idx.isLt)
    · exact .inl (hother j hj)
  obtain ⟨t, low, hstep, ht, -, -, -, -, -, hpage, -⟩ := (restoreFindsCurrentPage s hop hlegal).2 ⟨cur, ne_noIndex hcur⟩
  have hcurPage : t.store.curPage = cur := by
    by_contra hj
    exact ne_noIndex hpage (hother _ hj)
  have hcurIndex : t.store.curIndex = idx := Fin.ext (by rw [← hpage, ← hcur]; simp only [hcurPage])
  rw [hcurPage, hcurIndex] at ht
  rw [ht] at hstep
  exact advances_plain hq (by rw [hop]; exact StoreOp.noConfusion) hjob hstep hq.port

/-- The reclaiming passes over pages of which none is to be erased. -/
theorem reclaim_skips {ok found : Bool} (hq : Quiet s) (hjob : s.flash.job = none)
    (hop : s.store.op = .restoreReclaim 0 ok found) (hkeep : ∀ j, ¬reclaimable s.store j = true) :
    Reaches s (setOp (.restoreSnapshot ok found) s) := by
  have hself : setOp (.restoreReclaim 0 ok found) s = s := by rw [setOp, ← hop]
  have hturns := reaches_chain (f := fun k => setOp (.restoreReclaim k ok found) s) nPages
    (fun k hk => reclaim_passes (hq.store _) hjob rfl hk (hkeep ⟨k, hk⟩))
  rw [hself] at hturns
  exact hturns.tail (reclaim_ends (hq.store _) hjob rfl (Nat.lt_irrefl nPages))

theorem restoreSnapshot_none {ok : Bool} (hq : Quiet s) (hjob : s.flash.job = none)
    (hop : s.store.op = .restoreSnapshot ok false) :
    Advances s { s with store := { s.store with nextOffset := 0, op := .restoreFinish ok } } :=
  advances_plain hq (by rw [hop]; exact StoreOp.noConfusion) hjob
    ((restoreFindsSnapshot s ok false hop (busy_of_job_none hjob)).2 rfl) hq.port

/-- Where no block follows the first one of the current page, the first is the snapshot. -/
theorem restoreSnapshot_first {ok : Bool} (hq : Quiet s) (hjob : s.flash.job = none)
    (hop : s.store.op = .restoreSnapshot ok true) (hnext : ¬blockAt s s.store.curPage.val 16) :
    Advances s { s with store := { s.store with nextOffset := 16, op := .restoreCopy 0 0 ok } } := by
  obtain ⟨t, j, hstep, -, hoff, hcopy, hrun, -, ht⟩ :=
    (restoreFindsSnapshot s ok true hop (busy_of_job_none hjob)).1 rfl
  have hzero : j = 0 := by
    by_contra hj
    exact hnext (hrun 1 le_rfl (by omega))
  rw [hzero] at hoff hcopy
  rw [hoff, hcopy] at ht
  rw [ht] at hstep
  exact advances_plain hq (by rw [hop]; exact StoreOp.noConfusion) hjob hstep hq.port

/-- The copy of a legal snapshot passes the validator (rules R168, R169). -/
theorem restoreCopy_reaches {snapshot : Nat} {ok : Bool} {v : Vector Byte 6} (hq : Quiet s) (hjob : s.flash.job = none)
    (hop : s.store.op = .restoreCopy snapshot 0 ok) (hfits : snapshot + 16 ≤ 2048)
    (hbytes : ∀ n : Fin 6, poolByte s s.store.curPage.val (snapshot + 5 + n.val) = v[n]) (hv : settingsLegal v = true) :
    Reaches s { s with settings := v, store := { s.store with op := .restoreFinish ok } } := by
  have hcopied : copied s snapshot 6 = v :=
    Vector.ext fun j hj => (copied_six s snapshot ⟨j, hj⟩).trans (hbytes ⟨j, hj⟩)
  have hpass : validate (copyingAt s snapshot ok 6) = copyingAt s snapshot ok 6 :=
    if_pos (by rw [copyingAt, hcopied]; exact hv)
  have hreach := reaches_chain 7 (copy_advances ok hq hjob hfits)
  rw [copy_zero hop, copyStates, if_neg (by omega), validated, hpass, copyingAt, hcopied] at hreach
  exact hreach

theorem restoreFinish_ends {ok : Bool} (hq : Quiet s) (hjob : s.flash.job = none)
    (hop : s.store.op = .restoreFinish ok) : Advances s (restoreFinishStep ok s) :=
  advances_plain hq (by rw [hop]; exact StoreOp.noConfusion) hjob (by rw [storeStep, hop]) hq.port

end

/-! ### An erased pool (rule R179 a) -/

theorem restore_reaches_of_clean {s : State} (hq : Quiet s) (hjob : s.flash.job = none)
    (hop : s.store.op = .restoreFind) (hpages : ∀ j : Fin nPages, s.store.pages[j] = ⟨false, noIndex⟩) :
    ∃ t, Reaches s t ∧ t.store.op = .idle ∧ t.settings = s.settings ∧ t.store.metaValid = true ∧
      t.store.curPage = 0 ∧ t.store.curIndex = 0 ∧ t.store.nextOffset = 0 ∧ t.cmd = ⟨true, true⟩ ∧
      t.flash = s.flash := by
  have hclean : ∀ j, ¬reclaimable (currentAt 0 0 false s).store j = true := fun j h => by
    obtain ⟨hdirty, -⟩ := (reclaimable_iff _ j).mp h
    exact Bool.false_ne_true ((congrArg PageDesc.dirty (hpages j)).symm.trans hdirty)
  have hfind := restoreFind_none hq hjob hop (fun j => by rw [hpages j])
  have hskip := reclaim_skips (s := currentAt 0 0 false s) (hq.store _) hjob rfl hclean
  have hsnapshot := restoreSnapshot_none (s := setOp (.restoreSnapshot true false) (currentAt 0 0 false s))
    (hq.store _) hjob rfl
  have hfinish := restoreFinish_ends (ok := true) (s := { s with
    store := { (currentAt 0 0 false s).store with nextOffset := 0, op := .restoreFinish true } }) (hq.store _) hjob rfl
  exact ⟨_, ((hskip.head hfind).tail hsnapshot).tail hfinish, rfl, rfl, rfl, rfl, rfl, rfl, rfl, rfl⟩

/-- Settles O43: the scan finds every page clean and without a header. -/
theorem erasedPoolRestoresNothing : Obligations.ErasedPoolRestoresNothing := by
  intro s h hop herased
  obtain ⟨-, hjob, -⟩ := idle_facts h hop
  have hpages : ∀ j : Fin nPages, (scanned (takeEvent [] s)).store.pages[j] = ⟨false, noIndex⟩ := fun j => by
    rw [scanned_getElem]
    exact scanPage_of_erased _ (fun a _ => herased a)
  obtain ⟨t, hreach, hidle, hset, hmeta, hpage, hindex, hoff, hcmd, hflash⟩ :=
    restore_reaches_of_clean ((quiet_takeEvent h).store _) hjob rfl hpages
  exact ⟨_, runLine_restore_of_reaches h hop hreach hidle, hset, hmeta, hpage, hindex, hoff, hcmd, hflash⟩

/-! ### A pool with one saved block (rules R54, R179 b) -/

/-- The pool holds one block, at the start of page `cur`: with the index `idx` and the settings `v`. -/
structure HoldsBlock (cur idx : Fin nPages) (v : Vector Byte 6) (s : State) : Prop where
  block : blockAt s cur.val 0
  index : poolByte s cur.val 4 = BitVec.ofNat 8 idx.val
  settings : ∀ n : Fin 6, poolByte s cur.val (5 + n.val) = v[n]
  erased : ∀ a, a < poolOffset cur.val 0 ∨ poolOffset cur.val 0 + 16 ≤ a → readByte s.flash.mem a = 0xFF

section
variable {cur idx : Fin nPages} {v : Vector Byte 6} {s : State}

/-- It is a matter of the pool and the version byte alone. -/
theorem HoldsBlock.congr {t : State} (h : HoldsBlock cur idx v s) (hmem : t.flash.mem = s.flash.mem)
    (hparams : t.params = s.params) : HoldsBlock cur idx v t := by
  obtain ⟨hblock, hindex, hsettings, herased⟩ := h
  unfold blockAt poolByte at hblock
  unfold poolByte at hindex hsettings
  rw [← hmem] at hblock hindex hsettings herased
  rw [← hparams] at hblock
  exact ⟨hblock, hindex, hsettings, herased⟩

theorem HoldsBlock.index_toNat (h : HoldsBlock cur idx v s) : (poolByte s cur.val 4).toNat = idx.val := by
  have hlt : idx.val < 20 := idx.isLt
  rw [h.index, BitVec.toNat_ofNat]
  omega

theorem HoldsBlock.scan_cur (h : HoldsBlock cur idx v s) :
    (scanPage s.params s.flash.mem cur.val).index.toNat = idx.val := by
  have hheader : headerAt s cur.val := ⟨by simpa [blockAt] using h.block, by rw [h.index_toNat]; exact idx.isLt⟩
  rw [scanPage_index_of_headerAt hheader, h.index_toNat]

theorem HoldsBlock.scan_other (h : HoldsBlock cur idx v s) {j : Fin nPages} (hj : j ≠ cur) :
    scanPage s.params s.flash.mem j.val = ⟨false, noIndex⟩ := by
  refine scanPage_of_erased _ (fun a ha => h.erased a ?_)
  have hne : j.val ≠ cur.val := fun e => hj (Fin.ext e)
  simp only [pageOf, poolOffset, pageSize] at ha ⊢
  omega

theorem HoldsBlock.no_second (h : HoldsBlock cur idx v s) : ¬blockAt s cur.val 16 := by
  intro hblock
  have hfirst := hblock 0
  rw [poolByte, h.erased _ (by simp only [poolOffset]; omega)] at hfirst
  exact absurd hfirst (by decide : ¬(0xFF : Byte) = 0x43)

/-- RESTORE_CONFIG on such a pool, from its scan to its end. -/
theorem restore_reaches_of_holdsBlock (h : HoldsBlock cur idx v s) (hq : Quiet s) (hjob : s.flash.job = none)
    (hop : s.store.op = .restoreFind) (hcur : s.store.pages[cur].index.toNat = idx.val)
    (hother : ∀ j : Fin nPages, j ≠ cur → s.store.pages[j] = ⟨false, noIndex⟩) (hv : settingsLegal v = true) :
    ∃ t, Reaches s t ∧ t.store.op = .idle ∧ t.settings = v ∧ t.store.metaValid = true ∧
      t.store.curPage = cur ∧ t.store.curIndex = idx ∧ t.store.nextOffset = 16 ∧ t.store.status = s.store.status := by
  have hfind := restoreFind_single hq hjob hop hcur (fun j hj => by rw [hother j hj])
  have hkeep : ∀ j, ¬reclaimable (currentAt cur idx true s).store j = true := fun j hstale => by
    obtain ⟨hdirty, hwhy⟩ := (reclaimable_iff _ j).mp hstale
    by_cases hj : j = cur
    · subst hj
      exact hwhy.elim (fun e => e rfl) (ne_noIndex hcur)
    · exact Bool.false_ne_true ((congrArg PageDesc.dirty (hother j hj)).symm.trans hdirty)
  have hskip := reclaim_skips (s := currentAt cur idx true s) (hq.store _) hjob rfl hkeep
  have hsnapshot := restoreSnapshot_first (s := setOp (.restoreSnapshot true true) (currentAt cur idx true s))
    (hq.store _) hjob rfl h.no_second
  have hcopy := restoreCopy_reaches (s := { s with
    store := { (currentAt cur idx true s).store with nextOffset := 16, op := .restoreCopy 0 0 true } }) (hq.store _) hjob rfl
    (by omega) h.settings hv
  have hfinish := restoreFinish_ends (ok := true) (s := { s with
    settings := v
    store := { (currentAt cur idx true s).store with nextOffset := 16, op := .restoreFinish true } })
    ⟨hq.params, hq.port, hq.events, hq.pulse⟩ hjob rfl
  exact ⟨_, (((hskip.head hfind).tail hsnapshot).trans hcopy).tail hfinish, rfl, rfl, rfl, rfl, rfl, rfl, rfl⟩

/-- A RESTORE_CONFIG line on such a pool. -/
theorem runLine_restore_of_holdsBlock (hinv : MachineInv s) (hop : s.store.op = .idle) (h : HoldsBlock cur idx v s)
    (hv : settingsLegal v = true) :
    ∃ t, runLine .restoreConfig s = .next t ∧ t.settings = v ∧ t.store.metaValid = true ∧
      t.store.curPage = cur ∧ t.store.curIndex = idx ∧ t.store.nextOffset = 16 ∧ t.store.status = s.store.status := by
  obtain ⟨-, hjob, -⟩ := idle_facts hinv hop
  have hstatus : (scanned (takeEvent [] s)).store.status = s.store.status := by simp only [scanned, takeEvent]
  obtain ⟨t, hreach, hidle, hend⟩ := restore_reaches_of_holdsBlock (s := scanned (takeEvent [] s))
    (h.congr (congrArg Flash.mem (scanned_flash _)) (scanned_params _)) ((quiet_takeEvent hinv).store _) hjob rfl
    (by rw [scanned_getElem]; exact h.scan_cur) (fun j hj => by rw [scanned_getElem]; exact h.scan_other hj) hv
  rw [hstatus] at hend
  exact ⟨_, runLine_restore_of_reaches hinv hop hreach hidle, hend⟩

end

/-- The bytes of a saved block, header, index and settings. -/
theorem savedBlock_getElem? (s : State) (pad : List Byte) :
    (∀ n : Fin 4, (savedBlock s pad)[n.val]? = (magic s.params)[n.val]?) ∧
    (savedBlock s pad)[4]? = some (BitVec.ofNat 8 s.store.curIndex.val) ∧
    (∀ n : Fin 6, (savedBlock s pad)[5 + n.val]? = some s.settings[n]) := by
  have hlen : (blockHeader s).length = 5 := rfl
  refine ⟨fun n => ?_, rfl, fun n => ?_⟩
  · rw [savedBlock, List.append_assoc, List.getElem?_append_left (by omega), blockHeader,
      List.getElem?_append_left n.isLt]
  · rw [savedBlock, List.append_assoc, List.getElem?_append_right (by omega), hlen, Nat.add_sub_cancel_left,
      List.getElem?_append_left (by simp)]
    simp

theorem poolOffset_eq_add (pos off : Nat) : poolOffset pos off = poolOffset pos 0 + off := by
  simp only [poolOffset, Nat.add_zero]

/-- A block programmed into an erased pool is the one block the pool holds. -/
theorem holdsBlock_of_programmed {s t : State} {pad : List Byte} {m : Memory} (hparams : t.params = s.params)
    (herased : ∀ a, readByte m a = 0xFF)
    (h : Programmed (poolOffset s.store.curPage.val 0) (savedBlock s pad) 16 m t.flash.mem) :
    HoldsBlock s.store.curPage s.store.curIndex s.settings t := by
  have hbyte : ∀ i, i < 16 → poolByte t s.store.curPage.val i = (savedBlock s pad)[i]?.getD 0xFF := fun i hi => by
    have hread := h.inside i hi
    rw [herased, show (0xFF : Byte) = BitVec.allOnes 8 from rfl, BitVec.allOnes_and] at hread
    rw [poolByte, poolOffset_eq_add]
    exact hread
  obtain ⟨hmagic, hindex, hsettings⟩ := savedBlock_getElem? s pad
  refine ⟨fun n => ?_, ?_, fun n => ?_, fun a ha => (h.outside a ha).trans (herased a)⟩
  · have hlt : n.val < (magic s.params).length := n.isLt
    rw [Nat.zero_add, hbyte _ (by omega), hmagic, hparams]
    exact (congrArg (·.getD 0xFF) (List.getElem?_eq_getElem hlt)).trans
      (congrArg (·.getD 0) (List.getElem?_eq_getElem hlt)).symm
  · rw [hbyte 4 (by omega), hindex]
    rfl
  · rw [hbyte _ (by omega), hsettings]
    rfl

/-- A SAVE_CONFIG with the force flag, for which no error is drawn, into an erased pool (rules R173 to R175). -/
theorem runLine_saveForce {s : State} (ms : Word32) (h : MachineInv s) (hop : s.store.op = .idle)
    (hmeta : s.store.metaValid = true) (hoff : s.store.nextOffset = 0) (herased : ∀ a, readByte s.flash.mem a = 0xFF)
    (herrors : noErrorFor (unitCount s.params) s) :
    ∃ t, runLine (.saveConfig true (some ms)) s = .next t ∧ MachineInv t ∧ t.flash.job = none ∧
      HoldsBlock s.store.curPage s.store.curIndex s.settings t := by
  obtain ⟨-, hjob, -⟩ := idle_facts h hop
  have hstep := (step_commandLine h (l := .saveConfig true (some ms)) rfl (decode_encode (.saveConfig true))).trans
    ((saveTrigger _ true (takeCommand_inv (takeEvent_inv h []) _ _) hop hmeta).1 (.inl rfl))
  obtain ⟨t, pad, hreach, hidle, hjob', hparams, -, hblock⟩ := save_reaches
    (s := { takeCommand (.saveConfig true) (lineInputs { ms := some ms } s) (takeEvent [] s) with
      store := { s.store with pending := false, op := .savePlace } })
    ⟨h.params, h.port, rfl, rfl⟩ hjob rfl (by rw [hoff]) (by rw [hoff]; omega) h.memory herrors
  have hinv := reaches_inv (invariantKept _ _ (withEvents_inv h _) hstep) hreach
  refine ⟨_, runLine_of_reaches h hstep StoreOp.noConfusion rfl hreach hidle, withEvents_inv hinv _, hjob',
    holdsBlock_of_programmed (s := s) (pad := pad) hparams herased ?_⟩
  rw [← hoff]
  exact hblock

/-- A RESET line with the controller at rest keeps the pool (rules R54, R251). -/
theorem runLine_reset_at_rest {s : State} (h : MachineInv s) (hjob : s.flash.job = none) :
    ∃ t, runLine .reset s = .next t ∧ MachineInv t ∧ t.store.op = .idle ∧ t.flash.mem = s.flash.mem ∧
      t.params = s.params ∧ t.store.status = 0 := by
  have hs := withEvents_inv h [.reset]
  have hstep := step_reset hs.params hs.port (rest := []) rfl
  exact ⟨_, runLine_next hstep (finishStore_idle _ rfl), withEvents_inv (resetMachine_inv (takeEvent_inv hs [])) _,
    rfl, congrArg Prod.fst (cutFlashJob_none _ hjob), rfl, rfl⟩

/-- Settles O44: the save leaves its block in the pool, the reset keeps it, and the restore finds it. -/
theorem saveThenRestoreRoundTrip : Obligations.SaveThenRestoreRoundTrip := by
  intro s ms h hop hmeta hoff herased herrors
  obtain ⟨-, -, -, hlegal⟩ := idle_facts h hop
  obtain ⟨t, hsave, hinv, hjob, hpool⟩ := runLine_saveForce ms h hop hmeta hoff herased herrors
  obtain ⟨r, hreset, hinv', hidle, hmem, hparams, hstatus⟩ := runLine_reset_at_rest hinv hjob
  obtain ⟨u, hrestore, hset, hmeta', hpage, hindex, hoff', hstatus'⟩ :=
    runLine_restore_of_holdsBlock hinv' hidle (hpool.congr hmem hparams) hlegal
  refine ⟨u, ?_, hset, hmeta', hpage, hindex, hoff', hstatus'.trans hstatus⟩
  exact (runScript_cons _ hsave).trans ((runScript_cons _ hreset).trans (runScript_cons _ hrestore))

end Sys2Proof.Proofs
end

section
/-! The flash family, part 1: the flash operations, their refusals, and how a program and an erase end
(47_flash_controller.md R201 to R207). -/

namespace Sys2Proof.Proofs

open Sys2Proof.Machine Sys2Proof.Config Sys2Proof.Laws

/-! ### What is refused, and the operations that change one bit -/

/-- Settles O47: the meanings of the three operations. -/
theorem flashBitOperations : Obligations.FlashBitOperations := fun s hb =>
  ⟨(execFlUnlock_next_iff s _).mpr ⟨hb, rfl⟩, (execFlClrerr_next_iff s _).mpr ⟨hb, rfl⟩,
    (execFlLock_next_iff s _).mpr ⟨hb, rfl⟩⟩

/-- Every flash operation asks first whether the controller is busy (rule R207). -/
theorem exec_flashBusy {s : State} (hb : s.flash.busy = true) {i : Instr}
    (hi : i ∈ [Instr.flUnlock, .flClrerr, .flProg, .flErase, .flLock]) : exec i s = .refused .flashBusy := by
  simp only [List.mem_cons, List.not_mem_nil, or_false] at hi
  rcases hi with rfl | rfl | rfl | rfl | rfl
  all_goals exact if_pos hb

theorem execFlErase_refused {s : State} (h : s.flash.locked = true ∨ 20 ≤ s.fop.pos) :
    ∃ r, execFlErase s = .refused r := by
  unfold execFlErase
  split
  · exact ⟨_, rfl⟩
  · split
    · exact ⟨_, rfl⟩
    · rename_i hlock
      rw [if_pos (h.resolve_left hlock)]
      exact ⟨_, rfl⟩

theorem execFlProg_refused {s : State} (h : s.flash.locked = true ∨ 20 ≤ s.fop.pos ∨
    s.fop.off % s.params.wblk ≠ 0 ∨ 2048 < s.fop.off + s.params.wblk) : ∃ r, execFlProg s = .refused r := by
  unfold execFlProg
  split
  · exact ⟨_, rfl⟩
  · split
    · exact ⟨_, rfl⟩
    · rename_i hlock
      have hplace := h.resolve_left hlock
      split
      · exact ⟨_, rfl⟩
      · rename_i haligned
        rw [if_pos (hplace.imp_right fun hoff => hoff.resolve_left haligned)]
        exact ⟨_, rfl⟩

/-- Settles O50: the checks of rule R207, operation by operation. -/
theorem flashOperationsRefused : Obligations.FlashOperationsRefused := fun _ =>
  ⟨fun hb _ hi => exec_flashBusy hb hi, execFlErase_refused, execFlProg_refused⟩

/-! ### The bytes an operation writes -/

theorem readByte_writeBytes_getElem? {m : Memory} (hw : m.wf) {a : Nat} {bs : List Byte}
    (hfit : a + bs.length ≤ poolBytes) {n : Nat} {b : Byte} (hb : bs[n]? = some b) :
    readByte (writeBytes m a bs) (a + n) = b := by
  obtain ⟨hn, rfl⟩ := List.getElem?_eq_some_iff.mp hb
  exact readByte_writeBytes_inside hw a bs hfit hn

/-- A programmed byte is old AND new (rule R203). -/
theorem readByte_programAtAddress {m : Memory} (hw : m.wf) {a : Nat} {data : List Byte}
    (hfit : a + data.length ≤ poolBytes) {n : Nat} {d : Byte} (hd : data[n]? = some d) :
    readByte (programAtAddress m a data) (a + n) = (readByte m (a + n) &&& d) := by
  obtain ⟨hn, rfl⟩ := List.getElem?_eq_some_iff.mp hd
  have hlen : n < (programmed m a data).length := by rwa [programmed_length]
  rw [programAtAddress, readByte_writeBytes_inside hw a _ (by rwa [programmed_length]) hlen,
    programmed_getElem m a data n hn]

theorem poolOffset_add (pos off n : Nat) : poolOffset pos (off + n) = poolOffset pos off + n :=
  (Nat.add_assoc _ _ _).symm

/-! ### The end of an operation, by its error draw -/

theorem settleProgram_of_noError (pos off : Nat) (data : List Byte) {s : State} (h : (drawError s.env).1 = false) :
    settleProgram pos off data s = { s with
      flash := ⟨programAtAddress s.flash.mem (poolOffset pos off) data, s.flash.locked, s.flash.err, none⟩
      env := (drawError s.env).2 } :=
  if_neg (by rw [h]; exact Bool.false_ne_true)

theorem settleProgram_of_error (pos off : Nat) (data : List Byte) {s : State} (h : (drawError s.env).1 = true) :
    settleProgram pos off data s = { s with
      flash := ⟨writeBytes s.flash.mem (poolOffset pos off) (drawBytes data.length (drawError s.env).2).1,
        s.flash.locked, true, none⟩
      env := (drawBytes data.length (drawError s.env).2).2 } :=
  if_pos h

theorem settleErase_of_noError (pos : Nat) {s : State} (h : (drawError s.env).1 = false) :
    settleErase pos s = { s with
      flash := ⟨erasePage s.flash.mem pos, s.flash.locked, s.flash.err, none⟩, env := (drawError s.env).2 } :=
  if_neg (by rw [h]; exact Bool.false_ne_true)

theorem settleErase_of_error (pos : Nat) {s : State} (h : (drawError s.env).1 = true) :
    settleErase pos s = { s with
      flash := ⟨writeBytes s.flash.mem (poolOffset pos 0) (drawPage (drawError s.env).2).1, s.flash.locked, true, none⟩
      env := (drawPage (drawError s.env).2).2 } :=
  if_pos h

/-- The end of an operation leaves the controller at rest, with its lock as it was, and changes no register outside the
controller but the draws (rules R203, R204, R206). -/
theorem flashSettle_frame (s : State) :
    (flashSettle s).flash.busy = false ∧ (flashSettle s).flash.locked = s.flash.locked ∧
      flashSettle s = { s with flash := (flashSettle s).flash, env := (flashSettle s).env } := by
  obtain ⟨mem, err, env, h, -, -⟩ := flashSettle_spec s
  rw [h]
  exact ⟨rfl, rfl, rfl⟩

section
variable {s : State} {pos off : Nat} {data : List Byte}

theorem flashSettle_prog (hjob : s.flash.job = some (.prog pos off data)) :
    flashSettle s = settleProgram pos off data s := by
  rw [flashSettle, hjob]

theorem flashSettle_erase (hjob : s.flash.job = some (.erase pos)) : flashSettle s = settleErase pos s := by
  rw [flashSettle, hjob]

/-- A program operation that ends without error (rule R203). -/
theorem program_ends_of_noError (hw : s.flash.mem.wf) (hjob : s.flash.job = some (.prog pos off data))
    (hin : jobInPool (.prog pos off data)) (he : (drawError s.env).1 = false) :
    (flashSettle s).flash.err = s.flash.err ∧
      ∀ n d, data[n]? = some d → poolByte (flashSettle s) pos (off + n) = (poolByte s pos (off + n) &&& d) := by
  rw [flashSettle_prog hjob, settleProgram_of_noError pos off data he]
  refine ⟨rfl, fun n d hd => ?_⟩
  rw [poolByte, poolByte, poolOffset_add]
  exact readByte_programAtAddress hw (poolOffset_le hin.1 hin.2) hd

/-- A program operation that ends with an error (rule R203). -/
theorem program_ends_of_error (hw : s.flash.mem.wf) (hjob : s.flash.job = some (.prog pos off data))
    (hin : jobInPool (.prog pos off data)) (he : (drawError s.env).1 = true) :
    (flashSettle s).flash.err = true ∧ ∀ n b, (drawBytes data.length (drawError s.env).2).1[n]? = some b →
      poolByte (flashSettle s) pos (off + n) = b := by
  rw [flashSettle_prog hjob, settleProgram_of_error pos off data he]
  refine ⟨rfl, fun n b hb => ?_⟩
  rw [poolByte, poolOffset_add]
  exact readByte_writeBytes_getElem? hw (by rw [drawBytes_length]; exact poolOffset_le hin.1 hin.2) hb

/-- An erase operation that ends without error (rule R204). -/
theorem erase_ends_of_noError (hjob : s.flash.job = some (.erase pos)) (he : (drawError s.env).1 = false) :
    (flashSettle s).flash.err = s.flash.err ∧ ∀ o, o < pageSize → poolByte (flashSettle s) pos o = erasedByte := by
  rw [flashSettle_erase hjob, settleErase_of_noError pos he]
  exact ⟨rfl, fun _ ho => readByte_erasePage_inside _ (pageOf_poolOffset ho)⟩

/-- An erase operation that ends with an error (rule R204). -/
theorem erase_ends_of_error (hw : s.flash.mem.wf) (hjob : s.flash.job = some (.erase pos))
    (hin : jobInPool (.erase pos)) (he : (drawError s.env).1 = true) :
    (flashSettle s).flash.err = true ∧
      ∀ n b, (drawPage (drawError s.env).2).1[n]? = some b → poolByte (flashSettle s) pos n = b := by
  rw [flashSettle_erase hjob, settleErase_of_error pos he]
  refine ⟨rfl, fun n b hb => ?_⟩
  simp only [poolByte, poolOffset_eq_add pos n]
  exact readByte_writeBytes_getElem? hw (by rw [drawPage_length]; exact poolOffset_page_le hin) hb

end

/-! ### FL_PROG and FL_ERASE -/

/-- The controller has just started this job (rules R203, R204). -/
def startJob (j : FlashJob) (s : State) : State := setFlash { s.flash with job := some j } s

/-- The end of the job just started leaves every byte outside its target alone (rules R203, R204). -/
theorem flashSettle_startJob_outside {j : FlashJob} (s : State) {a : Nat} (ha : ¬jobTarget j a) :
    readByte (flashSettle (startJob j s)).flash.mem a = readByte s.flash.mem a :=
  flashSettle_outside (startJob j s) fun k hk => by
    obtain rfl : j = k := Option.some.inj hk
    exact ha

/-- Settles O48: FL_PROG starts the job of its port, and that job ends by its error draw. -/
theorem flashProgramEffect : Obligations.FlashProgramEffect := by
  intro s hw hb hl hmod hpos hpage
  have hlen : (portData s.params s.fop).length = s.params.wblk := portData_length _ _
  have hin : jobInPool (.prog s.fop.pos s.fop.off (portData s.params s.fop)) := ⟨hpos, by rwa [hlen]⟩
  refine ⟨startJob (.prog s.fop.pos s.fop.off (portData s.params s.fop)) s,
    (execFlProg_next_iff s _).mpr ⟨hb, hl, hmod, hpos, hpage, rfl⟩, rfl, rfl, ?_⟩
  obtain ⟨hrest, hlock, hframe⟩ := flashSettle_frame (startJob (.prog s.fop.pos s.fop.off (portData s.params s.fop)) s)
  refine ⟨hrest, hlock.trans hl, fun he => ?_, fun he => ?_, fun a ha => ?_, hframe⟩
  · obtain ⟨herr, hbytes⟩ := program_ends_of_noError (s := startJob _ s) hw rfl hin he
    exact ⟨herr, fun n hn => hbytes n _ (portData_getElem? s.params s.fop hn)⟩
  · rw [← hlen]
    exact program_ends_of_error (s := startJob _ s) hw rfl hin he
  · refine flashSettle_startJob_outside s ?_
    rw [jobTarget, hlen]
    omega

/-- Settles O49: FL_ERASE starts the erase of its port's page, which ends by its error draw. -/
theorem flashEraseEffect : Obligations.FlashEraseEffect := by
  intro s hw hb hl hpos
  refine ⟨startJob (.erase s.fop.pos) s, (execFlErase_next_iff s _).mpr ⟨hb, hl, hpos, rfl⟩, rfl, rfl, ?_⟩
  obtain ⟨hrest, hlock, hframe⟩ := flashSettle_frame (startJob (.erase s.fop.pos) s)
  refine ⟨hrest, hlock.trans hl, erase_ends_of_noError (s := startJob _ s) rfl,
    erase_ends_of_error (s := startJob _ s) hw rfl hpos, fun pos off hne hoff => ?_, hframe⟩
  refine flashSettle_startJob_outside s ?_
  rw [jobTarget, pageOf_poolOffset hoff]
  exact hne

end Sys2Proof.Proofs
end

section
/-! The flash family, part 2: `ProgramSeq` to its end, without an error and with one (47_flash_controller.md R203,
R208). -/

namespace Sys2Proof.Proofs

open Sys2Proof.Machine Sys2Proof.Config Sys2Proof.Laws

/-! ### No error drawn -/

/-- At a place of `ProgramSeq` the block buffer is full and the block fits its page. -/
theorem blockPlaced {s : State} {buf : List Byte} {p : ProgStep} (h : MachineInv s)
    (hop : s.store.op = .saveProgram p) (hbuf : s.store.buf = some buf) : BlockPlaced buf s := by
  obtain ⟨⟨-, haligned, hfits⟩, hlen, -⟩ : savePlaced s ∧ bufLength s = some blk ∧ p.unitLegal s.params :=
    place_at h hop
  rw [bufLength, hbuf] at hlen
  exact ⟨hbuf, Option.some.inj hlen, haligned, hfits⟩

/-- Settles O30: the program sequence with no error drawn programs the whole block. -/
theorem programSequenceWritesBlock : Obligations.ProgramSequenceWritesBlock := by
  intro s buf h hop hbuf he
  obtain ⟨holds, hlen, haligned, hfits⟩ := blockPlaced h hop hbuf
  have hjob := job_none h hop rfl
  obtain ⟨m, fp, env, hreach, -, -, hblock⟩ := programSeq_reaches (s := takeEvent [] s) (quiet_takeEvent h)
    ⟨holds, hlen, haligned, hfits⟩ hjob hop h.memory he
  obtain ⟨n, hrun⟩ := run_undisturbed_of_reaches hreach (by rw [hop]; simp [inSequence])
  exact ⟨n, _, hrun, rfl, rfl, rfl, rfl, hblock.inside, hblock.outside⟩

/-! ### An error drawn at a unit -/

/-- Bytes written after the first `n` of a block leave those, and what lies outside the block, alone. -/
theorem Programmed.overwritten {a n : Nat} {buf bs : List Byte} {m m' : Memory} (h : Programmed a buf n m m') :
    (∀ i, i < n → readByte (writeBytes m' (a + n) bs) (a + i) = (readByte m (a + i) &&& buf[i]?.getD 0xFF)) ∧
      ∀ b, b < a ∨ a + n + bs.length ≤ b → readByte (writeBytes m' (a + n) bs) b = readByte m b := by
  refine ⟨fun i hi => ?_, fun b hb => ?_⟩
  · rw [readByte_writeBytes_outside _ _ _ (by omega), h.inside i hi]
  · rw [readByte_writeBytes_outside _ _ _ (by omega), h.outside b (by omega)]

section
variable {s : State} {buf : List Byte}

/-- The program sequence opens the controller and clears its error flag before its first unit (rule R208). -/
theorem programSeq_starts (hq : Quiet s) (hjob : s.flash.job = none) (hop : s.store.op = .saveProgram .unlock) :
    ∃ fp : FlashPort, fp.valid = false ∧
      Reaches s (inSequence (.saveProgram (.prog 0)) ⟨s.flash.mem, false, false, none⟩ fp s.env s) := by
  obtain ⟨fp₁, hv₁, hunlock⟩ := programSeq_unlock hq hjob hop
  obtain ⟨fp₂, hv₂, hclear⟩ := programSeq_clearErr
    (hq.inSequence (.saveProgram .clearErr) { s.flash with locked := false } hv₁ hq.events) hjob rfl
  refine ⟨fp₂, hv₂, .tail (.single hunlock) ?_⟩
  rw [← hjob]
  exact hclear

/-- The sequence comes to unit `u` when no error is drawn for the units before it, which are then programmed. -/
theorem programSeq_reaches_unit (u : Nat) {es : List Bool} (hu : u < unitCount s.params) (hq : Quiet s)
    (hb : BlockPlaced buf s) (hjob : s.flash.job = none) (hop : s.store.op = .saveProgram .unlock)
    (hm : s.flash.mem.wf) (he : s.env.errors = List.replicate u false ++ es) :
    ∃ m fp env, Reaches s (inSequence (.saveProgram (.prog u)) ⟨m, false, false, none⟩ fp env s) ∧
      fp.valid = false ∧ env.events = [] ∧ env.errors = es ∧
      Programmed (poolOffset s.store.curPage.val s.store.nextOffset) buf (u * s.params.wblk) s.flash.mem m := by
  induction u generalizing es with
  | zero =>
    obtain ⟨fp, hv, hstart⟩ := programSeq_starts hq hjob hop
    exact ⟨_, fp, _, hstart, hv, hq.events, he, by rw [Nat.zero_mul]; exact .zero hm _ _⟩
  | succ u ih =>
    obtain ⟨m, fp, env, hbefore, hv, hevents, herrors, hprog⟩ :=
      ih (es := false :: es) (by omega) (by rw [he, List.replicate_succ', List.append_assoc]; rfl)
    obtain ⟨fp', env', hunit, hv', hevents', herrors'⟩ := programUnit_reaches
      (s := inSequence (.saveProgram (.prog u)) ⟨m, false, false, none⟩ fp env s)
      (hq.inSequence _ _ hv hevents) ⟨hb.holds, hb.length, hb.aligned, hb.fits⟩
      (by exact (by omega : u < unitCount s.params)) rfl rfl herrors
    have hnext : programAt s.params (u + 1) = .prog (u + 1) := if_pos hu
    have hbound :
        poolOffset s.store.curPage.val s.store.nextOffset + u * s.params.wblk + s.params.wblk ≤ poolBytes := by
      have := poolOffset_le s.store.curPage.isLt hb.fits
      have := unit_le hq.params (show u < unitCount s.params by omega)
      omega
    refine ⟨_, fp', env', hbefore.trans ?_, hv', hevents', herrors',
      hprog.unit (unitBytes_length hq.params (by omega) hb.length) hbound⟩
    rw [← hnext]
    exact hunit

/-- The end of a program operation for which an error was drawn. -/
theorem program_fails {pos off : Nat} {d : List Byte} {es : List Bool} (hq : Quiet s) (hop : s.store.op ≠ .idle)
    (hjob : s.flash.job = some (.prog pos off d)) (he : s.env.errors = true :: es) :
    ∃ bs env, Advances s (inSequence s.store.op ⟨writeBytes s.flash.mem (poolOffset pos off) bs, s.flash.locked, true,
      none⟩ s.fop env s) ∧ bs.length = d.length ∧ env.events = [] := by
  have hdraw : (drawError s.env).1 = true := by rw [drawError, he]
  have hsettle := advances_settle hq hop hjob
  rw [flashSettle_prog hjob, settleProgram_of_error pos off d hdraw] at hsettle
  exact ⟨_, _, hsettle, drawBytes_length _ _, by simpa using hq.events⟩

theorem programSeq_poll_failed {u : Nat} (hq : Quiet s) (hjob : s.flash.job = none) (herr : s.flash.err = true)
    (hop : s.store.op = .saveProgram (.poll u)) : Advances s (setOp (.saveProgram (.lock false)) s) := by
  refine advances_plain hq (saveProgram_ne_idle hop) hjob ?_ hq.port
  rw [storeStep_saveProgram hop (fun _ => ProgStep.noConfusion), programSeqStep, busy_of_job_none hjob, herr]
  rfl

/-- A unit for which an error is drawn ends the sequence with failure, the controller locked (rule R208). -/
theorem programUnit_fails {u : Nat} {m : Memory} {es : List Bool} (hq : Quiet s) (hb : BlockPlaced buf s)
    (hu : u < unitCount s.params) (hfl : s.flash = ⟨m, false, false, none⟩)
    (hop : s.store.op = .saveProgram (.prog u)) (he : s.env.errors = true :: es) :
    ∃ bs fp env, Reaches s (inSequence (.saveProgram (.done false))
        ⟨writeBytes m (poolOffset s.store.curPage.val s.store.nextOffset + u * s.params.wblk) bs, true, true, none⟩
        fp env s) ∧ bs.length = s.params.wblk := by
  obtain ⟨fp, hv, hprog⟩ := programSeq_prog hq hb hu (by rw [hfl]) (by rw [hfl]) hop
  rw [hfl] at hprog
  obtain ⟨bs, env, hfail, hlen, hevents⟩ := program_fails
    (hq.inSequence (.saveProgram (.poll u)) ⟨m, false, false, some (unitJob s buf u)⟩ hv hq.events)
    StoreOp.noConfusion rfl he
  have hquiet := fun op => hq.inSequence op ⟨writeBytes m (poolOffset s.store.curPage.val
    (s.store.nextOffset + u * s.params.wblk)) bs, false, true, none⟩ hv hevents
  have hpoll := programSeq_poll_failed (hquiet (.saveProgram (.poll u))) rfl rfl rfl
  obtain ⟨fp', -, hlock⟩ := programSeq_lock (hquiet (.saveProgram (.lock false))) rfl rfl
  rw [← poolOffset_add]
  exact ⟨bs, fp', env, .tail (.tail (.tail (.single hprog) hfail) hpoll) hlock,
    hlen.trans (unitBytes_length hq.params hu hb.length)⟩

/-- `ProgramSeq` with its first error drawn at unit `u`: the units before it are programmed, `bs` is what unit `u` is
left with (rules R203, R208). -/
theorem programSeq_reaches_failed {u : Nat} {es : List Bool} (hu : u < unitCount s.params) (hq : Quiet s)
    (hb : BlockPlaced buf s) (hjob : s.flash.job = none) (hop : s.store.op = .saveProgram .unlock)
    (hm : s.flash.mem.wf) (he : s.env.errors = List.replicate u false ++ true :: es) :
    ∃ m bs fp env, Reaches s (inSequence (.saveProgram (.done false))
        ⟨writeBytes m (poolOffset s.store.curPage.val s.store.nextOffset + u * s.params.wblk) bs, true, true, none⟩
        fp env s) ∧ bs.length = s.params.wblk ∧
      Programmed (poolOffset s.store.curPage.val s.store.nextOffset) buf (u * s.params.wblk) s.flash.mem m := by
  obtain ⟨m, fp, env, hbefore, hv, hevents, herrors, hprog⟩ := programSeq_reaches_unit u hu hq hb hjob hop hm he
  obtain ⟨bs, fp', env', hfail, hlen⟩ := programUnit_fails
    (hq.inSequence (.saveProgram (.prog u)) ⟨m, false, false, none⟩ hv hevents)
    ⟨hb.holds, hb.length, hb.aligned, hb.fits⟩ hu rfl rfl herrors
  exact ⟨m, bs, fp', env', hbefore.trans hfail, hlen, hprog⟩

end

/-- Settles O31: the units before the error are programmed, and the failing unit's bytes are all it writes. -/
theorem programSequenceStopsAtError : Obligations.ProgramSequenceStopsAtError := by
  intro s buf u h hop hbuf hu ⟨es, he⟩
  obtain ⟨holds, hlen, haligned, hfits⟩ := blockPlaced h hop hbuf
  have hjob := job_none h hop rfl
  obtain ⟨m, bs, fp, env, hreach, hbs, hprog⟩ := programSeq_reaches_failed (s := takeEvent [] s) (es := es) hu
    (quiet_takeEvent h) ⟨holds, hlen, haligned, hfits⟩ hjob hop h.memory
    (he.symm.trans (List.append_assoc _ _ _))
  obtain ⟨n, hrun⟩ := run_undisturbed_of_reaches hreach (by rw [hop]; simp [inSequence])
  obtain ⟨hinside, houtside⟩ := hprog.overwritten (bs := bs)
  refine ⟨n, _, hrun, rfl, rfl, rfl, rfl, hinside, fun a ha => houtside a (ha.imp_right fun hge => ?_)⟩
  rw [hbs, Nat.add_assoc, ← Nat.succ_mul]
  exact hge

end Sys2Proof.Proofs
end

section
/-! The exceptions family (60_exceptions.md R220, R225, R226, R233, R235; 10_state.md R26; 45_tick.md R150;
47_flash_controller.md R206): the status bits, what a TICK reads, the steps of the sequencer and of the controller, and
where the machine stops. -/

namespace Sys2Proof.Proofs

open Sys2Proof.Machine Sys2Proof.Config Sys2Proof.Laws

/-! ### The status register -/

/-- Settles O52: the three masks. -/
theorem raiseSetsOneBit : Obligations.RaiseSetsOneBit := fun _ => ⟨rfl, rfl, rfl⟩

/-- No command clears a status bit: a TICK and the store's commands do not write the register. -/
theorem command_status {s t : State} {w : BitVec 4} {i : Instr} (hd : decode (.cmd w) = .ok i)
    (he : exec i s = .next t) : t.store.status = s.store.status := by
  by_cases hi : i = .tick
  · subst hi
    obtain ⟨pending, anchor, -, hstore, -⟩ := tick_frame he
    rw [hstore]
  · exact (exec_store_frame hd hi he).2.1

/-- Settles O53: only a step of the sequencer writes the register, and it only sets bits. -/
theorem statusBitsSticky : Obligations.StatusBitsSticky := by
  intro s t h hnr
  obtain ⟨-, hstep⟩ := step_cases h
  cases hstep with
  | flashWord i hv hd he =>
    rw [(exec_fop_frame hd he).1]
    exact BitVec.and_self
  | command w port rest i hv hs hd he =>
    rw [command_status hd he]
    exact BitVec.and_self
  | store rest hv hs hd =>
    obtain ⟨-, -, -, -, v, hv', hstore, -⟩ := driven_frame hd
    rw [hstore]
    exact (storeStep_frame hv').status
  | settle rest hv hs ht =>
    obtain ⟨mem, err, e, hf, -⟩ := flashSettle_spec (takeEvent rest s)
    rw [ht, hf]
    exact BitVec.and_self
  | reset rest hv hs ht => exact absurd ⟨hv, by rw [hs]; rfl⟩ hnr

/-! ### A TICK over another flash and another store -/

/-- The two states agree in everything but the flash and the store's registers. -/
def AgreeOutsideStore (s t : State) : Prop := ∃ f st, t = { s with flash := f, store := st }

/-- Polling a button reads neither the flash nor the store (rules R82, R141). -/
theorem pollButton_agrees {s t : State} (h : AgreeOutsideStore s t) (j : Fin 6) :
    AgreeOutsideStore (pollButton j s) (pollButton j t) := by
  obtain ⟨f, st, rfl⟩ := h
  by_cases hp : pressAt j s
  · rw [pollButton_press hp, pollButton_press (s := { s with flash := f, store := st }) hp]
    exact ⟨_, _, rfl⟩
  · rw [pollButton_quiet hp, pollButton_quiet (s := { s with flash := f, store := st }) hp]
    exact ⟨_, _, rfl⟩

/-- Phase 1 of a tick, with the count before it (rule R151). -/
theorem pollButtons_agrees {s t : State} (h : AgreeOutsideStore s t) :
    AgreeOutsideStore (pollButtons (countTick s)) (pollButtons (countTick t)) := by
  have hcount : AgreeOutsideStore (countTick s) (countTick t) := by
    obtain ⟨f, st, rfl⟩ := h
    exact ⟨f, st, rfl⟩
  have hfirst := pollButton_agrees (pollButton_agrees (pollButton_agrees hcount 0) 1) 2
  exact pollButton_agrees (pollButton_agrees (pollButton_agrees hfirst 3) 4) 5

/-- Phases 2 and 3 of a tick (rule R151). -/
theorem envelopePhase_agrees {s t : State} (h : AgreeOutsideStore s t) :
    AgreeOutsideStore (envelopePhase (clockPhase s)) (envelopePhase (clockPhase t)) := by
  obtain ⟨f, st, rfl⟩ := h
  exact ⟨f, st, rfl⟩

/-- An oscillator's step commutes with replacing the flash and the store (rule R120). -/
theorem lfoStep_setStore (k : Fin 3) (s : State) (f : Flash) (st : Store) :
    lfoStep k { s with flash := f, store := st } = { lfoStep k s with flash := f, store := st } := by
  match k with
  | 0 => rw [lfoStep_zero, lfoStep_zero]; rfl
  | 1 => rw [lfoStep_one, lfoStep_one]; rfl
  | 2 => rw [lfoStep_two, lfoStep_two]; rfl

theorem lfoStep_agrees {s t : State} (h : AgreeOutsideStore s t) (k : Fin 3) :
    AgreeOutsideStore (lfoStep k s) (lfoStep k t) := by
  obtain ⟨f, st, rfl⟩ := h
  exact ⟨f, st, lfoStep_setStore k s f st⟩

/-- A whole tick reads neither the flash nor the store (rules R150, R233). -/
theorem tickEngine_agrees {s t : State} (h : AgreeOutsideStore s t) :
    AgreeOutsideStore (tickEngine s) (tickEngine t) :=
  lfoStep_agrees (lfoStep_agrees (lfoStep_agrees (envelopePhase_agrees (pollButtons_agrees h)) 0) 1) 2

/-- Settles O20: both TICKs run, and their next states agree outside the flash and the store. -/
theorem tickIgnoresStoreAndFlash : Obligations.TickIgnoresStoreAndFlash := by
  intro s f st h hmeta hrestore
  have h' : TickAllowed { s with flash := f, store := st } := ⟨hmeta, hrestore, h.samples, h.modes⟩
  obtain ⟨g, st', htick⟩ := tickEngine_agrees (s := s) ⟨f, st, rfl⟩
  have hrun := exec_tick h
  have hrun' := exec_tick h'
  rw [htick] at hrun'
  generalize tickEngine s = e at hrun hrun'
  exact ⟨_, _, hrun, hrun', rfl, rfl, rfl, rfl, rfl, rfl, rfl, rfl⟩

/-! ### The steps of the sequencer and of the controller -/

/-- The two ways an event comes about, scheduled or by itself with nothing scheduled, in one form (rule R235). -/
theorem exists_takeEvent {s u : State} {e : Event} {busy : Bool}
    (h : (∃ rest, s.env.events = e :: rest ∧
        u = { s with cmd := { s.cmd with done := false }, env := { s.env with events := rest } }) ∨
      (s.env.events = [] ∧ s.flash.busy = busy ∧ u = { s with cmd := { s.cmd with done := false } })) :
    ∃ rest, (s.env.events = e :: rest ∨ (s.env.events = [] ∧ rest = [] ∧ s.flash.busy = busy)) ∧
      u = takeEvent rest s := by
  rcases h with ⟨rest, he, rfl⟩ | ⟨he, hb, rfl⟩
  · exact ⟨rest, .inl he, rfl⟩
  · exact ⟨[], .inr ⟨he, rfl, hb⟩, (takeEvent_nil he).symm⟩

section

variable {s : State} {rest : List Event} (hp : s.params.wellFormed = true) (hv : s.fop.valid = false)

include hp hv

/-- A step of the store, scheduled or by itself, goes on as the sequencer's step says (rules R226, R235). -/
theorem step_drives
    (hs : s.env.events = .storeStep :: rest ∨ (s.env.events = [] ∧ rest = [] ∧ s.flash.busy = false)) :
    (∀ i u, driveStore (takeEvent rest s) = .run i u → step s = exec i u) ∧
      ∀ r, driveStore (takeEvent rest s) = .settled r → step s = r := by
  rcases hs with he | ⟨he, rfl, hb⟩
  · have hfetch : fetch (endPulse s) = driveStore (takeEvent rest s) := fetch_event hp hv he
    exact ⟨fun i u hd => step_of_run (hfetch.trans hd), fun r hd => step_of_settled (hfetch.trans hd)⟩
  · rw [takeEvent_nil he]
    exact step_unscheduled hp hv he hb

/-- The machine step of the store is the machine's step (rule R226). -/
theorem step_of_driven_takeEvent {t : State}
    (hs : s.env.events = .storeStep :: rest ∨ (s.env.events = [] ∧ rest = [] ∧ s.flash.busy = false))
    (hd : Driven (takeEvent rest s) t) : step s = .next t := by
  obtain ⟨hrun, hsettled⟩ := step_drives hp hv hs
  cases hd with
  | plain hstore hv' => exact hsettled _ (drive_plain hstore hv')
  | issued v i hstore hv' hd' he => exact (hrun i _ (drive_issue hstore hv' hd')).trans he

/-- The end of the controller's operation, scheduled or by itself, is `flashSettle` (rule R206). -/
theorem step_flashReady
    (hs : s.env.events = .flashReady :: rest ∨ (s.env.events = [] ∧ rest = [] ∧ s.flash.busy = true)) :
    step s = .next (flashSettle (takeEvent rest s)) := by
  rcases hs with he | ⟨he, rfl, hb⟩
  · exact step_of_settled (fetch_event hp hv he)
  · rw [takeEvent_nil he]
    exact step_settles hp hv he hb

end

/-- Settles O6: the sequencer's step with the operation it presents, and the end of the controller's operation. -/
theorem storeStepIsAMachineStep : Obligations.StoreStepIsAMachineStep := by
  refine ⟨fun s u t hp hv hu hstore => ?_, fun s u hp hv hu => ?_⟩
  · obtain ⟨rest, hs, rfl⟩ := exists_takeEvent hu
    obtain ⟨hrun, hsettled⟩ := step_drives hp hv hs
    exact ⟨fun hv' => hsettled _ (drive_plain hstore hv'), fun i hv' hd => hrun i _ (drive_issue hstore hv' hd)⟩
  · obtain ⟨rest, hs, rfl⟩ := exists_takeEvent hu
    exact step_flashReady hp hv hs

/-! ### Where the machine stops -/

/-- The outcome is no fault, and a refusal only of a command that the environment must not issue (rule R235). -/
def StopsOnlyAtBreach (r : Result) : Prop :=
  (∀ f, r ≠ .fault f) ∧ ∀ b, r = .refused b → environmentBreach b = true

theorem StopsOnlyAtBreach.of_next {r : Result} {t : State} (h : r = .next t) : StopsOnlyAtBreach r := by
  subst h
  exact ⟨nofun, nofun⟩

theorem StopsOnlyAtBreach.of_refused {r : Result} {b : Refusal} (h : r = .refused b)
    (hb : environmentBreach b = true) : StopsOnlyAtBreach r := by
  subst h
  exact ⟨nofun, fun _ hr => Host.Outcome.refused.inj hr ▸ hb⟩

/-- Only a RESTORE_CONFIG copies settings. -/
theorem not_copying_of_not_isRestore {op : StoreOp} (h : op.isRestore = false) : op.copying = false := by
  cases op with
  | restoreCopy => cases h
  | restoreValidate => cases h
  | _ => rfl

/-- A TICK in a state of the invariant: where no RESTORE_CONFIG is in flight the mode codes are legal (rule R31 e). -/
theorem tick_stopsOnlyAtBreach {s : State} (h : MachineInv s) : StopsOnlyAtBreach (exec .tick s) := by
  obtain ⟨hrestore, hmeta, hsample⟩ := execTick_refused s
  cases hr : s.store.op.isRestore with
  | true => exact .of_refused (hrestore hr) rfl
  | false =>
    cases hm : s.store.metaValid with
    | false => exact .of_refused (hmeta hr hm) rfl
    | true =>
      by_cases hi : s.inputs.wellFormed = true
      · have hset := settings_legal h rfl (not_copying_of_not_isRestore hr)
        have hadmitted : tickAdmitted s = true := by simp [tickAdmitted, hr, hm, hi, hset]
        exact .of_next (exec_tick ((tickAdmitted_iff s).mp hadmitted))
      · exact .of_refused (hsample hr hm hi) rfl

/-- RESTORE_CONFIG in a state of the invariant: a store at rest has the controller at rest (rules R31 g, R262). -/
theorem restoreConfig_stopsOnlyAtBreach {s : State} (h : MachineInv s) :
    StopsOnlyAtBreach (exec .restoreConfig s) := by
  by_cases hop : s.store.op = .idle
  · exact .of_next (exec_restoreConfig_idle h hop)
  · exact .of_refused (storeCommand_refused hop false).1 rfl

/-- SAVE_CONFIG needs a store at rest and the metadata (rules R252, R262). -/
theorem saveConfig_stopsOnlyAtBreach (force : Bool) (s : State) : StopsOnlyAtBreach (exec (.saveConfig force) s) := by
  by_cases hop : s.store.op = .idle
  · cases hm : s.store.metaValid with
    | true => exact .of_next ((execSaveConfig_next_iff force s _).mpr ⟨hop, hm, rfl⟩)
    | false => exact .of_refused (execSaveConfig_beforeMetadata hop hm force) rfl
  · exact .of_refused (storeCommand_refused hop force).2.1 rfl

/-- ERASE_CONFIG needs a store at rest (rule R262). -/
theorem eraseConfig_stopsOnlyAtBreach (s : State) : StopsOnlyAtBreach (exec .eraseConfig s) := by
  by_cases hop : s.store.op = .idle
  · exact .of_next ((execEraseConfig_next_iff s _).mpr ⟨hop, rfl⟩)
  · exact .of_refused (storeCommand_refused hop false).2.2 rfl

/-- A command that the environment presents, in a state of the invariant. -/
theorem command_stopsOnlyAtBreach {s : State} {w : BitVec 4} {i : Instr} (h : MachineInv s)
    (hd : decode (.cmd w) = .ok i) : StopsOnlyAtBreach (exec i s) := by
  rcases decode_cmd hd with rfl | rfl | rfl | ⟨force, rfl⟩ | rfl
  · exact tick_stopsOnlyAtBreach h
  · exact restoreConfig_stopsOnlyAtBreach h
  · exact .of_next rfl
  · exact saveConfig_stopsOnlyAtBreach force s
  · exact eraseConfig_stopsOnlyAtBreach s

/-- From a state of the invariant the sequencer's step, with the operation it presents, goes on. -/
theorem store_stopsOnlyAtBreach {s : State} {rest : List Event} (h : MachineInv s)
    (hs : s.env.events = .storeStep :: rest ∨ (s.env.events = [] ∧ rest = [] ∧ s.flash.busy = false)) :
    StopsOnlyAtBreach (step s) := by
  obtain ⟨t, hd, -⟩ := driven_kept (takeEvent_inv h rest)
  exact .of_next (step_of_driven_takeEvent h.params h.port hs hd)

/-- Settles O57, by what the environment has scheduled: only a command word can stop the machine. -/
theorem onlyEnvironmentBreachesStop : Obligations.OnlyEnvironmentBreachesStop := by
  intro s h
  change StopsOnlyAtBreach (step s)
  cases he : s.env.events with
  | nil =>
    cases hb : s.flash.busy with
    | true => exact .of_next (step_flashReady h.params h.port (.inr ⟨he, rfl, hb⟩))
    | false => exact store_stopsOnlyAtBreach h (.inr ⟨he, rfl, hb⟩)
  | cons e rest =>
    cases e with
    | command w port =>
      cases hd : decode (.cmd w) with
      | ok i =>
        rw [step_command h.params h.port he hd]
        exact command_stopsOnlyAtBreach (takeCommand_inv (takeEvent_inv h rest) i port) hd
      | error e =>
        exact .of_refused
          (step_of_settled ((fetch_event h.params h.port he).trans (fetchCommandPort_error hd port _))) rfl
    | storeStep => exact store_stopsOnlyAtBreach h (.inl he)
    | flashReady => exact .of_next (step_flashReady h.params h.port (.inl he))
    | reset => exact .of_next (step_reset h.params h.port he)

end Sys2Proof.Proofs
end
